-- ==== Sys2Proof/Word.lean ====
section
/-! DEFINITION. The word types of AWCORE (spec 00_scope.md R10): `u8`, `u16` / `s16`, `u32`. A value the spec calls
`s16` is the same bit pattern, read with `BitVec.toInt`. -/

namespace Sys2Proof

/-- A `u8`. -/
abbrev Byte := BitVec 8

/-- A `u16`, or an `s16` where it is read with `toInt` (R10, R11). -/
abbrev Word := BitVec 16

/-- A `u32`: a 16.16 fixed-point accumulator of the rasterizer (46_polygon_rasterizer.md R221). -/
abbrev Acc := BitVec 32

end Sys2Proof
end

