-- ==== Sys2Proof/Syntax.lean ====
section
/-! DEFINITION. The instruction set AWBC as syntax: one constructor per row of spec/opcode_table.json (the three rows of
`cond_jmp` are its three forms; the eight `illegal` rows are ranges of one thing). Fields hold every bit of the
encoding, the ignored ones too (30_encoding.md R111), so that no bit is lost between decoding and encoding. -/

namespace Sys2Proof

/-- The x field of `spoly`, by its mode `xm` (30_encoding.md R99). -/
inductive XField where
  /-- mode 00: a signed 16-bit immediate, two bytes -/
  | imm16 (w : Word)
  /-- mode 01: the variable with this index -/
  | var (i : Byte)
  /-- mode 10: a zero-extended byte -/
  | imm8 (b : Byte)
  /-- mode 11: the byte plus 0x100 -/
  | imm8High (b : Byte)
  deriving DecidableEq, Repr

/-- The y field of `spoly`, by its mode `ym` (30_encoding.md R99). -/
inductive YField where
  /-- mode 00: a signed 16-bit immediate, two bytes -/
  | imm16 (w : Word)
  /-- mode 01: the variable with this index -/
  | var (i : Byte)
  /-- mode 10: a zero-extended byte -/
  | imm8 (b : Byte)
  /-- mode 11: the same value as mode 10 (R111) -/
  | imm8Alt (b : Byte)
  deriving DecidableEq, Repr

/-- The zoom field of `spoly`, by its mode `zm` (30_encoding.md R99). -/
inductive ZoomField where
  /-- mode 00: no byte, zoom 0x40, segment CINEMATIC -/
  | default
  /-- mode 01: the bit pattern of the variable with this index, segment CINEMATIC -/
  | var (i : Byte)
  /-- mode 10: a zero-extended byte, segment CINEMATIC -/
  | imm8 (b : Byte)
  /-- mode 11: no byte, zoom 0x40, segment SECONDARY -/
  | secondary
  deriving DecidableEq, Repr

/-- One instruction with all its operand bytes assembled (30_encoding.md R92, R93, R95 to R99). -/
inductive Instr where
  /-- 0x00 `movi vD, imm16` (R121) -/
  | movi (d : Byte) (imm : Word)
  /-- 0x01 `mov vD, vS` (R122) -/
  | mov (d s : Byte)
  /-- 0x03 `addi vD, imm16` (R123) -/
  | addi (d : Byte) (imm : Word)
  /-- 0x04 `call addr16` (R131) -/
  | call (target : Word)
  /-- 0x05 `ret` (R133) -/
  | ret
  /-- 0x06 `pause` (R148) -/
  | pause
  /-- 0x07 `jmp addr16` (R135) -/
  | jmp (target : Word)
  /-- 0x08 `setvec tN, addr16` (R146) -/
  | setvec (t : Byte) (off : Word)
  /-- 0x09 `jnz vD, addr16` (R137) -/
  | jnz (d : Byte) (target : Word)
  /-- 0x0A `cond_jmp` with a variable as operand: `cc[7]` = 1 (R97, R139) -/
  | condJmpVar (cc a b : Byte) (target : Word)
  /-- 0x0A `cond_jmp` with a 16-bit immediate as operand: `cc[7:6]` = 01 (R97, R139) -/
  | condJmpImm16 (cc a : Byte) (imm target : Word)
  /-- 0x0A `cond_jmp` with an 8-bit immediate as operand: `cc[7:6]` = 00 (R97, R139) -/
  | condJmpImm8 (cc a imm : Byte) (target : Word)
  /-- 0x0B `setpal id`: the whole palette word, its low byte ignored (R163) -/
  | setpal (w : Word)
  /-- 0x0C `thrctl tFIRST, tLAST, mode` (R152) -/
  | thrctl (first last mode : Byte)
  /-- 0x0D `selpage page` (R165) -/
  | selpage (page : Byte)
  /-- 0x0E `fillpage page, colour` (R167) -/
  | fillpage (page colour : Byte)
  /-- 0x0F `copypage src, dst` (R172) -/
  | copypage (src dst : Byte)
  /-- 0x10 `blit page` (R176) -/
  | blit (page : Byte)
  /-- 0x11 `kill` (R150) -/
  | kill
  /-- 0x15 `ori vD, mask16` (R124) -/
  | ori (d : Byte) (mask : Word)
  /-- 0x19 `update id16` (R186) -/
  | update (id : Word)
  /-- 0x40 to 0x7F `spoly`: the halved record offset and the three fields (R198) -/
  | spoly (off : Word) (x : XField) (y : YField) (zoom : ZoomField)
  /-- 0x80 to 0xFF `bpoly`: the 15-bit halved record offset, x and y bytes (R196) -/
  | bpoly (off : BitVec 15) (x y : Byte)
  /-- one of the 45 illegal opcode bytes (R110) -/
  | illegal (op : Byte)
  deriving DecidableEq, Repr

end Sys2Proof
end

