-- ==== Sys2Proof/WellFormed.lean ====
section
/-! DEFINITION. Which terms of `Instr` an encoding stands for: the bits of the condition byte that pick the form of
`cond_jmp` (30_encoding.md R97) and the 45 illegal opcode bytes (R110). Every other field admits every value. -/

namespace Sys2Proof

/-- The 45 illegal opcode bytes: 0x02, 0x12, 0x13, 0x14, 0x16, 0x17, 0x18, 0x1A and 0x1B to 0x3F (R110). -/
def illegalOpcode (op : Byte) : Bool :=
  op = 0x02 || op = 0x12 || op = 0x13 || op = 0x14 || op = 0x16 || op = 0x17 || op = 0x18 || op = 0x1A
    || (0x1B ≤ op.toNat && op.toNat ≤ 0x3F)

/-- The term is one that an encoding can stand for. -/
def Instr.wellFormed : Instr → Bool
  | .condJmpVar cc _ _ _ => cc.getLsbD 7
  | .condJmpImm16 cc _ _ _ => !cc.getLsbD 7 && cc.getLsbD 6
  | .condJmpImm8 cc _ _ _ => !cc.getLsbD 7 && !cc.getLsbD 6
  | .illegal op => illegalOpcode op
  | .movi _ _ => true
  | .mov _ _ => true
  | .addi _ _ => true
  | .call _ => true
  | .ret => true
  | .pause => true
  | .jmp _ => true
  | .setvec _ _ => true
  | .jnz _ _ => true
  | .setpal _ => true
  | .thrctl _ _ _ => true
  | .selpage _ => true
  | .fillpage _ _ => true
  | .copypage _ _ => true
  | .blit _ => true
  | .kill => true
  | .ori _ _ => true
  | .update _ => true
  | .spoly _ _ _ _ => true
  | .bpoly _ _ _ => true

end Sys2Proof
end

