-- ==== Sys2Proof/Decode.lean ====
section
/-! DEFINITION. The decoder, total on any bytes, and after it the encoder (30_encoding.md R91 to R100, R110 to R112). -/

namespace Sys2Proof

/-- A 16-bit value of two fetched bytes, the first the more significant (20_memory.md R65, R66). -/
def bigEndian (h l : Byte) : Word := (h.setWidth 16 <<< 8) ||| l.setWidth 16

/-- The more significant byte of a word: `w[15:8]`. -/
def highByte (w : Word) : Byte := (w >>> 8).setWidth 8

/-- The less significant byte of a word: `w[7:0]`. -/
def lowByte (w : Word) : Byte := w.setWidth 8

/-- The 15-bit halved record offset of `bpoly`: opcode bits 6:0 over the byte after the opcode (R98). -/
def bpolyField (op lo : Byte) : BitVec 15 := (op.setWidth 15 <<< 8) ||| lo.setWidth 15

/-- A two-bit mode field of an opcode byte, from bit `lo` up (R99). -/
def modeBits (op : Byte) (lo : Nat) : BitVec 2 := (op >>> lo).setWidth 2

/-- What decoding a run of readable bytes answers. -/
inductive Decoded where
  /-- the instruction, and how many bytes it takes -/
  | instr (i : Instr) (len : Nat)
  /-- The fetch that starts `used` bytes after the opcode byte's offset runs off the readable bytes. `decremented` is
  the variable that `jnz` has already counted down by then (41_control_transfer.md R137): the one instruction with an
  effect between two of its fetches (30_encoding.md R93). -/
  | truncated (used : Nat) (decremented : Option Byte)
  deriving DecidableEq, Repr

/-- Format `B`: one operand byte (R92). -/
def decodeB (mk : Byte → Instr) : List Byte → Decoded
  | a :: _ => .instr (mk a) 2
  | [] => .truncated 1 none

/-- Format `BB`: two operand bytes (R92). -/
def decodeBB (mk : Byte → Byte → Instr) : List Byte → Decoded
  | a :: b :: _ => .instr (mk a b) 3
  | [_] => .truncated 2 none
  | [] => .truncated 1 none

/-- Format `BBB`: three operand bytes (R92). -/
def decodeBBB (mk : Byte → Byte → Byte → Instr) : List Byte → Decoded
  | a :: b :: c :: _ => .instr (mk a b c) 4
  | [_, _] => .truncated 3 none
  | [_] => .truncated 2 none
  | [] => .truncated 1 none

/-- Format `W`: one operand word; a word whose second byte is unreadable is not fetched at all (R92, 20_memory.md R69). -/
def decodeW (mk : Word → Instr) : List Byte → Decoded
  | h :: l :: _ => .instr (mk (bigEndian h l)) 3
  | _ => .truncated 1 none

/-- Format `BW`: an operand byte and an operand word (R92). `before` is what has happened to the variable store when
the word's fetch starts. -/
def decodeBW (mk : Byte → Word → Instr) (before : Byte → Option Byte) : List Byte → Decoded
  | a :: h :: l :: _ => .instr (mk a (bigEndian h l)) 4
  | a :: _ => .truncated 2 (before a)
  | [] => .truncated 1 none

/-- The target word of `cond_jmp`, which starts `used` bytes into the instruction (R92 format `C`). -/
def decodeTarget (mk : Word → Instr) (used : Nat) : List Byte → Decoded
  | h :: l :: _ => .instr (mk (bigEndian h l)) (used + 2)
  | _ => .truncated used none

/-- Format `C`: the condition byte's bits 7 and 6 pick the form, bit 7 first (R97, R139). -/
def decodeCond : List Byte → Decoded
  | [] => .truncated 1 none
  | [_] => .truncated 2 none
  | [_, _] => .truncated 3 none
  | cc :: a :: opd :: r =>
    if cc.getLsbD 7 then decodeTarget (.condJmpVar cc a opd) 4 r
    else if cc.getLsbD 6 then
      match r with
      | lo :: r' => decodeTarget (.condJmpImm16 cc a (bigEndian opd lo)) 5 r'
      | [] => .truncated 4 none
    else decodeTarget (.condJmpImm8 cc a opd) 4 r

/-- Format `PB` (R98): bits 6:0 of the opcode byte are the high part of the halved record offset. -/
def decodeBpoly (op : Byte) : List Byte → Decoded
  | lo :: x :: y :: _ => .instr (.bpoly (bpolyField op lo) x y) 4
  | [_, _] => .truncated 3 none
  | [_] => .truncated 2 none
  | [] => .truncated 1 none

/-- What is left after one field of `spoly`: the field, the bytes used so far, the bytes to come; or the offset of the
fetch that fails. -/
abbrev FieldResult (α : Type) := Except Nat (α × Nat × List Byte)

/-- The x field, by its mode (R99). Its two bytes in mode 00 are two byte fetches (45_polygon_draw.md R198). -/
def decodeX (mode : BitVec 2) (used : Nat) : List Byte → FieldResult XField
  | [] => .error used
  | b :: r =>
    match mode.toNat with
    | 0 => match r with
      | c :: r' => .ok (.imm16 (bigEndian b c), used + 2, r')
      | [] => .error (used + 1)
    | 1 => .ok (.var b, used + 1, r)
    | 2 => .ok (.imm8 b, used + 1, r)
    | _ => .ok (.imm8High b, used + 1, r)

/-- The y field, by its mode (R99). -/
def decodeY (mode : BitVec 2) (used : Nat) : List Byte → FieldResult YField
  | [] => .error used
  | b :: r =>
    match mode.toNat with
    | 0 => match r with
      | c :: r' => .ok (.imm16 (bigEndian b c), used + 2, r')
      | [] => .error (used + 1)
    | 1 => .ok (.var b, used + 1, r)
    | 2 => .ok (.imm8 b, used + 1, r)
    | _ => .ok (.imm8Alt b, used + 1, r)

/-- The zoom field, by its mode: modes 00 and 11 fetch no byte (R99). -/
def decodeZoom (mode : BitVec 2) (used : Nat) (r : List Byte) : FieldResult ZoomField :=
  match mode.toNat with
  | 0 => .ok (.default, used, r)
  | 3 => .ok (.secondary, used, r)
  | m => match r with
    | [] => .error used
    | b :: r' => .ok (if m = 1 then .var b else .imm8 b, used + 1, r')

/-- Format `PS`: the halved record offset, then the x, y and zoom fields in this order (R99). -/
def decodeSpoly (op : Byte) : List Byte → Decoded
  | h :: l :: r =>
    match decodeX (modeBits op 4) 3 r with
    | .error u => .truncated u none
    | .ok (x, u, r) =>
      match decodeY (modeBits op 2) u r with
      | .error u => .truncated u none
      | .ok (y, u, r) =>
        match decodeZoom (modeBits op 0) u r with
        | .error u => .truncated u none
        | .ok (z, u, _) => .instr (.spoly (bigEndian h l) x y z) u
  | _ => .truncated 1 none

/-- Opcode bytes 0x00 to 0x3F (R95); a byte that no row of the table holds is illegal (R110) and fetches no operand.
No row and no other byte is a `nop` (R114; `effectFree` in Safety says which operands leave an instruction no effect). -/
def decodeTable (op : Byte) (r : List Byte) : Decoded :=
  match op.toNat with
  | 0x00 => decodeBW .movi (fun _ => none) r
  | 0x01 => decodeBB .mov r
  | 0x03 => decodeBW .addi (fun _ => none) r
  | 0x04 => decodeW .call r
  | 0x05 => .instr .ret 1
  | 0x06 => .instr .pause 1
  | 0x07 => decodeW .jmp r
  | 0x08 => decodeBW .setvec (fun _ => none) r
  | 0x09 => decodeBW .jnz some r
  | 0x0A => decodeCond r
  | 0x0B => decodeW .setpal r
  | 0x0C => decodeBBB .thrctl r
  | 0x0D => decodeB .selpage r
  | 0x0E => decodeBB .fillpage r
  | 0x0F => decodeBB .copypage r
  | 0x10 => decodeB .blit r
  | 0x11 => .instr .kill 1
  | 0x15 => decodeBW .ori (fun _ => none) r
  | 0x19 => decodeW .update r
  | _ => .instr (.illegal op) 1

/-- The decoder (R94): bit 7 of the opcode byte is tested first, then bit 6, then the table. Each operand byte is one
`FetchByte`, each operand word one `FetchWord` (20_memory.md R71, R72), in the order of the format. -/
def decode : List Byte → Decoded
  | [] => .truncated 0 none
  | op :: r =>
    if op.getLsbD 7 then decodeBpoly op r
    else if op.getLsbD 6 then decodeSpoly op r
    else decodeTable op r

/-- The number of bytes of the longest instruction (R91). -/
def maxLength : Nat := 8

/-- The bytes of a number laid out as the opcode table numbers them: bits 7:0 are the first byte. -/
def bytesOfNat (w : Nat) : Nat → List Byte
  | 0 => []
  | n + 1 => BitVec.ofNat 8 w :: bytesOfNat (w / 256) n

/-- The bytes of an instruction whose table bits are `w`: the bits above `nbits` are zero, up to the longest
instruction. -/
def tableBytes (nbits w : Nat) : List Byte := bytesOfNat (w % 2 ^ nbits) maxLength

/-- The instruction the decoder reads from the table word `w` of `nbits` bits. -/
def decodeTableWord (nbits w : Nat) : Option Instr :=
  match decode (tableBytes nbits w) with
  | .instr i _ => some i
  | .truncated _ _ => none

/-! The encoder, from the same tables (30_encoding.md R92, R95 to R99). -/

/-- The x mode bits and bytes (R99). -/
def XField.encode : XField → BitVec 2 × List Byte
  | .imm16 w => (0, [highByte w, lowByte w])
  | .var i => (1, [i])
  | .imm8 b => (2, [b])
  | .imm8High b => (3, [b])

/-- The y mode bits and bytes (R99). -/
def YField.encode : YField → BitVec 2 × List Byte
  | .imm16 w => (0, [highByte w, lowByte w])
  | .var i => (1, [i])
  | .imm8 b => (2, [b])
  | .imm8Alt b => (3, [b])

/-- The zoom mode bits and bytes (R99). -/
def ZoomField.encode : ZoomField → BitVec 2 × List Byte
  | .default => (0, [])
  | .var i => (1, [i])
  | .imm8 b => (2, [b])
  | .secondary => (3, [])

/-- The opcode byte of `spoly`: 01, then the three mode fields (R99). -/
def spolyOpcode (xm ym zm : BitVec 2) : Byte :=
  (0x40 : Byte) ||| (xm.setWidth 8 <<< 4) ||| (ym.setWidth 8 <<< 2) ||| zm.setWidth 8

/-- The opcode byte of `bpoly`: bit 7 set, then bits 14:8 of the halved record offset (R98). -/
def bpolyOpcode (off : BitVec 15) : Byte := (0x80 : Byte) ||| (off >>> 8).setWidth 8

/-- The bytes of an instruction, the opcode byte first. -/
def encode : Instr → List Byte
  | .movi d imm => [0x00, d, highByte imm, lowByte imm]
  | .mov d s => [0x01, d, s]
  | .addi d imm => [0x03, d, highByte imm, lowByte imm]
  | .call t => [0x04, highByte t, lowByte t]
  | .ret => [0x05]
  | .pause => [0x06]
  | .jmp t => [0x07, highByte t, lowByte t]
  | .setvec t off => [0x08, t, highByte off, lowByte off]
  | .jnz d t => [0x09, d, highByte t, lowByte t]
  | .condJmpVar cc a b t => [0x0A, cc, a, b, highByte t, lowByte t]
  | .condJmpImm16 cc a imm t => [0x0A, cc, a, highByte imm, lowByte imm, highByte t, lowByte t]
  | .condJmpImm8 cc a imm t => [0x0A, cc, a, imm, highByte t, lowByte t]
  | .setpal w => [0x0B, highByte w, lowByte w]
  | .thrctl f l m => [0x0C, f, l, m]
  | .selpage p => [0x0D, p]
  | .fillpage p c => [0x0E, p, c]
  | .copypage s d => [0x0F, s, d]
  | .blit p => [0x10, p]
  | .kill => [0x11]
  | .ori d m => [0x15, d, highByte m, lowByte m]
  | .update id => [0x19, highByte id, lowByte id]
  | .spoly off x y z =>
    spolyOpcode x.encode.1 y.encode.1 z.encode.1 :: highByte off :: lowByte off ::
      (x.encode.2 ++ y.encode.2 ++ z.encode.2)
  | .bpoly off x y => [bpolyOpcode off, off.setWidth 8, x, y]
  | .illegal op => [op]

end Sys2Proof
end

