-- ==== Sys2Proof/Config.lean ====
section
/-! DEFINITION. What is fixed for a machine: the parameters of 00_scope.md R7 and R8, the free values of the spec
(opaque: nothing in Lean can evaluate one or prove a value of it), and the data a loader's answer is made of. The open
parameters `ARENA_SIZE` and `HIER_DEPTH_MAX` (R9) are read-only fields of State, so that every statement about every
state holds for every value of them (notes/assumptions/8.md, 9.md). -/

namespace Sys2Proof

/-- The four named segments of the arena (10_state.md R40, 20_memory.md R62). -/
inductive Segment where
  /-- instructions -/
  | bytecode
  /-- polygon records -/
  | cinematic
  /-- polygon records, selected by `spoly` with zoom mode 11 -/
  | secondary
  /-- 32 palette blocks of 32 bytes -/
  | palette
  deriving DecidableEq, Repr

/-- One segment register: the absolute arena address of the first byte, and how many bytes a segment-relative read may
reach (10_state.md R40). -/
structure Seg where
  base : Nat
  len : Nat
  deriving DecidableEq, Repr, Inhabited

/-- The four segment registers `SEG` (10_state.md R40). -/
structure SegTable where
  bytecode : Seg
  cinematic : Seg
  secondary : Seg
  palette : Seg
  deriving DecidableEq, Repr, Inhabited

/-- What `Host.load_memory_entry` did: whether the id resolved, and the bytes it wrote (70_reset_and_hazards.md R317). -/
structure LoadAnswer where
  ok : Bool
  writes : List Host.Cell
  deriving DecidableEq, Repr, Inhabited

/-- What `Host.setup_part` did: whether the id resolved, the new mapping, and the bytes it wrote
(70_reset_and_hazards.md R316). -/
structure SetupAnswer where
  ok : Bool
  segs : SegTable
  writes : List Host.Cell
  deriving DecidableEq, Repr, Inhabited

namespace Config

/-- `PAGE_W` (R8). -/
@[simp] abbrev pageW : Nat := 320
/-- `PAGE_H` (R8). -/
@[simp] abbrev pageH : Nat := 200
/-- `ROW_BYTES` = `PAGE_W / 2` (R8). -/
@[simp] abbrev rowBytes : Nat := 160
/-- `PAGE_BYTES` = `ROW_BYTES * PAGE_H` (R8). -/
@[simp] abbrev pageBytes : Nat := 32000
/-- `PC_INACTIVE` (R8). -/
@[simp] abbrev pcInactive : Word := 0xFFFF
/-- `REDIR_NONE` (R8). -/
@[simp] abbrev redirNone : Word := 0xFFFF
/-- `REDIR_DEACTIVATE` (R8). -/
@[simp] abbrev redirDeactivate : Word := 0xFFFE
/-- `REQ_PAL_NONE` (R8). -/
@[simp] abbrev reqPalNone : Byte := 0xFF
/-- `VAR_RANDOM_SEED` (R7). -/
@[simp] abbrev varRandomSeed : Byte := 0x3C
/-- `VAR_SCROLL_Y` (R8). -/
@[simp] abbrev varScrollY : Byte := 0xF9
/-- `VAR_PAUSE_SLICES` (R8). -/
@[simp] abbrev varPauseSlices : Byte := 0xFF
/-- `SLICE_MS` (R8). -/
@[simp] abbrev sliceMs : Int := 20
/-- `PART_ID_FIRST` (R8). -/
@[simp] abbrev partIdFirst : Word := 0x3E80
/-- `MAX_POINTS`, an exclusive bound (R7, 90_conflicts.md C5). -/
@[simp] abbrev maxPoints : Nat := 50
/-- `DEFAULT_ZOOM` (R7). -/
@[simp] abbrev defaultZoom : Word := 0x40
/-- `ZOOM_UNIT` (R7). -/
@[simp] abbrev zoomUnit : Nat := 64
/-- `PAGE_ALIAS2` (R7). -/
@[simp] abbrev pageAlias2 : Byte := 0xFE
/-- `PAGE_ALIAS3` (R7). -/
@[simp] abbrev pageAlias3 : Byte := 0xFF
/-- `POLY_DIRECT_MIN` (R7). -/
@[simp] abbrev polyDirectMin : Byte := 0xC0
/-- `POLY_HIER` (R7). -/
@[simp] abbrev polyHier : Byte := 2

/-- `SEED`, a free draw (R9, 70_reset_and_hazards.md R305). DESIGN CHOICE (safe: no value of it can be proved);
notes/assumptions/10.md. -/
opaque seed : Word

/-- `VAR_PRESET` at its default, the empty list (R9, 92_eei_decisions.md D8). DESIGN CHOICE (unsafe for statements
about `State.reset` alone); notes/assumptions/11.md. -/
def varPreset : List (Byte × Word) := []

/-- What `Host.get_timestamp()` answers as host call number n (10_state.md R44, 93_implementation_defined.md U21).
DESIGN CHOICE (safe); notes/assumptions/4.md. -/
opaque timestamp : Nat → Nat

/-- What `Host.load_memory_entry(id)` does as host call number n (10_state.md R44). DESIGN CHOICE (safe);
notes/assumptions/4.md. -/
opaque loadEntry : Nat → Word → LoadAnswer

/-- The bytes `Host.invalidate_resource()` writes as host call number n (70_reset_and_hazards.md R318). DESIGN CHOICE
(safe); notes/assumptions/4.md. -/
opaque invalidate : Nat → List Host.Cell

/-- What `Host.setup_part(id)` does as host call number n (70_reset_and_hazards.md R316). DESIGN CHOICE (safe);
notes/assumptions/4.md. -/
opaque setupPart : Nat → Word → SetupAnswer

end Config
end Sys2Proof
end

