-- ==== Sys2Proof/Machine/State.lean ====
section
/-! DEFINITION. The state of AWCORE as plain data (10_state.md R20 to R42), the reasons a step can end otherwise than in
a next state, and the machine right after reset (10_state.md R45, 70_reset_and_hazards.md R300). -/

namespace Sys2Proof.Machine

/-- A fatal fault with its diagnostic info (60_exceptions.md R266 to R273). It is a value of the register `FAULT`, not
an outcome of the Lean step: taking it is a next state (R275; notes/assumptions/2.md). -/
inductive FatalFault where
  /-- `STACK_OVERFLOW` (R266): `insn_pc` -/
  | stackOverflow (insnPc : Word)
  /-- `STACK_UNDERFLOW` (R267): `insn_pc` -/
  | stackUnderflow (insnPc : Word)
  /-- `BAD_VERTEX_COUNT` (R268): `insn_pc`, offset of the count byte, the count -/
  | badVertexCount (insnPc : Word) (off : Nat) (count : Byte)
  /-- `ILLEGAL_OPCODE` (R269): `insn_pc`, the opcode byte -/
  | illegalOpcode (insnPc : Word) (op : Byte)
  /-- `RESOURCE_ERROR` raised by `update` (R270 a): `insn_pc`, resource id -/
  | loadFailed (insnPc id : Word)
  /-- `RESOURCE_ERROR` raised by the part-switch step (R270 b): part id -/
  | setupFailed (id : Word)
  /-- `SEGMENT_BOUNDS` (R271): segment, offset -/
  | segmentBounds (seg : Segment) (off : Nat)
  /-- `INDEX_RANGE` raised by `setvec` (R272): `insn_pc`, thread id -/
  | threadId (insnPc : Word) (id : Byte)
  /-- `INDEX_RANGE` raised by `thrctl` (R272): `insn_pc`, first, masked last -/
  | threadRange (insnPc : Word) (first last : Byte)
  /-- `HIER_DEPTH` (R273): `insn_pc`, data pointer -/
  | hierDepth (insnPc : Word) (dp : Nat)
  deriving DecidableEq, Repr

/-- A soft condition with its diagnostic info (60_exceptions.md R286 to R289). -/
inductive SoftCondition where
  /-- `BAD_PAGE_ID` (R286): `insn_pc`, page id -/
  | badPageId (insnPc : Word) (id : Byte)
  /-- `BAD_PALETTE_ID` (R287): `insn_pc`, palette id -/
  | badPaletteId (insnPc : Word) (id : Byte)
  /-- `BAD_POLY_DISCRIMINATOR` (R288): `insn_pc`, offset of the byte, masked value -/
  | badPolyDiscriminator (insnPc : Word) (off : Nat) (value : Byte)
  /-- `BAD_COMPARATOR` (R289): `insn_pc`, condition byte -/
  | badComparator (insnPc : Word) (cc : Byte)
  deriving DecidableEq, Repr

/-- The kind, code and info of a log record (60_exceptions.md R275, R285). -/
inductive Diagnostic where
  | fatal (f : FatalFault)
  | soft (c : SoftCondition)
  deriving DecidableEq, Repr

/-- One record of `LOG`, with the `insn_pc` and thread that 92_eei_decisions.md D30 adds (notes/assumptions/18.md). -/
structure LogRecord where
  what : Diagnostic
  insnPc : Word
  thread : Fin 64
  deriving DecidableEq, Repr

/-- One row of a page: 160 bytes, two pixels each (10_state.md R34). -/
abbrev Row := Vector Byte 160

/-- One video page: byte i of the spec's page array is byte i mod 160 of row i / 160 (10_state.md R34;
notes/assumptions/19.md). -/
abbrev Page := Vector Row 200

/-- The arena's contents: the listed (address, byte) pairs (20_memory.md R61). -/
abbrev Memory := List Host.Cell

/-- One call of an external collaborator with its arguments (70_reset_and_hazards.md R315 to R321). -/
inductive HostCall where
  | setupPart (id : Word)
  | loadMemoryEntry (id : Word)
  | invalidateResource
  | getTimestamp
  | sleep (ms : Nat)
  | setPalette (bytes : Vector Byte 32)
  | present (page : Page)
  deriving DecidableEq, Repr

/-- Which of the finer steps of 47_scheduler.md R248 comes next. The model's own field; DESIGN CHOICE (safe),
notes/assumptions/1.md. -/
inductive Phase where
  /-- the top of a frame: `RunFrame` is invoked, the part-switch step comes (R246, R249) -/
  | frameTop
  /-- the commit comes (R251) -/
  | commit
  /-- the frame's loop looks for the next thread to run, from id `next` on (R246) -/
  | select (next : Nat)
  /-- the slice of thread `CUR_THR` is in progress (R254) -/
  | slice
  deriving DecidableEq, Repr

/-- The complete state of the machine (10_state.md R20), the read-only parameters of 00_scope.md R9, and the model's
own fields. -/
structure State where
  /-- `V` (R21) -/
  v : Vector Word 256
  /-- `THR_PC` (R24) -/
  thrPc : Vector Word 64
  /-- `REDIR` (R24) -/
  redir : Vector Word 64
  /-- `PAUSED_CUR` (R24, R25) -/
  pausedCur : Vector Bool 64
  /-- `PAUSED_REQ` (R24, R25) -/
  pausedReq : Vector Bool 64
  /-- `CUR_THR` (R26) -/
  curThr : Fin 64
  /-- `pc` (R27) -/
  pc : Word
  /-- `insn_pc` (R29) -/
  insnPc : Word
  /-- `YIELD` (R31) -/
  yield : Bool
  /-- `STACK` (R32) -/
  stack : Vector Word 255
  /-- `SP` (R32) -/
  sp : Byte
  /-- `PAGE` (R34) -/
  pages : Vector Page 4
  /-- `PTR1`, the draw target (R36) -/
  ptr1 : Fin 4
  /-- `PTR2`, what page id 0xFE resolves to (R36) -/
  ptr2 : Fin 4
  /-- `PTR3`, what page id 0xFF resolves to (R36) -/
  ptr3 : Fin 4
  /-- `REQ_PAL` (R37) -/
  reqPal : Byte
  /-- `CUR_PAL` (R37) -/
  curPal : Vector Byte 32
  /-- `LAST_TS`, milliseconds (R39) -/
  lastTs : Nat
  /-- `REQ_PART` (R38) -/
  reqPart : Word
  /-- `SEG` (R40) -/
  seg : SegTable
  /-- `MEM` (R41) -/
  mem : Memory
  /-- `FAULT` (R42) -/
  fault : Option FatalFault
  /-- `LOG` (R42) -/
  log : List LogRecord
  /-- the parameter `ARENA_SIZE` (00_scope.md R9), read-only; notes/assumptions/8.md -/
  arenaSize : Nat
  /-- the parameter `HIER_DEPTH_MAX` (00_scope.md R9), read-only; notes/assumptions/9.md -/
  hierDepthMax : Nat
  /-- the model's own: which finer step comes next (47_scheduler.md R248); notes/assumptions/1.md -/
  phase : Phase
  /-- the model's own: how many host calls have been made, the argument of the opaque answers; notes/assumptions/5.md -/
  hostTick : Nat
  /-- the model's own: the observable sequence of host calls (70_reset_and_hazards.md R321); notes/assumptions/5.md -/
  calls : List HostCall
  deriving DecidableEq, Repr

/-- Why a step stops with a fault. The spec's own fatal faults are next states and stand in `FAULT`. -/
inductive Fault where
  /-- Raised by the step, before an instruction is fetched, when the bytecode segment is longer than 0xFFFF bytes, so
  that `pc` could pass 0xFFFF: 10_state.md R28 and 70_reset_and_hazards.md R316 rule such a mapping out and give the
  machine no move in it. Safe: no state that a host within its contract leads to raises it. notes/assumptions/3.md -/
  | bytecodeTooLong
  deriving DecidableEq, Repr

/-- Why a step is refused. -/
inductive Refusal where
  /-- Raised by an arm of `exec` whose instruction has no meaning yet; no arm does. Safe. -/
  | notModelled (mnemonic : String)
  /-- Raised by the part-switch step when `Host.setup_part` reports success with a mapping that breaks
  70_reset_and_hazards.md R316 (93_implementation_defined.md U23: refuse). Safe. notes/assumptions/3.md -/
  | hostOutsideContract
  deriving DecidableEq, Repr

/-- What is supplied from outside before reset is released (70_reset_and_hazards.md R301, R305; 00_scope.md R9): the
draw of `SEED`, the parameters, and the loader's first mapping. -/
structure Boot where
  seed : Word
  preset : List (Byte × Word)
  arenaSize : Nat
  hierDepthMax : Nat
  seg : SegTable
  mem : Memory
  deriving DecidableEq, Repr

/-- The machine right after reset, for every boot (10_state.md R45, 70_reset_and_hazards.md R300). DESIGN CHOICE where the
spec does not say which value holds (notes/assumptions/11.md): the pairs of `VAR_PRESET` are applied in list order, so
that of two pairs with one index the later stands, and `V[0x3C]` is seeded after them. The values R45 leaves unspecified are DESIGN CHOICES (notes/assumptions/12.md to 15.md). -/
def State.resetWith (b : Boot) : State where
  v := (b.preset.foldl (fun v p => v.set p.1.toNat p.2 p.1.isLt) (Vector.replicate 256 0)).set 0x3C b.seed
  thrPc := (Vector.replicate 64 Config.pcInactive).set 0 0
  redir := Vector.replicate 64 Config.redirNone
  pausedCur := Vector.replicate 64 false
  pausedReq := Vector.replicate 64 false
  curThr := 0
  pc := 0
  insnPc := 0
  yield := false
  stack := Vector.replicate 255 0
  sp := 0
  pages := Vector.replicate 4 (Vector.replicate 200 (Vector.replicate 160 0))
  ptr1 := 2
  ptr2 := 2
  ptr3 := 1
  reqPal := Config.reqPalNone
  curPal := Vector.replicate 32 0
  lastTs := 0
  reqPart := 0
  seg := b.seg
  mem := b.mem
  fault := none
  log := []
  arenaSize := b.arenaSize
  hierDepthMax := b.hierDepthMax
  phase := .frameTop
  hostTick := 0
  calls := []

/-- The boot with nothing placed: no segment mapped, no byte loaded, `SEED` opaque. DESIGN CHOICE (unsafe for statements
about `State.reset` alone); notes/assumptions/8.md to 11.md, 15.md. -/
def Boot.bare : Boot where
  seed := Config.seed
  preset := Config.varPreset
  arenaSize := 1048576
  hierDepthMax := 16
  seg := ⟨⟨0, 0⟩, ⟨0, 0⟩, ⟨0, 0⟩, ⟨0, 0⟩⟩
  mem := []

/-- The machine right after reset, with nothing placed by a loader. -/
def State.reset : State := State.resetWith Boot.bare

end Sys2Proof.Machine
end

