-- ==== Sys2Proof/Machine/Ops.lean ====
section
/-! DEFINITION. The named operations over memory, registers and the host interface, and taking a fatal fault as one
shared operation. There is no return from a fault (60_exceptions.md R277). -/

namespace Sys2Proof.Machine

/-- What a step or a meaning answers. -/
abbrev StepResult := Host.Outcome State Fault Refusal

/-! ## The arena (20_memory.md) -/

/-- What an arena address that is not listed reads as. The spec gives the arena no contents of its own (10_state.md
R41): DESIGN CHOICE, notes/assumptions/16.md. -/
def Memory.unlisted : Byte := 0

/-- The byte at an absolute arena address: `MEM[addr]` (20_memory.md R66). -/
def Memory.read : Memory → Nat → Byte
  | [], _ => Memory.unlisted
  | (b, y) :: r, a => if a = b then y else Memory.read r a

/-- One byte written by the loader (20_memory.md R64); the canonical form is kept. -/
def Memory.write : Memory → Nat → Byte → Memory
  | [], a, x => if x = Memory.unlisted then [] else [(a, x)]
  | (b, y) :: r, a, x =>
    if a < b then (if x = Memory.unlisted then (b, y) :: r else (a, x) :: (b, y) :: r)
    else if a = b then (if x = Memory.unlisted then r else (a, x) :: r)
    else (b, y) :: Memory.write r a x

/-- From address `lo` on, the addresses rise strictly and no entry equals what an unlisted address reads as. -/
def Memory.wfFrom : Nat → Memory → Bool
  | _, [] => true
  | lo, (a, x) :: r => decide (lo ≤ a) && decide (x ≠ Memory.unlisted) && Memory.wfFrom (a + 1) r

/-- The canonical form of the arena's contents. -/
def Memory.wf (m : Memory) : Bool := Memory.wfFrom 0 m

/-- The loader's writes, those of them that its call allows (70_reset_and_hazards.md R316 to R318, R322;
notes/assumptions/6.md). -/
def loaderWrites (allowed : Nat → Bool) (ws : List Host.Cell) (m : Memory) : Memory :=
  ws.foldl (fun m c => if allowed c.1 then m.write c.1 c.2 else m) m

/-- One of the four segment registers (10_state.md R40). -/
def segOf (t : SegTable) : Segment → Seg
  | .bytecode => t.bytecode
  | .cinematic => t.cinematic
  | .secondary => t.secondary
  | .palette => t.palette

/-- The absolute address lies inside the segment. -/
def Seg.covers (g : Seg) (a : Nat) : Bool := decide (g.base ≤ a) && decide (a < g.base + g.len)

/-- An arena address outside the four current segments: where `load_memory_entry` and `invalidate_resource` may write
(70_reset_and_hazards.md R317, R318). -/
def outsideSegments (arenaSize : Nat) (t : SegTable) (a : Nat) : Bool :=
  decide (a < arenaSize) && !Seg.covers t.bytecode a && !Seg.covers t.cinematic a && !Seg.covers t.secondary a
    && !Seg.covers t.palette a

/-- What `Host.setup_part` guarantees of a mapping it answers with ok (70_reset_and_hazards.md R316). -/
def legalMapping (arenaSize : Nat) (t : SegTable) : Bool :=
  decide (t.bytecode.base + t.bytecode.len ≤ arenaSize) && decide (t.cinematic.base + t.cinematic.len ≤ arenaSize)
    && decide (t.secondary.base + t.secondary.len ≤ arenaSize) && decide (t.palette.base + t.palette.len ≤ arenaSize)
    && decide (t.bytecode.len ≤ 0xFFFF)

/-! ## Fatal faults and soft conditions (60_exceptions.md) -/

/-- The code of a fatal fault (R266 to R273). -/
def FatalFault.code : FatalFault → Nat
  | .stackOverflow _ => 1
  | .stackUnderflow _ => 2
  | .badVertexCount _ _ _ => 3
  | .illegalOpcode _ _ => 4
  | .loadFailed _ _ => 5
  | .setupFailed _ => 5
  | .segmentBounds _ _ => 6
  | .threadId _ _ => 7
  | .threadRange _ _ _ => 7
  | .hierDepth _ _ => 8

/-- The code of a soft condition (R286 to R289). -/
def SoftCondition.code : SoftCondition → Nat
  | .badPageId _ _ => 16
  | .badPaletteId _ _ => 17
  | .badPolyDiscriminator _ _ _ => 18
  | .badComparator _ _ => 19

/-- `raise Fatal(code, info)` (R275): a record is appended to `LOG` and `FAULT` is written. The rest of the
instruction is not executed because the operations below answer `Except.error` with this state. -/
def raise (s : State) (f : FatalFault) : State :=
  { s with fault := some f, log := s.log ++ [⟨.fatal f, s.insnPc, s.curThr⟩] }

/-- `log Soft(code, info)` (R285): a record is appended to `LOG`, nothing else. -/
def logSoft (s : State) (c : SoftCondition) : State :=
  { s with log := s.log ++ [⟨.soft c, s.insnPc, s.curThr⟩] }

/-- The instruction is over, whether it completed or took a fatal fault: either way in a next state (R275, R276;
notes/assumptions/2.md). -/
def settle : Except State State → StepResult
  | .ok s => .next s
  | .error s => .next s

/-! ## Segment-relative reads (20_memory.md R66 to R73) -/

/-- `SegRead8(s, off)` (R68): the byte, or the state in which `SEGMENT_BOUNDS` has been taken. -/
def segRead8 (s : State) (g : Segment) (off : Nat) : Except State Byte :=
  if (segOf s.seg g).len ≤ off ∨ s.arenaSize ≤ (segOf s.seg g).base + off then
    .error (raise s (.segmentBounds g off))
  else .ok (s.mem.read ((segOf s.seg g).base + off))

/-- `SegRead16(s, off)` (R69): a word of which either byte is out of bounds faults whole. -/
def segRead16 (s : State) (g : Segment) (off : Nat) : Except State Word :=
  if (segOf s.seg g).len ≤ off + 1 ∨ s.arenaSize ≤ (segOf s.seg g).base + off + 1 then
    .error (raise s (.segmentBounds g off))
  else .ok (bigEndian (s.mem.read ((segOf s.seg g).base + off)) (s.mem.read ((segOf s.seg g).base + off + 1)))

/-- The readable bytes of a segment from an offset on, at most `n` of them: what a run of `FetchByte` would return
before the first that faults (R68, R71). -/
def window (s : State) (g : Segment) : Nat → Nat → List Byte
  | _, 0 => []
  | off, n + 1 =>
    match segRead8 s g off with
    | .ok b => b :: window s g (off + 1) n
    | .error _ => []

/-! ## Registers -/

/-- `v[i]` (10_state.md R21). -/
def getVar (s : State) (i : Byte) : Word := s.v[i.toNat]'i.isLt

/-- `v[i] <- x` (10_state.md R21). -/
def setVar (s : State) (i : Byte) (x : Word) : State := { s with v := s.v.set i.toNat x i.isLt }

/-- `pc <- target` (41_control_transfer.md R130): the target is not checked. -/
def jumpTo (s : State) (target : Word) : State := { s with pc := target }

/-- The fetch of an instruction of `n` bytes: `insn_pc` latches where the opcode byte was fetched, `pc` passes every
byte fetched (10_state.md R28, R29). -/
def fetched (s : State) (n : Nat) : State := { s with insnPc := s.pc, pc := s.pc + BitVec.ofNat 16 n }

/-- A fetch that runs off the bytecode segment `used` bytes after the opcode byte's offset: `pc` has passed the bytes
fetched before it, `jnz` has already counted its variable down, and `SEGMENT_BOUNDS` is taken (20_memory.md R71, R72;
60_exceptions.md R271, R276). -/
def fetchFault (s : State) (used : Nat) (decremented : Option Byte) : State :=
  let s1 := fetched s used
  let s2 := match decremented with
    | some d => setVar s1 d (getVar s1 d - 1)
    | none => s1
  raise s2 (.segmentBounds .bytecode (s.pc.toNat + used))

/-! ## The host interface (70_reset_and_hazards.md R315 to R321) -/

/-- A call that returns nothing the core uses: it is an output (R320, R321). -/
def output (s : State) (c : HostCall) : State := { s with calls := s.calls ++ [c] }

/-- A call whose answer is a free value: the next one is drawn with the next `hostTick` (notes/assumptions/4.md). -/
def ask (s : State) (c : HostCall) : State := { s with calls := s.calls ++ [c], hostTick := s.hostTick + 1 }

end Sys2Proof.Machine
end

