-- ==== Sys2Proof/Machine/Flags.lean ====
section
/-! DEFINITION. The hardware has no status flags (10_state.md R30). The one comparison is that of `cond_jmp`
(41_control_transfer.md R140), and its result goes nowhere but into the branch. -/

namespace Sys2Proof.Machine

/-- The comparator field of a condition byte, `cc[2:0]` (30_encoding.md R97). -/
def comparator (cc : Byte) : Nat := (cc.setWidth 3).toNat

/-- `Compare(cmp, b, a)`, `b` the variable and `a` the operand, compared as signed integers; 6 and 7 are false
(41_control_transfer.md R140). -/
def compareSigned (cmp : Nat) (b a : Word) : Bool :=
  match cmp with
  | 0 => b = a
  | 1 => b ≠ a
  | 2 => a.toInt < b.toInt
  | 3 => a.toInt ≤ b.toInt
  | 4 => b.toInt < a.toInt
  | 5 => b.toInt ≤ a.toInt
  | _ => false

end Sys2Proof.Machine
end

