-- ==== Sys2Proof/Machine/Page.lean ====
section
/-! DEFINITION. Operations over the video pages: bytes, pixels, a fill and a scrolled copy (10_state.md R34, R35;
43_video_page.md R167, R172). -/

namespace Sys2Proof.Machine

/-- Byte `i` of a page, `PAGE[p][i]`; outside the page 0, which no rule reads (10_state.md R34). -/
def Page.byte (p : Page) (i : Nat) : Byte :=
  if h : i < 32000 then (p[i / 160]'(by omega))[i % 160]'(by omega) else 0

/-- The half of a byte that holds column `x`: the high nibble for an even column (10_state.md R34). -/
def nibble (b : Byte) (x : Nat) : BitVec 4 := if x % 2 = 0 then (b >>> 4).setWidth 4 else b.setWidth 4

/-- A byte with the nibble of column `x` replaced and the other left as it was (10_state.md R35). -/
def setNibble (b : Byte) (x : Nat) (c : BitVec 4) : Byte :=
  if x % 2 = 0 then (c.setWidth 8 <<< 4) ||| (b &&& 0x0F) else (b &&& 0xF0) ||| c.setWidth 8

/-- `PixelRead` on one page (10_state.md R35); off the page 0, where no rule reads. -/
def Page.pixel (p : Page) (x y : Nat) : BitVec 4 :=
  if h : x < 320 ∧ y < 200 then nibble ((p[y]'h.2)[x / 2]'(by omega)) x else 0

/-- `PixelWrite` on one page (10_state.md R35); off the page nothing, where no rule writes. -/
def Page.setPixel (p : Page) (x y : Nat) (c : BitVec 4) : Page :=
  if h : x < 320 ∧ y < 200 then
    p.set y ((p[y]'h.2).set (x / 2) (setNibble ((p[y]'h.2)[x / 2]'(by omega)) x c) (by omega)) h.2
  else p

/-- The byte a fill stores: `((c << 4) | c) & 0xFF` (43_video_page.md R167). -/
def fillByte (c : Byte) : Byte := (c <<< 4) ||| c

/-- A page every byte of which is `b` (43_video_page.md R167). -/
def Page.filled (b : Byte) : Page := Vector.replicate 200 (Vector.replicate 160 b)

/-- The destination page after a copy with vertical scroll `dy`: destination row y receives source row y - dy where
that is a row, and keeps its old content where it is not (43_video_page.md R172). -/
def Page.scrolled (src dst : Page) (dy : Int) : Page :=
  Vector.ofFn fun y =>
    if h : 0 ≤ (y.val : Int) - dy ∧ (y.val : Int) - dy < 200 then
      src[((y.val : Int) - dy).toNat]'(by omega)
    else dst[y]

end Sys2Proof.Machine
end

