-- ==== Sys2Proof/Machine/Operands.lean ====
section
/-! DEFINITION. Every operand form: page ids (43_video_page.md R161), the three sources of `cond_jmp`'s operand
(30_encoding.md R97), and the fields of the polygon instructions (30_encoding.md R98, R99; 45_polygon_draw.md R196,
R198). -/

namespace Sys2Proof.Machine

/-- A byte zero-extended to 16 bits: `zext_16` (00_scope.md R11). -/
def zext16 (b : Byte) : Word := b.setWidth 16

/-- `ResolvePage(id)` (43_video_page.md R161): the page number, and the state with `BAD_PAGE_ID` logged where the id
is invalid. -/
def resolvePage (s : State) (id : Byte) : Fin 4 × State :=
  if h : id.toNat < 4 then (⟨id.toNat, h⟩, s)
  else if id = Config.pageAlias2 then (s.ptr2, s)
  else if id = Config.pageAlias3 then (s.ptr3, s)
  else (0, logSoft s (.badPageId s.insnPc id))

/-- `Compare` and the branch of `cond_jmp`: an invalid comparator is logged and does not jump
(41_control_transfer.md R139, R140). -/
def condJump (s : State) (cc : Byte) (b a target : Word) : State :=
  let s1 := if comparator cc < 6 then s else logSoft s (.badComparator s.insnPc cc)
  if compareSigned (comparator cc) b a then jumpTo s1 target else s1

/-- The value of an x field (30_encoding.md R99). -/
def xValue (s : State) : XField → Word
  | .imm16 w => w
  | .var i => getVar s i
  | .imm8 b => zext16 b
  | .imm8High b => zext16 b + 0x100

/-- The value of a y field (30_encoding.md R99). -/
def yValue (s : State) : YField → Word
  | .imm16 w => w
  | .var i => getVar s i
  | .imm8 b => zext16 b
  | .imm8Alt b => zext16 b

/-- The zoom of a zoom field, read as unsigned (30_encoding.md R99). -/
def zoomValue (s : State) : ZoomField → Word
  | .default => Config.defaultZoom
  | .var i => getVar s i
  | .imm8 b => zext16 b
  | .secondary => Config.defaultZoom

/-- The polygon segment a zoom field selects (30_encoding.md R99). -/
def zoomSegment : ZoomField → Segment
  | .default => .cinematic
  | .var _ => .cinematic
  | .imm8 _ => .cinematic
  | .secondary => .secondary

/-- The record offset of `spoly`: the halved offset doubled, modulo 65536 (45_polygon_draw.md R198). -/
def spolyOffset (off : Word) : Nat := (off.toNat * 2) % 65536

/-- The record offset of `bpoly`: twice the 15-bit halved offset (30_encoding.md R98). -/
def bpolyOffset (off : BitVec 15) : Nat := off.toNat * 2

/-- The x coordinate of `bpoly`: the excess of the y byte over 199 is added (45_polygon_draw.md R196). -/
def bpolyX (x y : Byte) : Word := zext16 x + BitVec.ofNat 16 (y.toNat - 199)

/-- The y coordinate of `bpoly`: at most 199 (45_polygon_draw.md R196). -/
def bpolyY (y : Byte) : Word := if 199 < y.toNat then 199 else zext16 y

end Sys2Proof.Machine
end

