-- ==== Sys2Proof/Machine/Alu.lean ====
section
/-! DEFINITION. Data movement and ALU: `movi`, `mov`, `addi`, `ori` (40_data_alu.md). In every meaning `pc` already
points past the instruction's operands. -/

namespace Sys2Proof.Machine

/-- `movi vD, imm16` (R121). -/
def execMovi (d : Byte) (imm : Word) (s : State) : StepResult := .next (setVar s d imm)

/-- `mov vD, vS` (R122). -/
def execMov (d src : Byte) (s : State) : StepResult := .next (setVar s d (getVar s src))

/-- `addi vD, imm16` (R123): the sum modulo 65536. -/
def execAddi (d : Byte) (imm : Word) (s : State) : StepResult := .next (setVar s d (getVar s d + imm))

/-- `ori vD, mask16` (R124). -/
def execOri (d : Byte) (mask : Word) (s : State) : StepResult := .next (setVar s d (getVar s d ||| mask))

end Sys2Proof.Machine
end

