-- ==== Sys2Proof/Machine/Control.lean ====
section
/-! DEFINITION. Control transfer: `call`, `ret`, `jmp`, `jnz`, the three forms of `cond_jmp` (41_control_transfer.md),
and the illegal opcode bytes (30_encoding.md R110). -/

namespace Sys2Proof.Machine

/-- `call addr16` (R131): the offset after the instruction is pushed; with 255 entries held, `STACK_OVERFLOW` (R266). -/
def execCall (target : Word) (s : State) : StepResult :=
  if h : s.sp.toNat < 255 then
    .next { s with stack := s.stack.set s.sp.toNat s.pc h, sp := s.sp + 1, pc := target }
  else .next (raise s (.stackOverflow s.insnPc))

/-- `ret` (R133): the last entry is popped; with none held, `STACK_UNDERFLOW` (R267). -/
def execRet (s : State) : StepResult :=
  if h : s.sp.toNat = 0 then .next (raise s (.stackUnderflow s.insnPc))
  else
    .next { s with sp := s.sp - 1, pc := s.stack[s.sp.toNat - 1]'(by have := s.sp.isLt; omega) }

/-- `jmp addr16` (R135). -/
def execJmp (target : Word) (s : State) : StepResult := .next (jumpTo s target)

/-- `jnz vD, addr16` (R137): the variable is counted down, wrapping; a nonzero result jumps. -/
def execJnz (d : Byte) (target : Word) (s : State) : StepResult :=
  let x := getVar s d - 1
  .next (if x ≠ 0 then jumpTo (setVar s d x) target else setVar s d x)

/-- `cond_jmp` with a variable as operand (R139). -/
def execCondJmpVar (cc a b : Byte) (target : Word) (s : State) : StepResult :=
  .next (condJump s cc (getVar s a) (getVar s b) target)

/-- `cond_jmp` with a 16-bit immediate as operand (R139). -/
def execCondJmpImm16 (cc a : Byte) (imm target : Word) (s : State) : StepResult :=
  .next (condJump s cc (getVar s a) imm target)

/-- `cond_jmp` with an 8-bit immediate, zero-extended, as operand (R139). -/
def execCondJmpImm8 (cc a imm : Byte) (target : Word) (s : State) : StepResult :=
  .next (condJump s cc (getVar s a) (zext16 imm) target)

/-- An illegal opcode byte: `ILLEGAL_OPCODE`, no operand fetched (30_encoding.md R110, 60_exceptions.md R269). -/
def execIllegal (op : Byte) (s : State) : StepResult := .next (raise s (.illegalOpcode s.insnPc op))

end Sys2Proof.Machine
end

