-- ==== Sys2Proof/Machine/Raster.lean ====
section
/-! DEFINITION. The polygon rasterizer: vertex parser, scan converter, fill, hierarchy walk (46_polygon_rasterizer.md).
The fill is a function of the pages and the draw target alone (R235). -/

namespace Sys2Proof.Machine

/-! ## Polygon data (20_memory.md R73) -/

/-- `PolyByte()`: the byte at the data pointer, and the pointer after it. -/
def polyByte (s : State) (g : Segment) (dp : Nat) : Except State (Byte × Nat) :=
  match segRead8 s g dp with
  | .ok b => .ok (b, dp + 1)
  | .error e => .error e

/-- `PolyWord()`: the word at the data pointer, and the pointer after it. -/
def polyWord (s : State) (g : Segment) (dp : Nat) : Except State (Word × Nat) :=
  match segRead16 s g dp with
  | .ok w => .ok (w, dp + 2)
  | .error e => .error e

/-- `Scale(b, zoom)` (R214). -/
def scale (b : Byte) (zoom : Word) : Word := BitVec.ofNat 16 (b.toNat * zoom.toNat / Config.zoomUnit)

/-- A point of the polygon buffer, two `s16` (10_state.md R43). -/
abbrev Point := Word × Word

/-- The polygon buffer (10_state.md R43): the scaled bounding box and the points in stored order. -/
structure Polygon where
  bbw : Word
  bbh : Word
  pts : List Point
  deriving DecidableEq, Repr

/-- The points of a record, `n` of them to come, scaled (R215). -/
def readPoints (s : State) (g : Segment) (zoom : Word) : Nat → Nat → Except State (List Point)
  | _, 0 => .ok []
  | dp, n + 1 => do
    let (bx, dp) ← polyByte s g dp
    let (yb, dp) ← polyByte s g dp
    let r ← readPoints s g zoom dp n
    return (scale bx zoom, scale yb zoom) :: r

/-- `ReadVertices(zoom)` (R215): a count that is odd or not below 50 is `BAD_VERTEX_COUNT` (R268). -/
def readVertices (s : State) (g : Segment) (zoom : Word) (dp : Nat) : Except State Polygon := do
  let (w, dp) ← polyByte s g dp
  let (h, dp) ← polyByte s g dp
  let (n, dp) ← polyByte s g dp
  if n.toNat % 2 = 1 ∨ Config.maxPoints ≤ n.toNat then
    .error (raise s (.badVertexCount s.insnPc (dp - 1) n))
  else
    let pts ← readPoints s g zoom dp n.toNat
    return { bbw := scale w zoom, bbh := scale h zoom, pts := pts }

/-! ## Fill (R217 to R227) -/

/-- The four video pages. -/
abbrev Pages := Vector Page 4

/-- `PutPixel(x, y, colour)` on the draw target `dst` (R226): below 0x10 solid, 0x10 sets bit 3 of the colour there,
above 0x10 copies from page 0. -/
def putPixel (pages : Pages) (dst : Fin 4) (x y : Nat) (colour : Byte) : Pages :=
  let c : BitVec 4 :=
    if colour.toNat < 0x10 then colour.setWidth 4
    else if colour.toNat = 0x10 then pages[dst].pixel x y ||| 8
    else pages[(0 : Fin 4)].pixel x y
  pages.set dst.val (pages[dst].setPixel x y c)

/-- `n` pixels of a row from column `x` on, left to right. -/
def putRun (pages : Pages) (dst : Fin 4) (x y : Nat) (colour : Byte) : Nat → Pages
  | 0 => pages
  | n + 1 => putRun (putPixel pages dst x y colour) dst (x + 1) y colour n

/-- `Span(row, x1, x2, colour)` (R225): dropped whole when `x1` is beyond the right edge or `x2` beyond the left,
otherwise truncated to the page; both ends are painted. -/
def span (pages : Pages) (dst : Fin 4) (row : Nat) (x1 x2 : Int) (colour : Byte) : Pages :=
  if x1 ≤ 319 ∧ 0 ≤ x2 then
    let a := if x1 < 0 then 0 else x1
    let b := if x2 > 319 then 319 else x2
    putRun pages dst (min a b).toNat row colour ((max a b).toNat - (min a b).toNat + 1)
  else pages

/-- `DrawPoint(colour, x, y)` (R227). -/
def drawPoint (pages : Pages) (dst : Fin 4) (x y : Int) (colour : Byte) : Pages :=
  if 0 ≤ x ∧ x ≤ 319 ∧ 0 ≤ y ∧ y ≤ 199 then putPixel pages dst x.toNat y.toNat colour else pages

/-- `Interp(d)` (R223). -/
def interp (d : Word) : Nat := if d.toNat = 0 then 0x4000 else 0x4000 / d.toNat

/-- One step of an edge from point `p` to point `q`: `s32((q.x - p.x) * Interp(d) * 4)` for the wrapped row difference
`d` (R221, R223, R224). -/
def edgeStep (p q : Point) : Acc :=
  BitVec.ofInt 32 ((q.1.toInt - p.1.toInt) * (interp (q.2 - p.2) : Int) * 4)

/-- The x coordinate an accumulator stands for: `s16(acc >> 16)` (R221, R224). -/
def accX (c : Acc) : Int := ((c >>> 16).setWidth 16).toInt

/-- What the edge walk carries from row to row (10_state.md R43). -/
structure Walk where
  pages : Pages
  row : Int
  cl : Acc
  cr : Acc
  deriving DecidableEq, Repr

/-- The rows of one segment pair (R221): `true` in the answer when the walk has passed the bottom of the page. -/
def walkRows (dst : Fin 4) (colour : Byte) (stepl stepr : Acc) : Nat → Walk → Walk × Bool
  | 0, w => (w, false)
  | n + 1, w =>
    let pages := if 0 ≤ w.row then span w.pages dst w.row.toNat (accX w.cl) (accX w.cr) colour else w.pages
    let w' : Walk := { pages := pages, row := w.row + 1, cl := w.cl + stepl, cr := w.cr + stepr }
    if 199 < w'.row then (w', true) else walkRows dst colour stepl stepr n w'

/-- The loop of `EdgeWalk` (R221). A pair holds a point of the first edge and the point of the second edge on the same
row; `here` is the pair the walk stands at, the list the pairs still to be reached. -/
def edgeWalk (dst : Fin 4) (colour : Byte) (here : Point × Point) : List (Point × Point) → Walk → Pages
  | [], w => w.pages
  | next :: rest, w =>
    let stepr := edgeStep here.1 next.1
    let stepl := edgeStep here.2 next.2
    let h := next.1.2 - here.1.2
    let w0 : Walk := { w with cl := (w.cl &&& 0xFFFF0000) ||| 0x7FFF, cr := (w.cr &&& 0xFFFF0000) ||| 0x8000 }
    if h = 0 then
      edgeWalk dst colour next rest { w0 with cl := w0.cl + stepl, cr := w0.cr + stepr }
    else
      match walkRows dst colour stepl stepr h.toNat w0 with
      | (w1, true) => w1.pages
      | (w1, false) => edgeWalk dst colour next rest w1

/-- The points paired as the two edges from the top row down: `(pts[k], pts[n - 1 - k])` for k below n / 2 (R217). -/
def edgePairs (pts : List Point) : List (Point × Point) :=
  (pts.take (pts.length / 2)).zip (pts.drop (pts.length / 2)).reverse

/-- An accumulator that starts at a coordinate: `wrap32(u16(x) << 16)` (R221). -/
def accOf (x : Word) : Acc := x.setWidth 32 <<< 16

/-- `FillPolygon(colour, x, y)` (R218), `(x, y)` the centre of the bounding box. -/
def fillPolygon (pages : Pages) (dst : Fin 4) (p : Polygon) (colour : Byte) (x y : Word) : Pages :=
  if p.bbw = 0 ∨ p.bbh = 0 then drawPoint pages dst x.toInt y.toInt colour
  else
    let xOrg := x - (p.bbw >>> 1)
    let xFar := x + (p.bbw >>> 1)
    let yTop := y - (p.bbh >>> 1)
    let yBot := y + (p.bbh >>> 1)
    if 319 < xOrg.toInt ∨ xFar.toInt < 0 ∨ 199 < yTop.toInt ∨ yBot.toInt < 0 then pages
    else
      match edgePairs p.pts with
      | [] => pages
      | first :: rest =>
        let xr := first.1.1 + xOrg
        let xl := first.2.1 + xOrg
        match rest with
        | [] => if 0 ≤ yTop.toInt then span pages dst yTop.toInt.toNat xl.toInt xr.toInt colour else pages
        | _ :: _ => edgeWalk dst colour first rest { pages := pages, row := yTop.toInt, cl := accOf xl, cr := accOf xr }

/-! ## Records and hierarchies (R211, R212, R230 to R232) -/

/-- Drawing one record: the state, the colour passed in, the position, the data pointer. -/
abbrev DrawRecord := State → Byte → Word → Word → Nat → Except State State

/-- One child record of a hierarchy: word, displacement, and the two optional bytes (R230, R231). The answer holds the
child's colour, position and record offset, and the data pointer after the child. -/
structure Child where
  colour : Byte
  x : Word
  y : Word
  off : Nat
  dp : Nat
  deriving DecidableEq, Repr

/-- Reads one child record at `dp` (R230). -/
def readChild (s : State) (g : Segment) (zoom x y : Word) (dp : Nat) : Except State Child := do
  let (w, dp) ← polyWord s g dp
  let (dx, dp) ← polyByte s g dp
  let (dy, dp) ← polyByte s g dp
  let off := 2 * (w.setWidth 15).toNat
  if w.getLsbD 15 then
    let (c, dp) ← polyByte s g dp
    let (_, dp) ← polyByte s g dp
    return { colour := c &&& 0x7F, x := x + scale dx zoom, y := y + scale dy zoom, off := off, dp := dp }
  else
    return { colour := 0xFF, x := x + scale dx zoom, y := y + scale dy zoom, off := off, dp := dp }

/-- The children of a hierarchy, `n` of them to come, drawn in stored order; a fault ends the walk with what has been
painted (R230, R234). -/
def drawChildren (draw : DrawRecord) (g : Segment) (zoom x y : Word) : Nat → State → Nat → Except State State
  | 0, s, _ => .ok s
  | n + 1, s, dp => do
    let c ← readChild s g zoom x y dp
    let s ← draw s c.colour c.x c.y c.off
    drawChildren draw g zoom x y n s c.dp

/-- `DrawHierarchy(zoom, x, y, depth)` (R230): `last + 1` children, placed from the parent's anchor. -/
def drawHierarchy (draw : DrawRecord) (g : Segment) (zoom : Word) (s : State) (x y : Word) (dp : Nat) :
    Except State State := do
  let (ax, dp) ← polyByte s g dp
  let (ay, dp) ← polyByte s g dp
  let (last, dp) ← polyByte s g dp
  drawChildren draw g zoom (x - scale ax zoom) (y - scale ay zoom) (last.toNat + 1) s dp

/-- The colour a direct polygon is drawn in: the record's own where bit 7 of the colour passed in is set (R212). -/
def recordColour (colour disc : Byte) : Byte := if colour.getLsbD 7 then disc &&& 0x3F else colour

/-- `ReadAndDraw(colour, zoom, x, y, depth)` (R212). The first argument is how many more hierarchy records may be
opened: `HIER_DEPTH_MAX` less the depth so far; opening one more is `HIER_DEPTH` (R232, R273). -/
def readAndDraw (g : Segment) (zoom : Word) : Nat → DrawRecord
  | depthLeft, s, colour, x, y, dp =>
    match polyByte s g dp with
    | .error e => .error e
    | .ok (i, dp) =>
      if Config.polyDirectMin.toNat ≤ i.toNat then
        match readVertices s g zoom dp with
        | .error e => .error e
        | .ok p => .ok { s with pages := fillPolygon s.pages s.ptr1 p (recordColour colour i) x y }
      else if i &&& 0x3F = Config.polyHier then
        match depthLeft with
        | 0 => .error (raise s (.hierDepth s.insnPc dp))
        | d + 1 => drawHierarchy (readAndDraw g zoom d) g zoom s x y dp
      else .ok (logSoft s (.badPolyDiscriminator s.insnPc (dp - 1) (i &&& 0x3F)))

/-- `DrawShape(dseg, off, colour, zoom, x, y)` (R211). -/
def drawShape (s : State) (g : Segment) (off : Nat) (colour : Byte) (zoom x y : Word) : Except State State :=
  readAndDraw g zoom s.hierDepthMax s colour x y off

end Sys2Proof.Machine
end

