-- ==== Sys2Proof/Machine/Poly.lean ====
section
/-! DEFINITION. The polygon draw instructions `spoly` and `bpoly` (45_polygon_draw.md). Both pass colour 0xFF: the
record's own colour (R195). -/

namespace Sys2Proof.Machine

/-- `spoly` (R198). -/
def execSpoly (off : Word) (x : XField) (y : YField) (zoom : ZoomField) (s : State) : StepResult :=
  settle (drawShape s (zoomSegment zoom) (spolyOffset off) 0xFF (zoomValue s zoom) (xValue s x) (yValue s y))

/-- `bpoly off, x, y` (R196): always the cinematic segment at zoom 0x40. -/
def execBpoly (off : BitVec 15) (x y : Byte) (s : State) : StepResult :=
  settle (drawShape s .cinematic (bpolyOffset off) 0xFF Config.defaultZoom (bpolyX x y) (bpolyY y))

end Sys2Proof.Machine
end

