-- ==== Sys2Proof/Machine/Resource.lean ====
section
/-! DEFINITION. Resource control: `update` (44_resource_control.md). -/

namespace Sys2Proof.Machine

/-- `Host.invalidate_resource()`, which wrote `ws` (70_reset_and_hazards.md R318). -/
def invalidateResource (ws : List Host.Cell) (s : State) : State :=
  { ask s .invalidateResource with mem := loaderWrites (outsideSegments s.arenaSize s.seg) ws s.mem }

/-- `Host.load_memory_entry(id)`, which answered `a`; a failure is `RESOURCE_ERROR` (R186, 70_reset_and_hazards.md
R317). What a failing load wrote stays (notes/assumptions/7.md). -/
def loadMemoryEntry (a : LoadAnswer) (id : Word) (s : State) : State :=
  let s1 := { ask s (.loadMemoryEntry id) with mem := loaderWrites (outsideSegments s.arenaSize s.seg) a.writes s.mem }
  if a.ok then s1 else raise s1 (.loadFailed s.insnPc id)

/-- `update id16` (R186): id 0 invalidates, an id from `PART_ID_FIRST` on stages a part switch, any other id loads. -/
def execUpdate (id : Word) (s : State) : StepResult :=
  if id = 0 then .next (invalidateResource (Config.invalidate s.hostTick) s)
  else if Config.partIdFirst.toNat ≤ id.toNat then .next { s with reqPart := id }
  else .next (loadMemoryEntry (Config.loadEntry s.hostTick id) id s)

end Sys2Proof.Machine
end

