-- ==== Sys2Proof/Machine/Threads.lean ====
section
/-! DEFINITION. Thread control: `setvec`, `pause`, `kill`, `thrctl` (42_thread_control.md). `pause` and `kill` end the
slice; `setvec` and `thrctl` only stage requests (R145). -/

namespace Sys2Proof.Machine

/-- `setvec tN, addr16` (R146): the redirect is staged; a thread id of 64 or more is `INDEX_RANGE` (R272). -/
def execSetvec (t : Byte) (off : Word) (s : State) : StepResult :=
  if h : t.toNat < 64 then .next { s with redir := s.redir.set t.toNat off h }
  else .next (raise s (.threadId s.insnPc t))

/-- `pause` (R148): the slice ends; `pc` is what the scheduler saves. -/
def execPause (s : State) : StepResult := .next { s with yield := true }

/-- `kill` (R150): `pc` becomes `PC_INACTIVE` and the slice ends. -/
def execKill (s : State) : StepResult := .next { s with pc := Config.pcInactive, yield := true }

/-- A register of the thread table with the rows `first` to `last` set to `x`. -/
def setRows {α : Type} (r : Vector α 64) (first last : Nat) (x : α) : Vector α 64 :=
  Vector.ofFn fun t => if first ≤ t.val ∧ t.val ≤ last then x else r[t]

/-- The id `last & 0x3F` of `thrctl` (R152). -/
def maskedLast (last : Byte) : Byte := last &&& 0x3F

/-- `thrctl tFIRST, tLAST, mode` (R152): mode 0 stages a resume, 1 a hold, 2 a deactivation, any other nothing; a first
id above the masked last id is `INDEX_RANGE` (R272). -/
def execThrctl (first last mode : Byte) (s : State) : StepResult :=
  let hi := maskedLast last
  if hi.toNat < first.toNat then .next (raise s (.threadRange s.insnPc first hi))
  else
    match mode.toNat with
    | 0 => .next { s with pausedReq := setRows s.pausedReq first.toNat hi.toNat false }
    | 1 => .next { s with pausedReq := setRows s.pausedReq first.toNat hi.toNat true }
    | 2 => .next { s with redir := setRows s.redir first.toNat hi.toNat Config.redirDeactivate }
    | _ => .next s

end Sys2Proof.Machine
end

