-- ==== Sys2Proof/Machine/Video.lean ====
section
/-! DEFINITION. Video pages and palette: `setpal`, `selpage`, `fillpage`, `copypage`, `blit` and the steps of `blit`
(43_video_page.md). -/

namespace Sys2Proof.Machine

/-- `setpal id` (R163): the id is the high byte of the palette word; 32 or more is logged and dropped. -/
def execSetpal (w : Word) (s : State) : StepResult :=
  if (highByte w).toNat < 32 then .next { s with reqPal := highByte w }
  else .next (logSoft s (.badPaletteId s.insnPc (highByte w)))

/-- `selpage page` (R165): the draw target becomes the page the id resolves to now. -/
def execSelpage (page : Byte) (s : State) : StepResult :=
  let r := resolvePage s page
  .next { r.2 with ptr1 := r.1 }

/-- `fillpage page, colour` (R167). -/
def execFillpage (page colour : Byte) (s : State) : StepResult :=
  let r := resolvePage s page
  .next { r.2 with pages := r.2.pages.set r.1.val (Page.filled (fillByte colour)) }

/-- `copypage src, dst` (R172): equal ids do nothing; two ids of one page are resolved, an invalid one being logged, and
copy nothing (92_eei_decisions.md D18, 93_implementation_defined.md G8; notes/assumptions/17.md); else the source page is
read as a snapshot and scrolled by `v[VAR_SCROLL_Y]` into the destination page. -/
def execCopypage (src dst : Byte) (s : State) : StepResult :=
  if src = dst then .next s
  else
    let rs := resolvePage s src
    let rd := resolvePage rs.2 dst
    let dy := (getVar rd.2 Config.varScrollY).toInt
    if rs.1 = rd.1 then .next rd.2
    else .next { rd.2 with pages := rd.2.pages.set rd.1.val (Page.scrolled rd.2.pages[rs.1] rd.2.pages[rd.1] dy) }

/-- The milliseconds that `Pace()` asks the platform to sleep when the clock shows `now`: the budget of
`v[VAR_PAUSE_SLICES]` slices less the time elapsed, a clock gone backwards counting as none elapsed; 0 where no sleep is
asked for (R177). -/
def sleepTime (s : State) (now : Nat) : Nat :=
  ((getVar s Config.varPauseSlices).toInt * Config.sliceMs - ((now - s.lastTs : Nat) : Int)).toNat

/-- `Pace()` (R177), with the clock's answers as an argument: two samples, a sleep between them where the call came
early, and the second sample kept in `LAST_TS`. The sleep changes no state (70_reset_and_hazards.md R320). -/
def pace (clock : Nat → Nat) (s : State) : State :=
  let ms := sleepTime s (clock s.hostTick)
  { s with
    lastTs := clock (s.hostTick + 1)
    hostTick := s.hostTick + 2
    calls := s.calls ++ [.getTimestamp] ++ (if 0 < ms then [.sleep ms] else []) ++ [.getTimestamp] }

/-- `UpdateAliases(id)` (R179): 0xFE nothing, 0xFF swaps `PTR2` and `PTR3`, any other id sets `PTR2`. -/
def updateAliases (id : Byte) (s : State) : State :=
  if id = Config.pageAlias2 then s
  else if id = Config.pageAlias3 then { s with ptr2 := s.ptr3, ptr3 := s.ptr2 }
  else
    let r := resolvePage s id
    { r.2 with ptr2 := r.1 }

/-- The loop of `ApplyPalette()` (R178): the last `n` of the 32 bytes are still to be read; a byte out of bounds faults
with the earlier ones written. -/
def loadPalette (s : State) : Nat → Except State State
  | 0 => .ok s
  | n + 1 =>
    match segRead8 s .palette (32 * s.reqPal.toNat + (31 - n)) with
    | .ok b => loadPalette { s with curPal := s.curPal.set (31 - n) b } n
    | .error s' => .error s'

/-- `ApplyPalette()` (R178): a pending palette is loaded, handed to the platform, and no longer pending. -/
def applyPalette (s : State) : Except State State :=
  if s.reqPal = Config.reqPalNone then .ok s
  else
    match loadPalette s 32 with
    | .ok s1 => .ok { output s1 (.setPalette s1.curPal) with reqPal := Config.reqPalNone }
    | .error s1 => .error s1

/-- `Host.present(PAGE[PTR1])` (R180). -/
def presentPage (s : State) : State := output s (.present s.pages[s.ptr1])

/-- The steps of `blit` in their order, with the clock's answers as an argument (R176). -/
def blitWith (clock : Nat → Nat) (page : Byte) (s : State) : Except State State :=
  match applyPalette (updateAliases page (pace clock s)) with
  | .ok s1 => .ok (presentPage s1)
  | .error s1 => .error s1

/-- `blit page` (R176). -/
def execBlit (page : Byte) (s : State) : StepResult := settle (blitWith Config.timestamp page s)

end Sys2Proof.Machine
end

