-- ==== Sys2Proof/Machine/Dispatch.lean ====
section
/-! DEFINITION. One arm per constructor of Instr: the meaning of the instruction, `pc` already past its bytes
(47_scheduler.md R255). -/

namespace Sys2Proof.Machine

def exec (i : Instr) (s : State) : Host.Outcome State Fault Refusal :=
  match i with
  | .movi d imm => Sys2Proof.Machine.execMovi d imm s
  | .mov d src => Sys2Proof.Machine.execMov d src s
  | .addi d imm => Sys2Proof.Machine.execAddi d imm s
  | .call target => Sys2Proof.Machine.execCall target s
  | .ret => Sys2Proof.Machine.execRet s
  | .pause => Sys2Proof.Machine.execPause s
  | .jmp target => Sys2Proof.Machine.execJmp target s
  | .setvec t off => Sys2Proof.Machine.execSetvec t off s
  | .jnz d target => Sys2Proof.Machine.execJnz d target s
  | .condJmpVar cc a b target => Sys2Proof.Machine.execCondJmpVar cc a b target s
  | .condJmpImm16 cc a imm target => Sys2Proof.Machine.execCondJmpImm16 cc a imm target s
  | .condJmpImm8 cc a imm target => Sys2Proof.Machine.execCondJmpImm8 cc a imm target s
  | .setpal w => Sys2Proof.Machine.execSetpal w s
  | .thrctl first last mode => Sys2Proof.Machine.execThrctl first last mode s
  | .selpage page => Sys2Proof.Machine.execSelpage page s
  | .fillpage page colour => Sys2Proof.Machine.execFillpage page colour s
  | .copypage src dst => Sys2Proof.Machine.execCopypage src dst s
  | .blit page => Sys2Proof.Machine.execBlit page s
  | .kill => Sys2Proof.Machine.execKill s
  | .ori d mask => Sys2Proof.Machine.execOri d mask s
  | .update id => Sys2Proof.Machine.execUpdate id s
  | .spoly off x y zoom => Sys2Proof.Machine.execSpoly off x y zoom s
  | .bpoly off x y => Sys2Proof.Machine.execBpoly off x y s
  | .illegal op => Sys2Proof.Machine.execIllegal op s

end Sys2Proof.Machine
end

