-- ==== Sys2Proof/Machine/Scheduler.lean ====
section
/-! DEFINITION. The thread scheduler: part switch, commit, the frame's loop, start and end of a slice
(47_scheduler.md), as the finer steps that R248 allows (notes/assumptions/1.md). -/

namespace Sys2Proof.Machine

/-- The thread table of a part that has just been set up: thread 0 at offset 0, every other thread inactive, nothing
staged, nobody held (R249). -/
def threadReset (s : State) : State :=
  { s with
    thrPc := (Vector.replicate 64 Config.pcInactive).set 0 0
    redir := Vector.replicate 64 Config.redirNone
    pausedCur := Vector.replicate 64 false
    pausedReq := Vector.replicate 64 false
    reqPart := 0 }

/-- The state after `Host.setup_part(id)` has rewritten `SEG` and bytes of `MEM` (R249, 70_reset_and_hazards.md R316). -/
def mapPart (a : SetupAnswer) (s : State) : State :=
  { ask s (.setupPart s.reqPart) with
    seg := a.segs
    mem := loaderWrites (fun addr => decide (addr < s.arenaSize)) a.writes s.mem }

/-- The part switch proper, with the loader's answer as an argument: a failure is `RESOURCE_ERROR` with the thread table
as it was; a mapping that breaks R316 is refused (R249, R250; notes/assumptions/3.md). -/
def switchPart (a : SetupAnswer) (s : State) : StepResult :=
  if a.ok then
    if legalMapping s.arenaSize a.segs then .next { threadReset (mapPart a s) with phase := .commit }
    else .refused .hostOutsideContract
  else .next (raise (mapPart a s) (.setupFailed s.reqPart))

/-- `PartSwitchIfRequested()` (R249), then the commit comes. -/
def partSwitchStep (s : State) : StepResult :=
  if s.reqPart = 0 then .next { s with phase := .commit }
  else switchPart (Config.setupPart s.hostTick s.reqPart) s

/-- The `THR_PC` of a thread after the commit, from its `THR_PC` and its `REDIR` (R251). -/
def commitPc (old redir : Word) : Word :=
  if redir = Config.redirNone then old
  else if redir = Config.redirDeactivate then Config.pcInactive
  else redir

/-- `ApplyPending()` (R251). -/
def applyPending (s : State) : State :=
  { s with
    pausedCur := s.pausedReq
    thrPc := Vector.ofFn fun t => commitPc s.thrPc[t] s.redir[t]
    redir := Vector.replicate 64 Config.redirNone }

/-- The commit, then the frame's loop from thread 0 on (R246). -/
def commitStep (s : State) : State := { applyPending s with phase := .select 0 }

/-- The thread gets a slice in this frame: it is not held and not inactive (R246, R252). -/
def getsSlice (s : State) (t : Fin 64) : Bool := !s.pausedCur[t] && s.thrPc[t] != Config.pcInactive

/-- The least thread id, from `next` on, that gets a slice (R246). -/
def firstReady (s : State) (next : Nat) : Option (Fin 64) :=
  (List.finRange 64).find? fun t => decide (next ≤ t.val) && getsSlice s t

/-- Start of a slice (R253). -/
def startSlice (s : State) (t : Fin 64) : State :=
  { s with curThr := t, pc := s.thrPc[t], sp := 0, yield := false, phase := .slice }

/-- The frame's loop from thread `next` on: the next slice starts, or the frame is over (R246). -/
def selectStep (s : State) (next : Nat) : State :=
  match firstReady s next with
  | some t => startSlice s t
  | none => { s with phase := .frameTop }

/-- End of a slice: the cursor is persisted and the loop goes on with the next id (R254). -/
def endSlice (s : State) : State :=
  { s with thrPc := s.thrPc.set s.curThr.val s.pc, phase := .select (s.curThr.val + 1) }

/-- A machine that has taken a fatal fault: `RunFrame` returns at once and nothing changes (R245, R260,
60_exceptions.md R275; notes/assumptions/2.md). -/
def haltedStep (s : State) : StepResult := .next s

/-- `pc` could pass 0xFFFF (10_state.md R28, 70_reset_and_hazards.md R316; notes/assumptions/3.md). -/
def bytecodeTooLong (s : State) : Bool := decide (0xFFFF < s.seg.bytecode.len)

/-- The bytes that fetching the next instruction can read (20_memory.md R71, R72, R82). -/
def fetchWindow (s : State) : List Byte := window s .bytecode s.pc.toNat maxLength

/-- The arena with bytes stored at the addresses from `addr` on. -/
def storeBytes (m : Memory) : Nat → List Byte → Memory
  | _, [] => m
  | addr, b :: r => storeBytes (m.write addr b) (addr + 1) r

/-- A segment register long enough for `n` bytes at offset `off`. -/
def extendSeg (g : Seg) (off n : Nat) : Seg := { g with len := max g.len (off + n) }

/-- The state in which the next step fetches `bytes` at the present `pc`: a slice is in progress and nothing has halted
it, the bytes stand in the bytecode segment, and the segment and the arena reach that far (70_reset_and_hazards.md
R301; notes/assumptions/15.md). -/
def placeInstr (s : State) (bytes : List Byte) : State :=
  { s with
    fault := none
    yield := false
    phase := .slice
    seg := { s.seg with bytecode := extendSeg s.seg.bytecode s.pc.toNat bytes.length }
    arenaSize := max s.arenaSize (s.seg.bytecode.base + s.pc.toNat + bytes.length)
    mem := storeBytes s.mem (s.seg.bytecode.base + s.pc.toNat) bytes }

end Sys2Proof.Machine
end

