-- ==== Sys2Proof/Machine/Step.lean ====
section
/-! DEFINITION. One step of the machine: one of the finer steps of 47_scheduler.md R248, and the placing of one
instruction where the next step fetches. -/

namespace Sys2Proof.Machine

/-- `ExecuteOne()` (47_scheduler.md R255): the bytes at `pc` are decoded and the instruction is executed. -/
def executeOne (s : State) : StepResult :=
  if bytecodeTooLong s then .fault .bytecodeTooLong
  else
    match decode (fetchWindow s) with
    | .instr i n => exec i (fetched s n)
    | .truncated used decremented => .next (fetchFault s used decremented)

/-- One step. In a slice, `YIELD` is tested after every instruction, that is before the next (R254); a slice starts with
`YIELD` clear (R253). -/
def step (s : State) : Host.Outcome State Fault Refusal :=
  if s.fault.isSome then haltedStep s
  else
    match s.phase with
    | .frameTop => partSwitchStep s
    | .commit => .next (commitStep s)
    | .select next => .next (selectStep s next)
    | .slice => if s.yield then .next (endSlice s) else executeOne s

/-- The instruction with the table bits `w` stored where the next step fetches (notes/assumptions/15.md). -/
def State.withFetchWord (s : State) (nbits w : Nat) : State := placeInstr s (tableBytes nbits w)

end Sys2Proof.Machine
end

