-- ==== Sys2Proof/Safety.lean ====
section
/-! DEFINITION. What counts as a safe state and a safe run, in the terms the statements use: what one step leaves alone,
the invariant of the machine, and the runs of instructions inside one slice. -/

namespace Sys2Proof.Machine

/-- Every byte of the arena reads in `t` as it reads in `s`. -/
def ArenaSame (s t : State) : Prop := ∀ a : Nat, t.mem.read a = s.mem.read a

/-- The loader's writes `ws` led from the arena `m` to `t`, as far as its call allows them: an address that is not
written, or may not be, reads as before, and in an arena in canonical form an address that is written and may be reads as
the last value written there (70_reset_and_hazards.md R316 to R318, R322). -/
def LoaderWrote (allowed : Nat → Bool) (ws : List Host.Cell) (m t : Memory) : Prop :=
  (∀ addr, (∀ c ∈ ws, c.1 = addr → allowed addr = false) → t.read addr = m.read addr) ∧
  (m.wf = true → t.wf = true ∧ ∀ front back addr x, ws = front ++ (addr, x) :: back → (∀ c ∈ back, c.1 ≠ addr) →
    allowed addr = true → t.read addr = x)

/-- The record is that of a fatal fault (60_exceptions.md R275). -/
def LogRecord.isFatal (r : LogRecord) : Bool :=
  match r.what with
  | .fatal _ => true
  | .soft _ => false

/-- The arguments of a host call are ones the core may pass (70_reset_and_hazards.md R317, R320;
44_resource_control.md R186): a load names an id from 1 to `PART_ID_FIRST` - 1, a part switch an id from
`PART_ID_FIRST` on, a sleep a positive time. -/
def HostCall.legal : HostCall → Prop
  | .setupPart id => Config.partIdFirst.toNat ≤ id.toNat
  | .loadMemoryEntry id => id ≠ 0 ∧ id.toNat < Config.partIdFirst.toNat
  | .invalidateResource => True
  | .getTimestamp => True
  | .sleep ms => 0 < ms
  | .setPalette _ => True
  | .present _ => True

/-- The invariant of the machine: what holds in every state from a legal reset on, whatever program runs. -/
structure LegalState (s : State) : Prop where
  /-- the arena's contents are in canonical form -/
  memWf : s.mem.wf = true
  /-- every listed byte is a byte of the arena (20_memory.md R61) -/
  memInArena : ∀ c ∈ s.mem, c.1 < s.arenaSize
  /-- while no fault is taken, the mapping is one the loader guarantees (70_reset_and_hazards.md R301, R316) -/
  mapped : s.fault = none → legalMapping s.arenaSize s.seg = true
  /-- the pending palette is an id 0 to 31 or none (10_state.md R37) -/
  palette : s.reqPal.toNat < 32 ∨ s.reqPal = Config.reqPalNone
  /-- the pending part is none or an id from `PART_ID_FIRST` on (10_state.md R38) -/
  part : s.reqPart = 0 ∨ Config.partIdFirst.toNat ≤ s.reqPart.toNat
  /-- the depth limit is at least 1 (00_scope.md R9) -/
  depth : 1 ≤ s.hierDepthMax
  /-- at most one fatal fault happens per reset, and `FAULT` is not empty once it has (60_exceptions.md R277) -/
  oneFault : s.log.countP LogRecord.isFatal = if s.fault.isSome then 1 else 0
  /-- the thread whose slice is in progress is one that gets a slice in this frame (47_scheduler.md R252) -/
  owner : s.phase = .slice → getsSlice s s.curThr = true
  /-- every host call made so far had legal arguments -/
  callsLegal : ∀ c ∈ s.calls, c.legal

/-- A slice is in progress in `s`, the bytes at `pc` are the instruction `i` of `n` bytes, and executing it leads to `t`
without a fault (47_scheduler.md R254, R255). -/
structure Runs (s : State) (i : Instr) (n : Nat) (t : State) : Prop where
  running : s.fault = none
  inSlice : s.phase = .slice
  noYield : s.yield = false
  fits : bytecodeTooLong s = false
  decodes : decode (fetchWindow s) = .instr i n
  next : step s = .next t
  noFault : t.fault = none

/-- The instruction is neither a `call` nor a `ret`. -/
def keepsStack (i : Instr) : Prop := (∀ target, i ≠ .call target) ∧ i ≠ .ret

/-- From `s` to `t` by instructions of one slice in which every `call` is matched by a later `ret`
(41_control_transfer.md R134). -/
inductive Balanced : State → State → Prop where
  /-- nothing executed -/
  | nothing (s : State) : Balanced s s
  /-- one more instruction that is no `call` and no `ret` -/
  | plain {s t u : State} {i : Instr} {n : Nat} (before : Balanced s t) (run : Runs t i n u) (keeps : keepsStack i) :
      Balanced s u
  /-- one more subroutine: a `call`, a balanced body, and the `ret` that ends it -/
  | subroutine {s t u w x : State} {target : Word} {m n : Nat} (before : Balanced s t) (enter : Runs t (.call target) m u)
      (body : Balanced u w) (leave : Runs w .ret n x) : Balanced s x

/-- The colour index that painting with `colour` leaves on the draw target, from the pixel `old` there and the pixel
`page0` at the same place of page 0 (46_polygon_rasterizer.md R226). -/
def paint (colour : Byte) (old page0 : BitVec 4) : BitVec 4 :=
  if colour.toNat < 0x10 then colour.setWidth 4 else if colour.toNat = 0x10 then old ||| 8 else page0

/-- What a polygon instruction draws: the segment and the offset of the record, the zoom, the anchor. -/
structure DrawCall where
  seg : Segment
  off : Nat
  zoom : Word
  x : Word
  y : Word
  deriving DecidableEq, Repr

/-- The draw an instruction asks for, read from 45_polygon_draw.md R196 and R198 in whole numbers: the record offset is
twice the encoded one modulo 65536; in `bpoly` the excess of the y byte over 199 goes to x. -/
def drawCall (s : State) : Instr → Option DrawCall
  | .bpoly off x y =>
    some
      { seg := .cinematic
        off := 2 * off.toNat
        zoom := 64
        x := BitVec.ofNat 16 (if 199 < y.toNat then x.toNat + (y.toNat - 199) else x.toNat)
        y := BitVec.ofNat 16 (min y.toNat 199) }
  | .spoly off x y z =>
    some
      { seg := if z = .secondary then .secondary else .cinematic
        off := 2 * off.toNat % 65536
        zoom :=
          match z with
          | .default => 64
          | .var i => getVar s i
          | .imm8 b => BitVec.ofNat 16 b.toNat
          | .secondary => 64
        x :=
          match x with
          | .imm16 w => w
          | .var i => getVar s i
          | .imm8 b => BitVec.ofNat 16 b.toNat
          | .imm8High b => BitVec.ofNat 16 (b.toNat + 256)
        y :=
          match y with
          | .imm16 w => w
          | .var i => getVar s i
          | .imm8 b => BitVec.ofNat 16 b.toNat
          | .imm8Alt b => BitVec.ofNat 16 b.toNat }
  | _ => none

/-- The points of a direct polygon record whose body (the bytes after the count) is `body`, scaled
(46_polygon_rasterizer.md R215). -/
def recordPoints (zoom : Word) (n : Nat) (body : List Byte) : List Point :=
  (List.range n).map fun k => (scale (body.getD (2 * k) 0) zoom, scale (body.getD (2 * k + 1) 0) zoom)

/-! ## Fetches and fields of an instruction, in whole numbers -/

/-- How many bytes each fetch of an instruction takes, the opcode byte first: 1 for a `FetchByte`, 2 for a `FetchWord`
(30_encoding.md R92, R99; 45_polygon_draw.md R198). -/
def fetchWidths : Instr → List Nat
  | .ret | .pause | .kill | .illegal _ => [1]
  | .selpage _ | .blit _ => [1, 1]
  | .mov _ _ | .fillpage _ _ | .copypage _ _ => [1, 1, 1]
  | .call _ | .jmp _ | .setpal _ | .update _ => [1, 2]
  | .movi _ _ | .addi _ _ | .ori _ _ | .setvec _ _ | .jnz _ _ => [1, 1, 2]
  | .thrctl _ _ _ => [1, 1, 1, 1]
  | .condJmpVar _ _ _ _ | .condJmpImm8 _ _ _ _ => [1, 1, 1, 1, 2]
  | .condJmpImm16 _ _ _ _ => [1, 1, 1, 1, 1, 2]
  | .bpoly _ _ _ => [1, 1, 1, 1]
  | .spoly _ x y zoom =>
    [1, 2] ++
      (match x with | .imm16 _ => [1, 1] | .var _ => [1] | .imm8 _ => [1] | .imm8High _ => [1]) ++
      (match y with | .imm16 _ => [1, 1] | .var _ => [1] | .imm8 _ => [1] | .imm8Alt _ => [1]) ++
      (match zoom with | .default => [] | .var _ => [1] | .imm8 _ => [1] | .secondary => [])

/-- The offset at which the first fetch starts that is not wholly within the first `k` bytes, for fetches of the given
widths from offset `start` on. -/
def failingFetch (k : Nat) : Nat → List Nat → Nat
  | start, [] => start
  | start, w :: r => if start + w ≤ k then failingFetch k (start + w) r else start

/-- The bytes of an x field in each of its four modes, and the field they stand for (30_encoding.md R99). -/
def xFieldIs (mode : Nat) (bytes : List Byte) (f : XField) : Prop :=
  (mode = 0 ∧ ∃ (b c : Byte) (w : Word), bytes = [b, c] ∧ w.toNat = 256 * b.toNat + c.toNat ∧ f = .imm16 w) ∨
  (mode = 1 ∧ ∃ b, bytes = [b] ∧ f = .var b) ∨
  (mode = 2 ∧ ∃ b, bytes = [b] ∧ f = .imm8 b) ∨
  (mode = 3 ∧ ∃ b, bytes = [b] ∧ f = .imm8High b)

/-- The bytes of a y field in each of its four modes, and the field they stand for (30_encoding.md R99). -/
def yFieldIs (mode : Nat) (bytes : List Byte) (f : YField) : Prop :=
  (mode = 0 ∧ ∃ (b c : Byte) (w : Word), bytes = [b, c] ∧ w.toNat = 256 * b.toNat + c.toNat ∧ f = .imm16 w) ∨
  (mode = 1 ∧ ∃ b, bytes = [b] ∧ f = .var b) ∨
  (mode = 2 ∧ ∃ b, bytes = [b] ∧ f = .imm8 b) ∨
  (mode = 3 ∧ ∃ b, bytes = [b] ∧ f = .imm8Alt b)

/-- The bytes of a zoom field in each of its four modes, and the field they stand for (30_encoding.md R99). -/
def zoomFieldIs (mode : Nat) (bytes : List Byte) (f : ZoomField) : Prop :=
  (mode = 0 ∧ bytes = [] ∧ f = .default) ∨
  (mode = 1 ∧ ∃ b, bytes = [b] ∧ f = .var b) ∨
  (mode = 2 ∧ ∃ b, bytes = [b] ∧ f = .imm8 b) ∨
  (mode = 3 ∧ bytes = [] ∧ f = .secondary)

/-! ## What an instruction can raise (60_exceptions.md R280) -/

/-- The codes of the fatal faults that the effect of an instruction can raise, its fetches apart (R280). -/
def fatalCodes : Instr → List Nat
  | .movi _ _ | .mov _ _ | .addi _ _ | .ori _ _ | .jmp _ | .jnz _ _ | .pause | .kill => []
  | .call _ => [1]
  | .ret => [2]
  | .condJmpVar _ _ _ _ | .condJmpImm16 _ _ _ _ | .condJmpImm8 _ _ _ _ => []
  | .setvec _ _ | .thrctl _ _ _ => [7]
  | .setpal _ | .selpage _ | .fillpage _ _ | .copypage _ _ => []
  | .blit _ => [6]
  | .update _ => [5]
  | .bpoly _ _ _ | .spoly _ _ _ _ => [3, 8, 6]
  | .illegal _ => [4]

/-- The codes of the soft conditions that an instruction can log (R280). -/
def softCodes : Instr → List Nat
  | .movi _ _ | .mov _ _ | .addi _ _ | .ori _ _ | .jmp _ | .jnz _ _ | .pause | .kill => []
  | .call _ | .ret | .setvec _ _ | .thrctl _ _ _ | .update _ | .illegal _ => []
  | .condJmpVar _ _ _ _ | .condJmpImm16 _ _ _ _ | .condJmpImm8 _ _ _ _ => [19]
  | .setpal _ => [17]
  | .selpage _ | .fillpage _ _ | .copypage _ _ | .blit _ => [16]
  | .bpoly _ _ _ | .spoly _ _ _ _ => [18]

/-- Whether an instruction writes `pc` other than by being fetched (10_state.md R28). -/
def writesPc : Instr → Bool
  | .call _ | .ret | .jmp _ | .jnz _ _ | .kill => true
  | .condJmpVar _ _ _ _ | .condJmpImm16 _ _ _ _ | .condJmpImm8 _ _ _ _ => true
  | .movi _ _ | .mov _ _ | .addi _ _ | .ori _ _ | .pause | .setvec _ _ | .thrctl _ _ _ => false
  | .setpal _ | .selpage _ | .fillpage _ _ | .copypage _ _ | .blit _ | .update _ => false
  | .bpoly _ _ _ | .spoly _ _ _ _ | .illegal _ => false

/-! ## The pixels of a polygon, in whole numbers (46_polygon_rasterizer.md R217 to R227) -/

/-- A span from `l` to `r` covers column `x`: it is not dropped, and `x` lies between its ends truncated to the page
(R225). -/
def spanCovers (l r : Int) (x : Nat) : Prop :=
  l ≤ 319 ∧ 0 ≤ r ∧ min (max l 0) (min r 319) ≤ (x : Int) ∧ (x : Int) ≤ max (max l 0) (min r 319)

/-- `Interp` of a row difference, which wraps modulo 65536 (R223). -/
def interpOf (d : Int) : Int := if d % 65536 = 0 then 16384 else 16384 / (d % 65536)

/-- The rows of one segment pair, and what each row adds to the left (second) and the right (first) edge, in units of a
65536th of a pixel (R221). -/
structure SegmentPair where
  rows : Nat
  left : Int
  right : Int
  deriving DecidableEq, Repr

/-- The x coordinate of stored point `i`. -/
def pointX (pts : List Point) (i : Nat) : Int := (pts.getD i (0, 0)).1.toInt

/-- The y coordinate of stored point `i`. -/
def pointY (pts : List Point) (i : Nat) : Int := (pts.getD i (0, 0)).2.toInt

/-- Segment pair `k`, from 0 on: of the first edge from point `k` to `k + 1`, of the second from point `n - 1 - k` to
`n - 2 - k`; the rows are those of the first edge (R217, R221). -/
def segmentPair (pts : List Point) (k : Nat) : SegmentPair :=
  let j := pts.length - 1 - k
  { rows := ((pointY pts (k + 1) - pointY pts k) % 65536).toNat
    left := (pointX pts (j - 1) - pointX pts j) * interpOf (pointY pts (j - 1) - pointY pts j) * 4
    right := (pointX pts (k + 1) - pointX pts k) * interpOf (pointY pts (k + 1) - pointY pts k) * 4 }

/-- The `n / 2 - 1` segment pairs of a polygon of `n` points (R221). -/
def segmentPairs (pts : List Point) : List SegmentPair := (List.range (pts.length / 2 - 1)).map (segmentPair pts)

/-- The two ends of the span on the `r`-th row of the walk, for edges that stand at `cl` and `cr`: each segment reloads
the fractions, a segment of no rows moves both edges by one step, and an edge's pixel is its whole part modulo 65536;
none where the walk has ended (R221, R224). -/
def rowEnds : List SegmentPair → Int → Int → Nat → Option (Int × Int)
  | [], _, _, _ => none
  | g :: rest, cl, cr, r =>
    let l := cl / 65536 * 65536 + 0x7FFF
    let h := cr / 65536 * 65536 + 0x8000
    if g.rows = 0 then rowEnds rest (l + g.left) (h + g.right) r
    else if r < g.rows then
      some (((l + r * g.left) / 65536).bmod 65536, ((h + r * g.right) / 65536).bmod 65536)
    else rowEnds rest (l + g.rows * g.left) (h + g.rows * g.right) (r - g.rows)

/-- The pixel (`x`, `y`) is one that filling the polygon at the anchor (`ax`, `ay`) paints: the anchor alone for a box of
no area; nothing where the box lies off the page; one line for two points; else the rows of the edge walk (R218). -/
def polygonCovers (p : Polygon) (ax ay : Int) (x y : Nat) : Prop :=
  let left := (ax - (p.bbw.toNat / 2 : Nat)).bmod 65536
  let right := (ax + (p.bbw.toNat / 2 : Nat)).bmod 65536
  let top := (ay - (p.bbh.toNat / 2 : Nat)).bmod 65536
  let bottom := (ay + (p.bbh.toNat / 2 : Nat)).bmod 65536
  let xr := (pointX p.pts 0 + left).bmod 65536
  let xl := (pointX p.pts (p.pts.length - 1) + left).bmod 65536
  ((p.bbw = 0 ∨ p.bbh = 0) ∧ (x : Int) = ax ∧ (y : Int) = ay) ∨
  (p.bbw ≠ 0 ∧ p.bbh ≠ 0 ∧ left ≤ 319 ∧ 0 ≤ right ∧ top ≤ 199 ∧ 0 ≤ bottom ∧
    ((p.pts.length = 2 ∧ (y : Int) = top ∧ spanCovers xl xr x) ∨
      (4 ≤ p.pts.length ∧ top ≤ (y : Int) ∧ ∃ l r,
        rowEnds (segmentPairs p.pts) (xl * 65536) (xr * 65536) ((y : Int) - top).toNat = some (l, r) ∧ spanCovers l r x)))

/-! ## No instruction is a nop (30_encoding.md R114) -/

/-- The operands with which an instruction, in every state, does nothing but pass its bytes: a variable rewritten with
its own value, a comparison that no value of the variable makes true, and the effect-free forms of
42_thread_control.md R152 (a mode above 2) and 43_video_page.md R172 (equal ids). No mnemonic, and no opcode byte, is
free of effects with every operand: there is no `nop`, and an opcode byte that is no instruction's is illegal (R110, R114;
notes/assumptions/26.md). -/
def effectFree : Instr → Bool
  | .movi _ _ => false
  | .mov d src => d = src
  | .addi _ imm => imm = 0
  | .call _ => false
  | .ret => false
  | .pause => false
  | .jmp _ => false
  | .setvec _ _ => false
  | .jnz _ _ => false
  | .condJmpVar cc a b _ => a = b ∧ (comparator cc = 1 ∨ comparator cc = 2 ∨ comparator cc = 4)
  | .condJmpImm16 cc _ imm _ => (comparator cc = 2 ∧ imm = 0x7FFF) ∨ (comparator cc = 4 ∧ imm = 0x8000)
  | .condJmpImm8 _ _ _ _ => false
  | .setpal _ => false
  | .thrctl first last mode => first.toNat ≤ last.toNat % 64 ∧ 3 ≤ mode.toNat
  | .selpage _ => false
  | .fillpage _ _ => false
  | .copypage src dst => src = dst
  | .blit _ => false
  | .kill => false
  | .ori _ mask => mask = 0
  | .update _ => false
  | .spoly _ _ _ _ => false
  | .bpoly _ _ _ => false
  | .illegal _ => false

/-! ## The children of a hierarchy (46_polygon_rasterizer.md R230, R231) -/

/-- The bytes of one child record: the child word, the displacement, and what follows where bit 15 of the word is set. -/
structure ChildBytes where
  hi : Byte
  lo : Byte
  dx : Byte
  dy : Byte
  extra : List Byte
  deriving DecidableEq, Repr

/-- The record as it is stored. -/
def ChildBytes.stored (c : ChildBytes) : List Byte := c.hi :: c.lo :: c.dx :: c.dy :: c.extra

/-- Two more bytes are stored exactly where bit 15 of the child word is set. -/
def ChildBytes.fits (c : ChildBytes) : Prop := c.extra.length = if 128 ≤ c.hi.toNat then 2 else 0

/-- The offset of the record the child names: twice the low 15 bits of the child word. -/
def ChildBytes.target (c : ChildBytes) : Nat := 2 * (c.hi.toNat % 128 * 256 + c.lo.toNat)

/-- The draw of one child of a hierarchy whose anchor is at (`x`, `y`): at the scaled displacement from the anchor, in
the child's own colours, or in the low 7 bits of the colour byte where there is one (R230). -/
def drawChild (g : Segment) (zoom x y : Word) (depth : Nat) (s : State) (c : ChildBytes) : Except State State :=
  readAndDraw g zoom depth s (if 128 ≤ c.hi.toNat then BitVec.ofNat 8 ((c.extra.getD 0 0).toNat % 128) else 0xFF)
    (x + scale c.dx zoom) (y + scale c.dy zoom) c.target

end Sys2Proof.Machine
end

