-- ==== Sys2Proof/Certificates/Slice0/Obligations.lean ====
section
/-! DEFINITION. The statements for the provers. A statement about an instruction says that `exec` answers a next state
and what that state holds: a record update names every field that may differ, so everything else is its frame; `exec`
runs with `pc` already past the instruction's bytes and `insn_pc` at its opcode byte. -/

open Sys2Proof Sys2Proof.Machine

/-! ## Encoding -/

/-- Decoding the encoding of a well-formed instruction, whatever bytes follow, gives the instruction and its length. -/
def Obligations.DecodeEncodeRoundTrip : Prop :=
  ∀ (i : Instr) (rest : List Byte), i.wellFormed = true → decode (encode i ++ rest) = .instr i (encode i).length

/-- Whatever decodes is well formed, and its encoding is exactly the bytes it was read from. -/
def Obligations.DecodedBytesAreTheEncoding : Prop :=
  ∀ (bytes : List Byte) (i : Instr) (n : Nat), decode bytes = .instr i n →
    i.wellFormed = true ∧ n ≤ bytes.length ∧ encode i = bytes.take n

/-- The decoding of an instruction depends on its own bytes only, and no proper prefix of an instruction decodes to an
instruction. -/
def Obligations.DecodeReadsOnlyItsBytes : Prop :=
  (∀ (bytes rest : List Byte) (i : Instr) (n : Nat), decode bytes = .instr i n → decode (bytes.take n ++ rest) = .instr i n) ∧
  ∀ (i : Instr) (k : Nat), i.wellFormed = true → k < (encode i).length →
    ∃ used decremented, decode ((encode i).take k) = .truncated used decremented ∧ used ≤ k

/-- The opcode map of 30_encoding.md R94 to R98: bit 7 of the opcode byte first, then bit 6, then the table, each row
with its operands in fetch order; `spoly` with the mode bits xm, ym and zm in bits 5:0 of its opcode byte, the offset
word, and the x, y and zoom fields in this order, each with the bytes of its own mode (R99). -/
def Obligations.DecodeFollowsTheOpcodeMap : Prop :=
  (∀ (op lo x y : Byte) (r : List Byte), op.getLsbD 7 = true →
    ∃ off : BitVec 15, off.toNat = op.toNat % 128 * 256 + lo.toNat ∧ decode (op :: lo :: x :: y :: r) = .instr (.bpoly off x y) 4) ∧
  (∀ (op : Byte) (r : List Byte) (i : Instr) (n : Nat), op.getLsbD 7 = false → op.getLsbD 6 = true →
    decode (op :: r) = .instr i n → ∃ off x y z, i = .spoly off x y z) ∧
  (∀ (op h l : Byte) (xm ym zm : Nat) (xb yb zb r : List Byte) (off : Word) (x : XField) (y : YField) (z : ZoomField),
    xm < 4 → ym < 4 → zm < 4 → op.toNat = 64 + 16 * xm + 4 * ym + zm → off.toNat = 256 * h.toNat + l.toNat →
    xFieldIs xm xb x → yFieldIs ym yb y → zoomFieldIs zm zb z →
    decode (op :: h :: l :: (xb ++ yb ++ zb ++ r)) =
      .instr (.spoly off x y z) (3 + xb.length + yb.length + zb.length)) ∧
  ∀ (a b c d e f : Byte) (r : List Byte) (w w' w'' : Word),
    w.toNat = 256 * a.toNat + b.toNat → w'.toNat = 256 * b.toNat + c.toNat → w''.toNat = 256 * d.toNat + e.toNat →
    decode (0x00 :: a :: b :: c :: r) = .instr (.movi a w') 4 ∧
    decode (0x01 :: a :: b :: r) = .instr (.mov a b) 3 ∧
    decode (0x03 :: a :: b :: c :: r) = .instr (.addi a w') 4 ∧
    decode (0x04 :: a :: b :: r) = .instr (.call w) 3 ∧
    decode (0x05 :: r) = .instr .ret 1 ∧
    decode (0x06 :: r) = .instr .pause 1 ∧
    decode (0x07 :: a :: b :: r) = .instr (.jmp w) 3 ∧
    decode (0x08 :: a :: b :: c :: r) = .instr (.setvec a w') 4 ∧
    decode (0x09 :: a :: b :: c :: r) = .instr (.jnz a w') 4 ∧
    (a.getLsbD 7 = true → decode (0x0A :: a :: b :: c :: d :: e :: r) = .instr (.condJmpVar a b c w'') 6) ∧
    (a.getLsbD 7 = false → a.getLsbD 6 = false → decode (0x0A :: a :: b :: c :: d :: e :: r) = .instr (.condJmpImm8 a b c w'') 6) ∧
    (a.getLsbD 7 = false → a.getLsbD 6 = true → ∀ imm : Word, imm.toNat = 256 * c.toNat + f.toNat →
      decode (0x0A :: a :: b :: c :: f :: d :: e :: r) = .instr (.condJmpImm16 a b imm w'') 7) ∧
    decode (0x0B :: a :: b :: r) = .instr (.setpal w) 3 ∧
    decode (0x0C :: a :: b :: c :: r) = .instr (.thrctl a b c) 4 ∧
    decode (0x0D :: a :: r) = .instr (.selpage a) 2 ∧
    decode (0x0E :: a :: b :: r) = .instr (.fillpage a b) 3 ∧
    decode (0x0F :: a :: b :: r) = .instr (.copypage a b) 3 ∧
    decode (0x10 :: a :: r) = .instr (.blit a) 2 ∧
    decode (0x11 :: r) = .instr .kill 1 ∧
    decode (0x15 :: a :: b :: c :: r) = .instr (.ori a w') 4 ∧
    decode (0x19 :: a :: b :: r) = .instr (.update w) 3 ∧
    (illegalOpcode a = true → decode (a :: r) = .instr (.illegal a) 1)

/-- The length of an instruction, found from its opcode byte, and for `cond_jmp` from its second byte
(30_encoding.md R91, R99, R100). -/
def Obligations.LengthFromFirstBytes : Prop :=
  ∀ (op : Byte) (r : List Byte) (i : Instr) (n : Nat), decode (op :: r) = .instr i n →
    1 ≤ n ∧ n ≤ 8 ∧
    (op.getLsbD 7 = true → n = 4) ∧
    (op.getLsbD 7 = false → op.getLsbD 6 = true →
      n = 3 + (if modeBits op 4 = 0 then 2 else 1) + (if modeBits op 2 = 0 then 2 else 1)
        + (if modeBits op 0 = 1 ∨ modeBits op 0 = 2 then 1 else 0)) ∧
    (op = 0x0A → ∃ cc r', r = cc :: r' ∧ n = if cc.getLsbD 7 = false ∧ cc.getLsbD 6 = true then 7 else 6) ∧
    (op.toNat < 0x40 → op ≠ 0x0A → ∀ r' i' n', decode (op :: r') = .instr i' n' → n' = n)

/-- Words written out from the spec's own examples decode to the instructions they stand for. -/
def Obligations.KnownWordsDecode : Prop :=
  decode [0x00, 0x0A, 0xFF, 0xFE] = .instr (.movi 10 0xFFFE) 4 ∧
  decode [0x03, 0x01, 0x00, 0x01] = .instr (.addi 1 1) 4 ∧
  decode [0x0A, 0x02, 0x01, 0x05, 0x00, 0x40] = .instr (.condJmpImm8 2 1 5 0x40) 6 ∧
  decode [0x0C, 0x02, 0x04, 0x01] = .instr (.thrctl 2 4 1) 4 ∧
  decode [0x0F, 0x00, 0x01] = .instr (.copypage 0 1) 3 ∧
  decode [0x19, 0x3E, 0x81] = .instr (.update 0x3E81) 3 ∧
  decode [0x6B, 0x00, 0x10, 0xA0, 0x64] = .instr (.spoly 0x10 (.imm8 0xA0) (.imm8 0x64) .secondary) 5 ∧
  decode [0x81, 0x00, 0xFA, 0xD2] = .instr (.bpoly 0x100 0xFA 0xD2) 4

/-! ## Fetch and execution of one instruction -/

/-- Where the bytes at `pc` decode to an instruction, that instruction is well formed, and one step of a slice is its
meaning with `insn_pc` latched and `pc` past its bytes (47_scheduler.md R255). -/
def Obligations.StepRunsTheDecodedInstruction : Prop :=
  ∀ (s : State) (i : Instr) (n : Nat), s.fault = none → s.phase = .slice → s.yield = false →
    s.seg.bytecode.len ≤ 0xFFFF → decode (fetchWindow s) = .instr i n →
    i.wellFormed = true ∧ step s = exec i { s with insnPc := s.pc, pc := s.pc + BitVec.ofNat 16 n }

/-- Where the bytes readable at `pc` begin with the encoding of a well-formed instruction, one step of a slice is its
meaning. -/
def Obligations.StepRunsTheEncodedBytes : Prop :=
  ∀ (s : State) (i : Instr), s.fault = none → s.phase = .slice → s.yield = false → s.seg.bytecode.len ≤ 0xFFFF →
    i.wellFormed = true → window s .bytecode s.pc.toNat (encode i).length = encode i →
    step s = exec i { s with insnPc := s.pc, pc := s.pc + BitVec.ofNat 16 (encode i).length }

/-- A readable opcode byte that is one of the 45 illegal ones takes `ILLEGAL_OPCODE` with no operand fetched and no other
state changed; the meaning of the byte is that fault entry, in every state. -/
def Obligations.IllegalOpcodeFaults : Prop :=
  ((List.range 256).filter fun n => illegalOpcode (BitVec.ofNat 8 n)).length = 45 ∧
  (∀ (op : Byte) (s : State), exec (.illegal op) s = .next { s with
    fault := some (.illegalOpcode s.insnPc op)
    log := s.log ++ [⟨.fatal (.illegalOpcode s.insnPc op), s.insnPc, s.curThr⟩] }) ∧
  ∀ (s : State) (op : Byte), s.fault = none → s.phase = .slice → s.yield = false → s.seg.bytecode.len ≤ 0xFFFF →
    window s .bytecode s.pc.toNat 1 = [op] →
    (op = 0x02 ∨ op = 0x12 ∨ op = 0x13 ∨ op = 0x14 ∨ op = 0x16 ∨ op = 0x17 ∨ op = 0x18 ∨ op = 0x1A ∨
      (0x1B ≤ op.toNat ∧ op.toNat ≤ 0x3F)) →
    step s = .next { s with
      insnPc := s.pc
      pc := s.pc + 1
      fault := some (.illegalOpcode s.pc op)
      log := s.log ++ [⟨.fatal (.illegalOpcode s.pc op), s.pc, s.curThr⟩] } ∧
    (FatalFault.illegalOpcode s.pc op).code = 4

/-- Where only the first `k` bytes of an instruction can be fetched, k less than its length, the step takes
`SEGMENT_BOUNDS` at the offset where the first fetch starts that needs a byte past them, a word being fetched whole;
`pc` has passed the fetches before it, and `jnz` has counted its variable down where its variable byte was readable. -/
def Obligations.TruncatedFetchFaults : Prop :=
  ∀ (s : State) (i : Instr) (k used : Nat), s.fault = none → s.phase = .slice → s.yield = false →
    s.seg.bytecode.len ≤ 0xFFFF → i.wellFormed = true → k < (encode i).length → fetchWindow s = (encode i).take k →
    used = failingFetch k 0 (fetchWidths i) →
    ∃ t : State, step s = .next t ∧
      t = { s with
        v := t.v
        insnPc := s.pc
        pc := s.pc + BitVec.ofNat 16 used
        fault := some (.segmentBounds .bytecode (s.pc.toNat + used))
        log := s.log ++ [⟨.fatal (.segmentBounds .bytecode (s.pc.toNat + used)), s.pc, s.curThr⟩] } ∧
      (∀ d target, i = .jnz d target → 2 ≤ k → ∀ j, getVar t j = if j = d then getVar s d - 1 else getVar s j) ∧
      ((∀ d target, i ≠ .jnz d target) ∨ k < 2 → t.v = s.v)

/-- A machine that has taken a fatal fault stays as it is, for any number of steps. -/
def Obligations.HaltedMachineStays : Prop :=
  ∀ (s : State) (k : Nat), s.fault ≠ none → Sys2Proof.core.run k s = .next s

/-! ## Data movement and ALU -/

/-- `movi` and `mov` write the destination variable and nothing else. -/
def Obligations.MovesComplete : Prop :=
  (∀ (d : Byte) (imm : Word) (s : State), ∃ t, exec (.movi d imm) s = .next t ∧ t = { s with v := t.v } ∧
    (∀ j, getVar t j = if j = d then imm else getVar s j) ∧ ArenaSame s t) ∧
  ∀ (d src : Byte) (s : State), ∃ t, exec (.mov d src) s = .next t ∧ t = { s with v := t.v } ∧
    (∀ j, getVar t j = if j = d then getVar s src else getVar s j) ∧ ArenaSame s t

/-- `addi` writes the sum, reduced to a signed 16-bit value, and nothing else. -/
def Obligations.AddiCompletes : Prop :=
  ∀ (d : Byte) (imm : Word) (s : State), ∃ t, exec (.addi d imm) s = .next t ∧ t = { s with v := t.v } ∧
    (getVar t d).toInt = ((getVar s d).toInt + imm.toInt).bmod 65536 ∧
    (∀ j, j ≠ d → getVar t j = getVar s j) ∧ ArenaSame s t

/-- `ori` sets the bits of the mask in the variable, keeps its other bits, and writes nothing else. -/
def Obligations.OriCompletes : Prop :=
  ∀ (d : Byte) (mask : Word) (s : State), ∃ t, exec (.ori d mask) s = .next t ∧ t = { s with v := t.v } ∧
    (∀ k, (getVar t d).getLsbD k = ((getVar s d).getLsbD k || mask.getLsbD k)) ∧
    (∀ j, j ≠ d → getVar t j = getVar s j) ∧ ArenaSame s t

/-! ## Control transfer -/

/-- `call` pushes the offset after itself and goes to its target; with 255 entries held it takes `STACK_OVERFLOW`. -/
def Obligations.CallCompletes : Prop :=
  ∀ (target : Word) (s : State),
    (s.sp.toNat < 255 → ∃ t, exec (.call target) s = .next t ∧
      t = { s with stack := t.stack, sp := t.sp, pc := target } ∧ t.sp.toNat = s.sp.toNat + 1 ∧
      (∀ j : Fin 255, t.stack[j] = if j.val = s.sp.toNat then s.pc else s.stack[j]) ∧ ArenaSame s t) ∧
    (s.sp.toNat = 255 → exec (.call target) s = .next { s with
      fault := some (.stackOverflow s.insnPc)
      log := s.log ++ [⟨.fatal (.stackOverflow s.insnPc), s.insnPc, s.curThr⟩] })

/-- `ret` takes the last entry off the stack and goes there; with none held it takes `STACK_UNDERFLOW`. -/
def Obligations.RetCompletes : Prop :=
  ∀ s : State,
    (∀ j : Fin 255, s.sp.toNat = j.val + 1 → ∃ t, exec .ret s = .next t ∧
      t = { s with sp := t.sp, pc := s.stack[j] } ∧ t.sp.toNat = j.val ∧ ArenaSame s t) ∧
    (s.sp.toNat = 0 → exec .ret s = .next { s with
      fault := some (.stackUnderflow s.insnPc)
      log := s.log ++ [⟨.fatal (.stackUnderflow s.insnPc), s.insnPc, s.curThr⟩] })

/-- A `call`, a balanced body in the same slice with no fault, and the `ret` that ends it lead to the instruction right
after the `call`, with the stack pointer as before. -/
def Obligations.CallRetRoundTrip : Prop :=
  ∀ (s u w x : State) (target : Word) (m n : Nat),
    Runs s (.call target) m u → Balanced u w → Runs w .ret n x → x.pc = s.pc + BitVec.ofNat 16 m ∧ x.sp = s.sp

/-- `jmp` writes `pc`, whatever the target; `jnz` counts the variable down, wrapping, and jumps unless it has become
0. -/
def Obligations.JmpAndJnzComplete : Prop :=
  (∀ (target : Word) (s : State), ∃ t, exec (.jmp target) s = .next t ∧ t = { s with pc := target } ∧ ArenaSame s t) ∧
  ∀ (d : Byte) (target : Word) (s : State), ∃ t, exec (.jnz d target) s = .next t ∧
    t = { s with v := t.v, pc := if (getVar t d).toInt = 0 then s.pc else target } ∧
    (getVar t d).toInt = ((getVar s d).toInt - 1).bmod 65536 ∧
    (∀ j, j ≠ d → getVar t j = getVar s j) ∧ ArenaSame s t

/-- `cond_jmp` in its three forms: the variable is compared with the operand as a signed integer by the comparator
`cc[2:0]`; a true comparison jumps; comparators 6 and 7 are logged and do not jump. -/
def Obligations.CondJmpCompletes : Prop :=
  ∀ (i : Instr) (cc a : Byte) (target : Word) (s : State) (operand : Int),
    ((∃ b, i = .condJmpVar cc a b target ∧ operand = (getVar s b).toInt) ∨
      (∃ imm, i = .condJmpImm16 cc a imm target ∧ operand = imm.toInt) ∨
      (∃ imm : Byte, i = .condJmpImm8 cc a imm target ∧ operand = (imm.toNat : Int))) →
    ∃ t, exec i s = .next t ∧
      t = { s with
        pc :=
          if (cc.toNat % 8 = 0 ∧ (getVar s a).toInt = operand) ∨ (cc.toNat % 8 = 1 ∧ (getVar s a).toInt ≠ operand) ∨
            (cc.toNat % 8 = 2 ∧ (getVar s a).toInt > operand) ∨ (cc.toNat % 8 = 3 ∧ (getVar s a).toInt ≥ operand) ∨
            (cc.toNat % 8 = 4 ∧ (getVar s a).toInt < operand) ∨ (cc.toNat % 8 = 5 ∧ (getVar s a).toInt ≤ operand)
          then target else s.pc
        log := if cc.toNat % 8 < 6 then s.log else s.log ++ [⟨.soft (.badComparator s.insnPc cc), s.insnPc, s.curThr⟩] } ∧
      ArenaSame s t

/-! ## Thread control -/

/-- `setvec` stages a redirect for a thread id below 64; any other id is `INDEX_RANGE`. -/
def Obligations.SetvecCompletes : Prop :=
  ∀ (id : Byte) (off : Word) (s : State),
    (id.toNat < 64 → ∃ t, exec (.setvec id off) s = .next t ∧ t = { s with redir := t.redir } ∧
      (∀ j : Fin 64, t.redir[j] = if j.val = id.toNat then off else s.redir[j]) ∧ ArenaSame s t) ∧
    (64 ≤ id.toNat → exec (.setvec id off) s = .next { s with
      fault := some (.threadId s.insnPc id)
      log := s.log ++ [⟨.fatal (.threadId s.insnPc id), s.insnPc, s.curThr⟩] })

/-- `pause` sets the yield flag and nothing else; `kill` sets it and makes `pc` the inactive sentinel. -/
def Obligations.PauseAndKillComplete : Prop :=
  ∀ s : State,
    (∃ t, exec .pause s = .next t ∧ t = { s with yield := true } ∧ ArenaSame s t) ∧
    ∃ t, exec .kill s = .next t ∧ t = { s with pc := 0xFFFF, yield := true } ∧ ArenaSame s t

/-- `thrctl` stages, for the threads from `first` to `last` modulo 64: mode 0 a resume, mode 1 a hold, mode 2 a
deactivation, any other mode nothing; a `first` above that bound is `INDEX_RANGE`. -/
def Obligations.ThrctlCompletes : Prop :=
  ∀ (first last mode : Byte) (s : State),
    (first.toNat ≤ last.toNat % 64 → ∃ t, exec (.thrctl first last mode) s = .next t ∧
      t = { s with pausedReq := t.pausedReq, redir := t.redir } ∧
      (∀ j : Fin 64, t.pausedReq[j] =
        if first.toNat ≤ j.val ∧ j.val ≤ last.toNat % 64 ∧ mode.toNat < 2 then decide (mode.toNat = 1) else s.pausedReq[j]) ∧
      (∀ j : Fin 64, t.redir[j] =
        if first.toNat ≤ j.val ∧ j.val ≤ last.toNat % 64 ∧ mode.toNat = 2 then 0xFFFE else s.redir[j]) ∧ ArenaSame s t) ∧
    (last.toNat % 64 < first.toNat → exec (.thrctl first last mode) s = .next { s with
      fault := some (.threadRange s.insnPc first (BitVec.ofNat 8 (last.toNat % 64)))
      log := s.log ++ [⟨.fatal (.threadRange s.insnPc first (BitVec.ofNat 8 (last.toNat % 64))), s.insnPc, s.curThr⟩] })

/-! ## Video pages and palette -/

/-- `ResolvePage`: ids 0 to 3 are pages, 0xFE and 0xFF the two aliases, any other id is logged and is page 0. -/
def Obligations.ResolvePageTable : Prop :=
  ∀ (s : State) (id : Byte),
    (∀ p : Fin 4, id.toNat = p.val → resolvePage s id = (p, s)) ∧
    (id = 0xFE → resolvePage s id = (s.ptr2, s)) ∧
    (id = 0xFF → resolvePage s id = (s.ptr3, s)) ∧
    (4 ≤ id.toNat → id.toNat < 0xFE →
      resolvePage s id = (0, { s with log := s.log ++ [⟨.soft (.badPageId s.insnPc id), s.insnPc, s.curThr⟩] }))

/-- `setpal` requests the palette the high byte names; an id of 32 or more is logged and changes nothing. -/
def Obligations.SetpalCompletes : Prop :=
  ∀ (w : Word) (id : Byte) (s : State), id.toNat = w.toNat / 256 →
    ∃ t, exec (.setpal w) s = .next t ∧
      t = { s with
        reqPal := if id.toNat < 32 then id else s.reqPal
        log := if id.toNat < 32 then s.log else s.log ++ [⟨.soft (.badPaletteId s.insnPc id), s.insnPc, s.curThr⟩] } ∧
      ArenaSame s t

/-- `selpage` makes the draw target the page its id resolves to. -/
def Obligations.SelpageCompletes : Prop :=
  ∀ (id : Byte) (s : State), ∃ t, exec (.selpage id) s = .next t ∧
    t = { s with ptr1 := (resolvePage s id).1, log := (resolvePage s id).2.log } ∧ ArenaSame s t

/-- `fillpage` makes every byte of the page its colour in both nibbles, so that every pixel has a colour below 16, and
leaves the other pages as they were. -/
def Obligations.FillpageCompletes : Prop :=
  ∀ (id colour : Byte) (s : State), ∃ t, exec (.fillpage id colour) s = .next t ∧
    t = { s with pages := t.pages, log := (resolvePage s id).2.log } ∧
    (∀ k, k < 32000 → (t.pages[(resolvePage s id).1].byte k).toNat = (colour.toNat * 16 ||| colour.toNat) % 256) ∧
    (colour.toNat < 16 → ∀ x y, x < 320 → y < 200 → (t.pages[(resolvePage s id).1].pixel x y).toNat = colour.toNat) ∧
    (∀ p : Fin 4, p ≠ (resolvePage s id).1 → t.pages[p] = s.pages[p]) ∧ ArenaSame s t

/-- `copypage` does nothing for equal ids. For two different ids of one page nothing is copied, and an invalid id is
logged: 92_eei_decisions.md D18 and not the pseudocode of 43_video_page.md R172, the model's choice, log entry 17.
Otherwise byte i of destination row y becomes byte i of source row y - v[0xF9] where that is a row, and keeps its value
where it is not. -/
def Obligations.CopypageCompletes : Prop :=
  ∀ (src dst : Byte) (s : State),
    (src = dst → exec (.copypage src dst) s = .next s) ∧
    (src ≠ dst → (resolvePage s src).1 = (resolvePage s dst).1 → ∃ t, exec (.copypage src dst) s = .next t ∧
      t = { s with log := (resolvePage (resolvePage s src).2 dst).2.log } ∧ ArenaSame s t) ∧
    ((resolvePage s src).1 ≠ (resolvePage s dst).1 → ∃ t, exec (.copypage src dst) s = .next t ∧
      t = { s with pages := t.pages, log := (resolvePage (resolvePage s src).2 dst).2.log } ∧
      (∀ y k : Nat, y < 200 → k < 160 →
        t.pages[(resolvePage s dst).1].byte (y * 160 + k) =
          if 0 ≤ (y : Int) - (getVar s 0xF9).toInt ∧ (y : Int) - (getVar s 0xF9).toInt < 200 then
            s.pages[(resolvePage s src).1].byte (((y : Int) - (getVar s 0xF9).toInt).toNat * 160 + k)
          else s.pages[(resolvePage s dst).1].byte (y * 160 + k)) ∧
      (∀ p : Fin 4, p ≠ (resolvePage s dst).1 → t.pages[p] = s.pages[p]) ∧ ArenaSame s t)

/-- `Pace()`, for every clock: a sleep is asked for exactly when less time has elapsed than `v[0xFF]` slices of 20 ms,
a clock gone backwards counting as none; the second sample is kept. -/
def Obligations.PaceRule : Prop :=
  ∀ (clock : Nat → Nat) (s : State) (now elapsed : Nat) (budget : Int), now = clock s.hostTick →
    elapsed = (if s.lastTs ≤ now then now - s.lastTs else 0) → budget = (getVar s 0xFF).toInt * 20 →
    ((elapsed : Int) < budget → ∃ ms : Nat, 0 < ms ∧ (ms : Int) = budget - elapsed ∧
      pace clock s = { s with
        lastTs := clock (s.hostTick + 1)
        hostTick := s.hostTick + 2
        calls := s.calls ++ [.getTimestamp, .sleep ms, .getTimestamp] }) ∧
    (budget ≤ (elapsed : Int) →
      pace clock s = { s with
        lastTs := clock (s.hostTick + 1)
        hostTick := s.hostTick + 2
        calls := s.calls ++ [.getTimestamp, .getTimestamp] })

/-- `UpdateAliases` as the spec adopts it from general knowledge (log entry 22): 0xFE changes nothing, 0xFF swaps the two aliases, any other id sets the first to the page it
resolves to. -/
def Obligations.UpdateAliasesTable : Prop :=
  ∀ (s : State) (id : Byte),
    (id = 0xFE → updateAliases id s = s) ∧
    (id = 0xFF → updateAliases id s = { s with ptr2 := s.ptr3, ptr3 := s.ptr2 }) ∧
    (id.toNat < 0xFE → updateAliases id s =
      { s with ptr2 := if h : id.toNat < 4 then ⟨id.toNat, h⟩ else 0
               log := if id.toNat < 4 then s.log else s.log ++ [⟨.soft (.badPageId s.insnPc id), s.insnPc, s.curThr⟩] })

/-- `blit` paces, updates the aliases, applies a pending palette and presents the draw target. A pending palette whose
32 bytes are readable is loaded, handed over and no longer pending; one with only `k` readable bytes takes
`SEGMENT_BOUNDS`, with those loaded, the aliases updated and nothing presented. -/
def Obligations.BlitCompletes : Prop :=
  ∀ (id : Byte) (s a : State), a = updateAliases id (pace Config.timestamp s) →
    a = { s with lastTs := a.lastTs, hostTick := a.hostTick, calls := a.calls, ptr2 := a.ptr2, ptr3 := a.ptr3, log := a.log } ∧
    (s.reqPal = 0xFF → ∃ t, exec (.blit id) s = .next t ∧ t = { a with calls := a.calls ++ [.present a.pages[a.ptr1]] } ∧
      ArenaSame s t) ∧
    (s.reqPal ≠ 0xFF → ∀ pal : Vector Byte 32, window s .palette (32 * s.reqPal.toNat) 32 = pal.toList →
      ∃ t, exec (.blit id) s = .next t ∧
        t = { a with
          curPal := pal
          reqPal := 0xFF
          calls := a.calls ++ [.setPalette pal, .present a.pages[a.ptr1]] } ∧ ArenaSame s t) ∧
    (s.reqPal ≠ 0xFF → ∀ k, k < 32 → (window s .palette (32 * s.reqPal.toNat) 32).length = k →
      ∃ t, exec (.blit id) s = .next t ∧
        t = { a with
          curPal := t.curPal
          fault := some (.segmentBounds .palette (32 * s.reqPal.toNat + k))
          log := a.log ++ [⟨.fatal (.segmentBounds .palette (32 * s.reqPal.toNat + k)), s.insnPc, s.curThr⟩] } ∧
        (∀ j : Fin 32, t.curPal[j] =
          if j.val < k then (window s .palette (32 * s.reqPal.toNat) 32).getD j.val 0 else s.curPal[j]) ∧ ArenaSame s t)

/-! ## Resource control -/

/-- `update`: id 0 tells the loader to invalidate, an id from 0x3E80 on stages a part switch, any other id is loaded at
once, and a load that fails is `RESOURCE_ERROR`. For every answer of the loader, the bytes it writes outside the four
current segments land in the arena, and no other byte changes. -/
def Obligations.UpdateCompletes : Prop :=
  ∀ (id : Word) (s : State),
    (id = 0 → exec (.update id) s = .next (invalidateResource (Config.invalidate s.hostTick) s)) ∧
    (0x3E80 ≤ id.toNat → ∃ t, exec (.update id) s = .next t ∧ t = { s with reqPart := id } ∧ ArenaSame s t) ∧
    (id ≠ 0 → id.toNat < 0x3E80 →
      exec (.update id) s = .next (loadMemoryEntry (Config.loadEntry s.hostTick id) id s)) ∧
    (∀ ws : List Host.Cell, ∃ t, invalidateResource ws s = t ∧
      t = { s with mem := t.mem, hostTick := s.hostTick + 1, calls := s.calls ++ [.invalidateResource] } ∧
      LoaderWrote (outsideSegments s.arenaSize s.seg) ws s.mem t.mem) ∧
    ∀ a : LoadAnswer, ∃ t, loadMemoryEntry a id s = t ∧
      t = { s with
        mem := t.mem
        hostTick := s.hostTick + 1
        calls := s.calls ++ [.loadMemoryEntry id]
        fault := if a.ok then s.fault else some (.loadFailed s.insnPc id)
        log := if a.ok then s.log else s.log ++ [⟨.fatal (.loadFailed s.insnPc id), s.insnPc, s.curThr⟩] } ∧
      LoaderWrote (outsideSegments s.arenaSize s.seg) a.writes s.mem t.mem

/-! ## Polygons -/

/-- `spoly` and `bpoly` of a readable direct polygon record complete: the record's own colour, the scaled box and points,
filled at the anchor on the draw target; nothing but the pages changes. A record of which only the first bytes can be
read, none of them, or some of a direct record whose count, if it is among them, is legal and asks for more, or some of
the first four of a hierarchy, takes `SEGMENT_BOUNDS` at the offset after them, with nothing painted. -/
def Obligations.DirectRecordIsDrawn : Prop :=
  ∀ (i : Instr) (s : State) (c : DrawCall), drawCall s i = some c →
    (∀ (disc w h n : Byte) (body : List Byte),
      window s c.seg c.off (4 + 2 * n.toNat) = disc :: w :: h :: n :: body → body.length = 2 * n.toNat →
      0xC0 ≤ disc.toNat → n.toNat % 2 = 0 → n.toNat < 50 →
      ∃ t, exec i s = .next t ∧
        t = { s with
          pages := fillPolygon s.pages s.ptr1
            { bbw := scale w c.zoom, bbh := scale h c.zoom, pts := recordPoints c.zoom n.toNat body }
            (BitVec.ofNat 8 (disc.toNat % 64)) c.x c.y } ∧ ArenaSame s t) ∧
    ∀ (bytes : List Byte) (disc n : Byte), window s c.seg c.off (bytes.length + 1) = bytes →
      (bytes = [] ∨
        (bytes[0]? = some disc ∧ 0xC0 ≤ disc.toNat ∧ (bytes.length < 4 ∨
          (bytes[3]? = some n ∧ n.toNat % 2 = 0 ∧ n.toNat < 50 ∧ bytes.length < 4 + 2 * n.toNat))) ∨
        (bytes[0]? = some disc ∧ disc.toNat < 0xC0 ∧ disc.toNat % 64 = 2 ∧ 1 ≤ s.hierDepthMax ∧ bytes.length < 4)) →
      exec i s = .next { s with
        fault := some (.segmentBounds c.seg (c.off + bytes.length))
        log := s.log ++ [⟨.fatal (.segmentBounds c.seg (c.off + bytes.length)), s.insnPc, s.curThr⟩] }

/-- A record that is neither direct nor a hierarchy draws nothing and is logged. -/
def Obligations.BadDiscriminatorDrawsNothing : Prop :=
  ∀ (i : Instr) (s : State) (c : DrawCall) (disc : Byte), drawCall s i = some c → window s c.seg c.off 1 = [disc] →
    disc.toNat < 0xC0 → disc.toNat % 64 ≠ 2 →
    ∃ t, exec i s = .next t ∧
      t = { s with log := s.log ++
        [⟨.soft (.badPolyDiscriminator s.insnPc c.off (BitVec.ofNat 8 (disc.toNat % 64))), s.insnPc, s.curThr⟩] } ∧
      ArenaSame s t

/-- A vertex count that is odd or not below 50 takes `BAD_VERTEX_COUNT`, whether or not the points are readable. -/
def Obligations.BadVertexCountFaults : Prop :=
  ∀ (i : Instr) (s : State) (c : DrawCall) (disc w h n : Byte), drawCall s i = some c →
    window s c.seg c.off 4 = [disc, w, h, n] → 0xC0 ≤ disc.toNat → (n.toNat % 2 = 1 ∨ 50 ≤ n.toNat) →
    exec i s = .next { s with
      fault := some (.badVertexCount s.insnPc (c.off + 3) n)
      log := s.log ++ [⟨.fatal (.badVertexCount s.insnPc (c.off + 3) n), s.insnPc, s.curThr⟩] }

/-- A hierarchy whose first child is itself takes `HIER_DEPTH`, for every depth limit, with nothing painted. -/
def Obligations.SelfReferentialHierarchyFaults : Prop :=
  ∀ (i : Instr) (s : State) (c : DrawCall) (disc ax ay last hi lo dx dy : Byte), drawCall s i = some c →
    window s c.seg c.off 8 = [disc, ax, ay, last, hi, lo, dx, dy] → disc.toNat < 0xC0 → disc.toNat % 64 = 2 →
    2 * (hi.toNat * 256 + lo.toNat) = c.off →
    exec i s = .next { s with
      fault := some (.hierDepth s.insnPc (c.off + 1))
      log := s.log ++ [⟨.fatal (.hierDepth s.insnPc (c.off + 1)), s.insnPc, s.curThr⟩] }

/-- A draw with `spoly` or `bpoly` is that of its record with as many hierarchy records still to be opened as the depth
limit says. A direct record is filled in the colour passed in where its bit 7 is clear, and in its own where it is set. A
hierarchy with none left takes `HIER_DEPTH`. With one left, and its first children stored as `children`, they are drawn in
stored order, with one less, each read right after the one before it. Where they are all its children the hierarchy is
those draws; where one of them faults it ends so, with what the earlier ones painted, as with a child whose vertex count
is bad, or a next child record that runs off the segment, a child word being fetched whole. A child that is a readable
direct record is filled in its colour byte's low 7 bits where it has colour bytes, and in its own colour where it has
none; one that is neither direct nor a hierarchy is logged and skipped. -/
def Obligations.HierarchyDrawsItsChildren : Prop :=
  (∀ (i : Instr) (s : State) (c : DrawCall), drawCall s i = some c → ∃ t, exec i s = .next t ∧
    (readAndDraw c.seg c.zoom s.hierDepthMax s 0xFF c.x c.y c.off = .ok t ∨
      readAndDraw c.seg c.zoom s.hierDepthMax s 0xFF c.x c.y c.off = .error t)) ∧
  (∀ (s : State) (g : Segment) (zoom x y : Word) (depth dp : Nat) (colour disc w h n : Byte) (body : List Byte),
    window s g dp (4 + 2 * n.toNat) = disc :: w :: h :: n :: body → body.length = 2 * n.toNat →
    0xC0 ≤ disc.toNat → n.toNat % 2 = 0 → n.toNat < 50 →
    readAndDraw g zoom depth s colour x y dp = .ok { s with
      pages := fillPolygon s.pages s.ptr1 { bbw := scale w zoom, bbh := scale h zoom, pts := recordPoints zoom n.toNat body }
        (if 128 ≤ colour.toNat then BitVec.ofNat 8 (disc.toNat % 64) else colour) x y }) ∧
  (∀ (s : State) (g : Segment) (zoom x y : Word) (dp : Nat) (colour disc : Byte),
    window s g dp 1 = [disc] → disc.toNat < 0xC0 → disc.toNat % 64 = 2 →
    readAndDraw g zoom 0 s colour x y dp = .error { s with
      fault := some (.hierDepth s.insnPc (dp + 1))
      log := s.log ++ [⟨.fatal (.hierDepth s.insnPc (dp + 1)), s.insnPc, s.curThr⟩] }) ∧
  ∀ (s : State) (g : Segment) (zoom x y cx cy : Word) (depth dp next : Nat) (colour disc ax ay last : Byte)
    (children : List ChildBytes),
    disc.toNat < 0xC0 → disc.toNat % 64 = 2 → cx = x - scale ax zoom → cy = y - scale ay zoom → (∀ c ∈ children, c.fits) →
    window s g dp (4 + (children.flatMap ChildBytes.stored).length) =
      disc :: ax :: ay :: last :: children.flatMap ChildBytes.stored →
    next = dp + 4 + (children.flatMap ChildBytes.stored).length →
    (children.length = last.toNat + 1 →
      readAndDraw g zoom (depth + 1) s colour x y dp = children.foldlM (drawChild g zoom cx cy depth) s) ∧
    (children.length ≤ last.toNat + 1 → ∀ e, children.foldlM (drawChild g zoom cx cy depth) s = .error e →
      readAndDraw g zoom (depth + 1) s colour x y dp = .error e) ∧
    (children.length ≤ last.toNat + 1 → ∀ (front : List ChildBytes) (c : ChildBytes) (t : State) (d w h n : Byte),
      children = front ++ [c] → front.foldlM (drawChild g zoom cx cy depth) s = .ok t →
      window t g c.target 4 = [d, w, h, n] → 0xC0 ≤ d.toNat → (n.toNat % 2 = 1 ∨ 50 ≤ n.toNat) →
      readAndDraw g zoom (depth + 1) s colour x y dp = .error { t with
        fault := some (.badVertexCount s.insnPc (c.target + 3) n)
        log := t.log ++ [⟨.fatal (.badVertexCount s.insnPc (c.target + 3) n), s.insnPc, s.curThr⟩] }) ∧
    (children.length ≤ last.toNat → ∀ (t : State) (rest : List Byte) (off : Nat),
      children.foldlM (drawChild g zoom cx cy depth) s = .ok t → window s g next 6 = rest →
      rest.length < (if 128 ≤ (rest.getD 0 0).toNat then 6 else 4) →
      off = failingFetch rest.length 0 [2, 1, 1, 1, 1] →
      readAndDraw g zoom (depth + 1) s colour x y dp = .error { t with
        fault := some (.segmentBounds g (next + off))
        log := t.log ++ [⟨.fatal (.segmentBounds g (next + off)), s.insnPc, s.curThr⟩] }) ∧
    (∀ (c : ChildBytes) (t : State) (d w h n : Byte) (body : List Byte),
      window t g c.target (4 + 2 * n.toNat) = d :: w :: h :: n :: body → body.length = 2 * n.toNat →
      0xC0 ≤ d.toNat → n.toNat % 2 = 0 → n.toNat < 50 →
      drawChild g zoom cx cy depth t c = .ok { t with
        pages := fillPolygon t.pages t.ptr1 { bbw := scale w zoom, bbh := scale h zoom, pts := recordPoints zoom n.toNat body }
          (if 128 ≤ c.hi.toNat then BitVec.ofNat 8 ((c.extra.getD 0 0).toNat % 128) else BitVec.ofNat 8 (d.toNat % 64))
          (cx + scale c.dx zoom) (cy + scale c.dy zoom) }) ∧
    ∀ (c : ChildBytes) (t : State) (d : Byte), window t g c.target 1 = [d] → d.toNat < 0xC0 → d.toNat % 64 ≠ 2 →
      drawChild g zoom cx cy depth t c = .ok { t with
        log := t.log ++ [⟨.soft (.badPolyDiscriminator t.insnPc c.target (BitVec.ofNat 8 (d.toNat % 64))), t.insnPc, t.curThr⟩] }

/-- What the rasterizer touches: a draw writes the draw target, the log and the fault register alone; and what it paints
there depends on the bytes of its segment, the depth limit, the draw target and page 0 alone. -/
def Obligations.RasterizerTouchesOnlyTheTarget : Prop :=
  (∀ (i : Instr) (s t : State) (c : DrawCall), drawCall s i = some c → exec i s = .next t →
    t = { s with pages := t.pages, log := t.log, fault := t.fault } ∧
    ∀ p : Fin 4, p ≠ s.ptr1 → t.pages[p] = s.pages[p]) ∧
  ∀ (i : Instr) (s s' t t' : State) (c : DrawCall), drawCall s i = some c → drawCall s' i = some c →
    (∀ off, window s c.seg off 1 = window s' c.seg off 1) → s.hierDepthMax = s'.hierDepthMax → s.ptr1 = s'.ptr1 →
    s.pages[s.ptr1] = s'.pages[s'.ptr1] → s.pages[(0 : Fin 4)] = s'.pages[(0 : Fin 4)] →
    exec i s = .next t → exec i s' = .next t' → t.pages[s.ptr1] = t'.pages[s'.ptr1]

/-- A pixel is the high nibble of its byte in an even column and the low nibble in an odd one; a pixel write replaces
that nibble and leaves every other pixel of the page unchanged. -/
def Obligations.PixelWriteThenRead : Prop :=
  ∀ (p : Page) (x y x' y' : Nat) (c : BitVec 4), x < 320 → y < 200 → x' < 320 → y' < 200 →
    (p.pixel x y).toNat =
      (if x % 2 = 0 then (p.byte (y * 160 + x / 2)).toNat / 16 else (p.byte (y * 160 + x / 2)).toNat % 16) ∧
    (p.setPixel x y c).pixel x' y' = if x' = x ∧ y' = y then c else p.pixel x' y'

/-- `PutPixel`: colours below 0x10 are solid, 0x10 sets bit 3 of the colour there, others copy the pixel of page 0; no
other pixel and no other page changes. -/
def Obligations.PutPixelPaints : Prop :=
  ∀ (pages : Pages) (dst q : Fin 4) (x y x' y' : Nat) (colour : Byte), x < 320 → y < 200 → x' < 320 → y' < 200 →
    (putPixel pages dst x y colour)[q].pixel x' y' =
      if q = dst ∧ x' = x ∧ y' = y then
        (if colour.toNat < 0x10 then colour.setWidth 4
         else if colour.toNat = 0x10 then pages[dst].pixel x y ||| 8
         else pages[(0 : Fin 4)].pixel x y)
      else pages[q].pixel x' y'

/-- `Span`: dropped whole when its first end is beyond the right edge or its second beyond the left; otherwise the pixels
of its row between the two ends, both included and truncated to the page, are painted, and nothing else. -/
def Obligations.SpanPaintsItsRun : Prop :=
  ∀ (pages : Pages) (dst q : Fin 4) (row x y : Nat) (x1 x2 : Int) (colour : Byte), row < 200 → x < 320 → y < 200 →
    (span pages dst row x1 x2 colour)[q].pixel x y =
      if q = dst ∧ y = row ∧ x1 ≤ 319 ∧ 0 ≤ x2 ∧ min (max x1 0) (min x2 319) ≤ (x : Int) ∧
        (x : Int) ≤ max (max x1 0) (min x2 319) then
        paint colour (pages[dst].pixel x y) (pages[(0 : Fin 4)].pixel x y)
      else pages[q].pixel x y

/-- The rectangle property on the spec's own record: at anchor (100, 50) colour 5 on rows 48 to 51, columns 95 to 105; at
anchor (2, 50) on rows 48 to 51, columns 0 to 7; and nothing else. -/
def Obligations.RectangleRecordExample : Prop :=
  ∀ (s : State) (g : Segment) (off : Nat) (q : Fin 4) (x y : Nat),
    window s g off 12 = [0xC5, 0x0A, 0x04, 0x04, 0x0A, 0x00, 0x0A, 0x04, 0x00, 0x04, 0x00, 0x00] → x < 320 → y < 200 →
    (∃ t, drawShape s g off 0xFF 64 100 50 = .ok t ∧
      t.pages[q].pixel x y =
        if q = s.ptr1 ∧ 48 ≤ y ∧ y ≤ 51 ∧ 95 ≤ x ∧ x ≤ 105 then 5 else s.pages[q].pixel x y) ∧
    ∃ t, drawShape s g off 0xFF 64 2 50 = .ok t ∧
      t.pages[q].pixel x y = if q = s.ptr1 ∧ 48 ≤ y ∧ y ≤ 51 ∧ x ≤ 7 then 5 else s.pages[q].pixel x y

/-- The rectangle property in general: a rectangle of `w` by `h` units at any anchor, with coordinates that do not wrap,
paints the columns x - w/2 to x - w/2 + w of the `h` rows from y - h/2 on, clipped to the page, in every colour; it is
dropped where x + w/2 is left of the page. -/
def Obligations.RectangleIsPainted : Prop :=
  ∀ (pages : Pages) (dst q : Fin 4) (w h ax ay : Word) (colour : Byte) (x y : Nat),
    0 < w.toNat → w.toNat < 16384 → 0 < h.toNat → h.toNat < 16384 →
    -16384 ≤ ax.toInt → ax.toInt < 16384 → -16384 ≤ ay.toInt → ay.toInt < 16384 → x < 320 → y < 200 →
    (fillPolygon pages dst { bbw := w, bbh := h, pts := [(w, 0), (w, h), (0, h), (0, 0)] } colour ax ay)[q].pixel x y =
      if q = dst ∧ 0 ≤ ax.toInt + (w.toNat / 2 : Nat) ∧
        ax.toInt - (w.toNat / 2 : Nat) ≤ (x : Int) ∧ (x : Int) ≤ ax.toInt - (w.toNat / 2 : Nat) + w.toNat ∧
        ay.toInt - (h.toNat / 2 : Nat) ≤ (y : Int) ∧ (y : Int) < ay.toInt - (h.toNat / 2 : Nat) + h.toNat then
        paint colour (pages[dst].pixel x y) (pages[(0 : Fin 4)].pixel x y)
      else pages[q].pixel x y

/-- Filling a polygon of an even number of points, at any anchor and in any colour mode, paints on the draw target the
pixels that the whole-number description of `FillPolygon`, `EdgeWalk`, `Interp` and `DrawPoint` names, and no other. -/
def Obligations.FillPaintsThePolygon : Prop :=
  ∀ (pages : Pages) (dst q : Fin 4) (p : Polygon) (ax ay : Word) (colour : Byte) (x y : Nat),
    p.pts.length % 2 = 0 → x < 320 → y < 200 →
    (q = dst → polygonCovers p ax.toInt ay.toInt x y →
      (fillPolygon pages dst p colour ax ay)[q].pixel x y =
        paint colour (pages[dst].pixel x y) (pages[(0 : Fin 4)].pixel x y)) ∧
    (q ≠ dst ∨ ¬ polygonCovers p ax.toInt ay.toInt x y →
      (fillPolygon pages dst p colour ax ay)[q].pixel x y = pages[q].pixel x y)

/-- `Scale`: the product with the zoom divided by 64, rounded down, modulo 65536. -/
def Obligations.ScaleValue : Prop :=
  ∀ (b : Byte) (zoom : Word),
    (scale b zoom).toNat = b.toNat * zoom.toNat / 64 % 65536 ∧
    (zoom = 64 → (scale b zoom).toNat = b.toNat) ∧ (zoom = 0 → scale b zoom = 0) ∧
    (zoom.toNat ≤ 8224 → (scale b zoom).toNat < 32768) ∧
    (8224 < zoom.toNat → ∃ b' : Byte, 32768 ≤ b'.toNat * zoom.toNat / 64)

/-! ## Memory, faults, log -/

/-- `SegRead8` and `SegRead16`: a read outside the segment or the arena takes `SEGMENT_BOUNDS` whole; a word inside is
its two bytes, the first the more significant. -/
def Obligations.SegmentReads : Prop :=
  ∀ (s : State) (g : Segment) (off base len : Nat), base = (segOf s.seg g).base → len = (segOf s.seg g).len →
    (len ≤ off ∨ s.arenaSize ≤ base + off → segRead8 s g off = .error { s with
      fault := some (.segmentBounds g off)
      log := s.log ++ [⟨.fatal (.segmentBounds g off), s.insnPc, s.curThr⟩] }) ∧
    (off < len → base + off < s.arenaSize → segRead8 s g off = .ok (s.mem.read (base + off))) ∧
    (len ≤ off + 1 ∨ s.arenaSize ≤ base + off + 1 → segRead16 s g off = .error { s with
      fault := some (.segmentBounds g off)
      log := s.log ++ [⟨.fatal (.segmentBounds g off), s.insnPc, s.curThr⟩] }) ∧
    (off + 1 < len → base + off + 1 < s.arenaSize → ∃ w : Word, segRead16 s g off = .ok w ∧
      w.toNat = 256 * (s.mem.read (base + off)).toNat + (s.mem.read (base + off + 1)).toNat)

/-- A byte written by the loader reads back, every other byte reads as before, and the canonical form is kept. -/
def Obligations.MemoryReadAfterWrite : Prop :=
  ∀ (m : Memory) (a b : Nat) (x : Byte), m.wf = true →
    (m.write a x).wf = true ∧ (m.write a x).read b = if b = a then x else m.read b

/-- Logging a soft condition appends its record and does nothing else; and no rule reads the log: with any other log
contents a step does the same and appends the same records. -/
def Obligations.LogIsWriteOnly : Prop :=
  (∀ (s : State) (c : SoftCondition), logSoft s c = { s with log := s.log ++ [⟨.soft c, s.insnPc, s.curThr⟩] }) ∧
  ∀ (s : State) (l : List LogRecord),
    match step s with
    | .next t => ∃ new, t.log = s.log ++ new ∧ step { s with log := l } = .next { t with log := l ++ new }
    | .fault f => step { s with log := l } = .fault f
    | .refused r => step { s with log := l } = .refused r

/-! ## Scheduler -/

/-- The part-switch step: with no part requested nothing happens; otherwise the loader is asked, and where it answers with
a mapping it guarantees, the bytes it writes in the arena land there, the whole thread table is re-initialised, the
request is cleared and nothing else is touched, so that after the commit thread 0 alone gets a slice; where it fails,
`RESOURCE_ERROR` with the thread table as it was. The answer is a free value (log entry 4), and `SEG` and the arena after
a failure are as that answer left them (log entry 7): the model's choice. -/
def Obligations.PartSwitchStep : Prop :=
  ∀ s : State, s.fault = none → s.phase = .frameTop →
    (s.reqPart = 0 → step s = .next { s with phase := .commit }) ∧
    (s.reqPart ≠ 0 → step s = switchPart (Config.setupPart s.hostTick s.reqPart) s) ∧
    ∀ a : SetupAnswer,
      (a.ok = true → legalMapping s.arenaSize a.segs = true → ∃ t, switchPart a s = .next t ∧
        t = { s with
          thrPc := t.thrPc
          redir := t.redir
          pausedCur := t.pausedCur
          pausedReq := t.pausedReq
          reqPart := 0
          seg := a.segs
          mem := t.mem
          hostTick := s.hostTick + 1
          calls := s.calls ++ [.setupPart s.reqPart]
          phase := .commit } ∧
        (∀ u : Fin 64, t.thrPc[u] = (if u = 0 then 0 else 0xFFFF) ∧ t.redir[u] = 0xFFFF ∧ t.pausedCur[u] = false ∧
          t.pausedReq[u] = false ∧ getsSlice (commitStep t) u = decide (u = 0)) ∧
        LoaderWrote (fun addr => decide (addr < s.arenaSize)) a.writes s.mem t.mem) ∧
      (a.ok = false → ∃ t, switchPart a s = .next t ∧
        t = { s with
          seg := a.segs
          mem := t.mem
          hostTick := s.hostTick + 1
          calls := s.calls ++ [.setupPart s.reqPart]
          fault := some (.setupFailed s.reqPart)
          log := s.log ++ [⟨.fatal (.setupFailed s.reqPart), s.insnPc, s.curThr⟩] } ∧
        LoaderWrote (fun addr => decide (addr < s.arenaSize)) a.writes s.mem t.mem)

/-- The model's own stops, both for a host outside its contract: a mapping answered with ok that it may not answer is
refused, and a bytecode segment longer than 0xFFFF bytes stops the step before a fetch (log entry 3). -/
def Obligations.HostOutsideContractStops : Prop :=
  (∀ (s : State) (a : SetupAnswer), a.ok = true → legalMapping s.arenaSize a.segs = false →
    switchPart a s = .refused .hostOutsideContract) ∧
  ∀ s : State, s.fault = none → s.phase = .slice → s.yield = false → 0xFFFF < s.seg.bytecode.len →
    step s = .fault .bytecodeTooLong

/-- The commit: for every thread the requested hold becomes the current one, a staged redirect becomes its program
counter (or the inactive sentinel), and no redirect stays staged; nothing else changes. -/
def Obligations.CommitAppliesRequests : Prop :=
  ∀ s : State, s.fault = none → s.phase = .commit → ∃ t, step s = .next t ∧
    t = { s with thrPc := t.thrPc, redir := t.redir, pausedCur := t.pausedCur, phase := .select 0 } ∧
    (∀ u : Fin 64, t.pausedCur[u] = s.pausedReq[u] ∧ t.redir[u] = 0xFFFF ∧
      t.thrPc[u] =
        if s.redir[u] = 0xFFFF then s.thrPc[u] else if s.redir[u] = 0xFFFE then 0xFFFF else s.redir[u]) ∧
    ArenaSame s t

/-- The frame's loop: after the part-switch step and the commit it starts at thread 0, and after a slice it goes on with
the next id; the next slice is that of the least thread, from `n` on, that is not held and not inactive, and it starts at
the thread's program counter with an empty stack and the yield flag clear; where there is none, the frame is over. After
a fault nothing more happens. -/
def Obligations.SelectStartsTheLeastReadyThread : Prop :=
  ∀ (s : State) (n : Nat), s.fault = none →
    (s.phase = .select n → ∀ u : Fin 64, n ≤ u.val → s.pausedCur[u] = false → s.thrPc[u] ≠ 0xFFFF →
      (∀ u' : Fin 64, n ≤ u'.val → u'.val < u.val → s.pausedCur[u'] = true ∨ s.thrPc[u'] = 0xFFFF) →
      step s = .next { s with curThr := u, pc := s.thrPc[u], sp := 0, yield := false, phase := .slice }) ∧
    (s.phase = .select n → (∀ u : Fin 64, n ≤ u.val → s.pausedCur[u] = true ∨ s.thrPc[u] = 0xFFFF) →
      step s = .next { s with phase := .frameTop }) ∧
    (∀ t, s.phase = .frameTop → step s = .next t → t.fault = none → t.phase = .commit) ∧
    (s.phase = .commit → ∃ t, step s = .next t ∧ t.phase = .select 0) ∧
    (s.phase = .slice → s.yield = true → ∃ t, step s = .next t ∧ t.phase = .select (s.curThr.val + 1)) ∧
    (∀ t, s.phase = .slice → s.yield = false → step s = .next t → t.phase = .slice) ∧
    ∀ u : State, u.fault ≠ none → step u = .next u

/-- The end of a slice: with the yield flag set, `pc` is saved as the running thread's program counter, no other thread
changes, and the loop goes on with the next id. -/
def Obligations.SliceEndSavesPc : Prop :=
  ∀ s : State, s.fault = none → s.phase = .slice → s.yield = true → ∃ t, step s = .next t ∧
    t = { s with thrPc := t.thrPc, phase := .select (s.curThr.val + 1) } ∧
    (∀ u : Fin 64, t.thrPc[u] = if u = s.curThr then s.pc else s.thrPc[u]) ∧ ArenaSame s t

/-- A frame in which no thread gets a slice executes nothing, and every later frame leaves the machine as it is. -/
def Obligations.EmptyFrameIdlesForEver : Prop :=
  ∀ (s u : State), s.fault = none → s.phase = .frameTop → s.reqPart = 0 →
    u = { applyPending s with phase := .frameTop } → (∀ th : Fin 64, getsSlice (applyPending s) th = false) →
    ∀ k, Sys2Proof.core.run (3 * (k + 1)) s = .next u

/-- The first frame after reset, for every boot: no part switch, a commit that changes nothing, and the slice of thread 0,
the only thread that gets one, at offset 0. -/
def Obligations.FirstFrameStartsThreadZero : Prop :=
  ∀ b : Boot,
    (∀ u : Fin 64, getsSlice (State.resetWith b) u = decide (u = 0)) ∧
    Sys2Proof.core.run 2 (State.resetWith b) = .next { State.resetWith b with phase := .select 0 } ∧
    Sys2Proof.core.run 3 (State.resetWith b) =
      .next { State.resetWith b with curThr := 0, pc := 0, sp := 0, yield := false, phase := .slice }

/-- The reset values, for every boot: those the spec gives, `SEG` and `MEM` as the loader left them. That slot 0x3C holds
the seed even where the preset names it, and that the last of two presets of one slot stands, is the model's choice (log
entry 11). -/
def Obligations.ResetValues : Prop :=
  ∀ (b : Boot) (s : State), s = State.resetWith b →
    getVar s 0x3C = b.seed ∧
    (∀ i : Byte, i ≠ 0x3C → (∀ p ∈ b.preset, p.1 ≠ i) → getVar s i = 0) ∧
    (∀ (front back : List (Byte × Word)) (i : Byte) (x : Word), i ≠ 0x3C → b.preset = front ++ (i, x) :: back →
      (∀ p ∈ back, p.1 ≠ i) → getVar s i = x) ∧
    (∀ u : Fin 64, s.thrPc[u] = (if u = 0 then 0 else 0xFFFF) ∧ s.redir[u] = 0xFFFF ∧ s.pausedCur[u] = false ∧
      s.pausedReq[u] = false) ∧
    s.yield = false ∧ s.sp = 0 ∧ (∀ (p : Fin 4) (k : Nat), s.pages[p].byte k = 0) ∧
    s.ptr1 = 2 ∧ s.ptr2 = 2 ∧ s.ptr3 = 1 ∧ s.reqPal = 0xFF ∧ s.reqPart = 0 ∧ s.lastTs = 0 ∧ s.seg = b.seg ∧ s.mem = b.mem ∧
    s.fault = none ∧ s.log = []

/-! ## Rules of the whole machine -/

/-- Every instruction answers a next state, in which each register, `pc`, `FAULT` and `LOG` among them, has been written
only if the spec names the instruction for it: the fatal faults and soft conditions are those of its row of
60_exceptions.md R280. -/
def Obligations.EachRegisterHasItsWriters : Prop :=
  ∀ (i : Instr) (s : State), ∃ t, exec i s = .next t ∧
    t.thrPc = s.thrPc ∧ t.pausedCur = s.pausedCur ∧ t.curThr = s.curThr ∧ t.insnPc = s.insnPc ∧ t.seg = s.seg ∧
    t.arenaSize = s.arenaSize ∧ t.hierDepthMax = s.hierDepthMax ∧ t.phase = s.phase ∧
    (t.v = s.v ∨ (∃ d imm, i = .movi d imm) ∨ (∃ d src, i = .mov d src) ∨ (∃ d imm, i = .addi d imm) ∨
      (∃ d mask, i = .ori d mask) ∨ ∃ d target, i = .jnz d target) ∧
    (t.redir = s.redir ∨ (∃ id off, i = .setvec id off) ∨ ∃ first last mode, i = .thrctl first last mode) ∧
    (t.pausedReq = s.pausedReq ∨ ∃ first last mode, i = .thrctl first last mode) ∧
    (t.yield = s.yield ∨ i = .pause ∨ i = .kill) ∧
    (t.stack = s.stack ∨ ∃ target, i = .call target) ∧
    (t.sp = s.sp ∨ (∃ target, i = .call target) ∨ i = .ret) ∧
    (t.pages = s.pages ∨ (∃ id colour, i = .fillpage id colour) ∨ (∃ src dst, i = .copypage src dst) ∨
      (drawCall s i).isSome = true) ∧
    (t.ptr1 = s.ptr1 ∨ ∃ id, i = .selpage id) ∧
    ((t.ptr2 = s.ptr2 ∧ t.ptr3 = s.ptr3 ∧ t.curPal = s.curPal ∧ t.lastTs = s.lastTs) ∨ ∃ id, i = .blit id) ∧
    (t.reqPal = s.reqPal ∨ (∃ w, i = .setpal w) ∨ ∃ id, i = .blit id) ∧
    ((t.reqPart = s.reqPart ∧ t.mem = s.mem) ∨ ∃ id, i = .update id) ∧
    ((t.hostTick = s.hostTick ∧ t.calls = s.calls) ∨ (∃ id, i = .blit id) ∨ ∃ id, i = .update id) ∧
    (t.pc = s.pc ∨ writesPc i = true) ∧
    (t.fault = s.fault ∨ ∃ f, t.fault = some f ∧ f.code ∈ fatalCodes i) ∧
    ∃ new, t.log = s.log ++ new ∧ ((drawCall s i).isSome = true ∨ new.length ≤ 2) ∧
      ∀ r ∈ new, r.insnPc = s.insnPc ∧ r.thread = s.curThr ∧
        ((∃ f, r.what = .fatal f ∧ t.fault = some f ∧ f.code ∈ fatalCodes i) ∨
          ∃ c, r.what = .soft c ∧ c.code ∈ softCodes i)

/-- From one part switch to the next, code, polygons and palettes are constant: no step but the part switch changes a
segment register or a byte inside a current segment. -/
def Obligations.RunningPartIsConstant : Prop :=
  ∀ s t : State, step s = .next t → (s.phase = .frameTop → s.reqPart = 0) →
    t.seg = s.seg ∧ ∀ addr, outsideSegments s.arenaSize s.seg addr = false → t.mem.read addr = s.mem.read addr

/-- The two-phase property: between the commit and the end of the frame no step holds or releases a thread or moves a
thread's program counter, but for the thread whose slice is ending. -/
def Obligations.OnlyTheCommitChangesWhoRuns : Prop :=
  ∀ s t : State, (s.phase = .slice ∨ ∃ n, s.phase = .select n) → step s = .next t →
    ∀ u : Fin 64, t.pausedCur[u] = s.pausedCur[u] ∧
      ((s.phase = .slice → s.yield = true → u ≠ s.curThr) → t.thrPc[u] = s.thrPc[u])

/-- Every step keeps the invariant, and in a state that has it no step stops with a fault. -/
def Obligations.InvariantIsKept : Prop :=
  ∀ s : State, LegalState s → (∀ t, step s = .next t → LegalState t) ∧ ∀ f, step s ≠ .fault f

/-- Right after reset the invariant holds, for every boot that meets the loader's guarantees; the bare boot does. -/
def Obligations.InvariantHoldsAtReset : Prop :=
  (∀ b : Boot, b.mem.wf = true → (∀ c ∈ b.mem, c.1 < b.arenaSize) → legalMapping b.arenaSize b.seg = true →
    1 ≤ b.hierDepthMax → LegalState (State.resetWith b)) ∧
  LegalState State.reset
end

