-- ==== Sys2Proof/Laws/Words.lean ====
section
/-! SUPPORT. Byte order and bit fields: a word is its two bytes, the first the more significant; the opcode bytes of the
polygon instructions give their fields back. -/

namespace Sys2Proof

theorem bigEndian_toNat (h l : Byte) : (bigEndian h l).toNat = h.toNat * 256 + l.toNat := by
  have hl := l.isLt
  have hh := h.isLt
  simp only [bigEndian, BitVec.toNat_or, BitVec.toNat_shiftLeft, BitVec.toNat_setWidth, Nat.shiftLeft_eq]
  have e1 : h.toNat % 2 ^ 16 * 2 ^ 8 % 2 ^ 16 = 2 ^ 8 * h.toNat := by omega
  have e2 : l.toNat % 2 ^ 16 = l.toNat := by omega
  rw [e1, e2, ← Nat.two_pow_add_eq_or_of_lt hl]
  omega

theorem highByte_toNat (w : Word) : (highByte w).toNat = w.toNat / 256 := by
  have hw := w.isLt
  simp only [highByte, BitVec.toNat_setWidth, BitVec.toNat_ushiftRight, Nat.shiftRight_eq_div_pow]
  omega

theorem lowByte_toNat (w : Word) : (lowByte w).toNat = w.toNat % 256 := by
  simp only [lowByte, BitVec.toNat_setWidth]

@[simp] theorem bigEndian_highByte_lowByte (w : Word) : bigEndian (highByte w) (lowByte w) = w := by
  apply BitVec.eq_of_toNat_eq
  rw [bigEndian_toNat, highByte_toNat, lowByte_toNat]
  omega

@[simp] theorem highByte_bigEndian (h l : Byte) : highByte (bigEndian h l) = h := by
  have hl := l.isLt
  apply BitVec.eq_of_toNat_eq
  rw [highByte_toNat, bigEndian_toNat]
  omega

@[simp] theorem lowByte_bigEndian (h l : Byte) : lowByte (bigEndian h l) = l := by
  have hl := l.isLt
  apply BitVec.eq_of_toNat_eq
  rw [lowByte_toNat, bigEndian_toNat]
  omega

theorem bpolyField_toNat (op lo : Byte) : (bpolyField op lo).toNat = op.toNat % 128 * 256 + lo.toNat := by
  have hl := lo.isLt
  have hh := op.isLt
  simp only [bpolyField, BitVec.toNat_or, BitVec.toNat_shiftLeft, BitVec.toNat_setWidth, Nat.shiftLeft_eq]
  have e1 : op.toNat % 2 ^ 15 * 2 ^ 8 % 2 ^ 15 = 2 ^ 8 * (op.toNat % 128) := by omega
  have e2 : lo.toNat % 2 ^ 15 = lo.toNat := by omega
  rw [e1, e2, ← Nat.two_pow_add_eq_or_of_lt hl]
  omega

theorem bpolyOpcode_toNat (off : BitVec 15) : (bpolyOpcode off).toNat = 128 + off.toNat / 256 := by
  have ho := off.isLt
  simp only [bpolyOpcode, BitVec.toNat_or, BitVec.toNat_setWidth, BitVec.toNat_ushiftRight, Nat.shiftRight_eq_div_pow]
  have e1 : off.toNat / 2 ^ 8 % 2 ^ 8 = off.toNat / 256 := by omega
  have e2 : (0x80 : Byte).toNat = 2 ^ 7 * 1 := rfl
  rw [e1, e2, ← Nat.two_pow_add_eq_or_of_lt (by omega)]

@[simp] theorem bpolyField_opcode (off : BitVec 15) : bpolyField (bpolyOpcode off) (off.setWidth 8) = off := by
  have ho := off.isLt
  apply BitVec.eq_of_toNat_eq
  rw [bpolyField_toNat, bpolyOpcode_toNat, BitVec.toNat_setWidth]
  omega

theorem bit7_iff (op : Byte) : op.getLsbD 7 = true ↔ 128 ≤ op.toNat := by
  revert op
  decide

theorem bpolyOpcode_bit7 (off : BitVec 15) : (bpolyOpcode off).getLsbD 7 = true := by
  rw [bit7_iff, bpolyOpcode_toNat]
  omega

/-- A byte with bit 7 set is the opcode byte of the offset it carries. -/
theorem bpolyOpcode_field (op lo : Byte) (h : op.getLsbD 7 = true) : bpolyOpcode (bpolyField op lo) = op := by
  have hl := lo.isLt
  have ho := op.isLt
  rw [bit7_iff] at h
  apply BitVec.eq_of_toNat_eq
  rw [bpolyOpcode_toNat, bpolyField_toNat]
  omega

theorem bpolyField_low (op lo : Byte) : (bpolyField op lo).setWidth 8 = lo := by
  have hl := lo.isLt
  apply BitVec.eq_of_toNat_eq
  rw [BitVec.toNat_setWidth, bpolyField_toNat]
  omega

@[simp] theorem modeBits_spolyOpcode_x (x y z : BitVec 2) : modeBits (spolyOpcode x y z) 4 = x := by
  revert x y z
  decide

@[simp] theorem modeBits_spolyOpcode_y (x y z : BitVec 2) : modeBits (spolyOpcode x y z) 2 = y := by
  revert x y z
  decide

@[simp] theorem modeBits_spolyOpcode_z (x y z : BitVec 2) : modeBits (spolyOpcode x y z) 0 = z := by
  revert x y z
  decide

theorem spolyOpcode_bit7 (x y z : BitVec 2) : (spolyOpcode x y z).getLsbD 7 = false := by
  revert x y z
  decide

theorem spolyOpcode_bit6 (x y z : BitVec 2) : (spolyOpcode x y z).getLsbD 6 = true := by
  revert x y z
  decide

/-- A byte 01xxxxxx is the opcode byte of its three mode fields. -/
theorem spolyOpcode_modes (op : Byte) (h7 : op.getLsbD 7 = false) (h6 : op.getLsbD 6 = true) :
    spolyOpcode (modeBits op 4) (modeBits op 2) (modeBits op 0) = op := by
  revert op
  decide

end Sys2Proof
end

