-- ==== Sys2Proof/Laws/Decode.lean ====
section
/-! SUPPORT. What the decoder of an operand field makes of that field's encoding, and the decoding of the illegal
opcodes. -/

namespace Sys2Proof

/-- An encoded x field decodes to itself, with its bytes used (30_encoding.md R99). -/
theorem decodeX_encode (x : XField) (used : Nat) (r : List Byte) :
    decodeX x.encode.1 used (x.encode.2 ++ r) = .ok (x, used + x.encode.2.length, r) := by
  cases x <;> simp [XField.encode, decodeX]

/-- An encoded y field decodes to itself, with its bytes used (30_encoding.md R99). -/
theorem decodeY_encode (y : YField) (used : Nat) (r : List Byte) :
    decodeY y.encode.1 used (y.encode.2 ++ r) = .ok (y, used + y.encode.2.length, r) := by
  cases y <;> simp [YField.encode, decodeY]

/-- An encoded zoom field decodes to itself, with its bytes used (30_encoding.md R99). -/
theorem decodeZoom_encode (z : ZoomField) (used : Nat) (r : List Byte) :
    decodeZoom z.encode.1 used (z.encode.2 ++ r) = .ok (z, used + z.encode.2.length, r) := by
  cases z <;> simp [ZoomField.encode, decodeZoom]

/-- An illegal opcode has bits 7 and 6 clear and is none of the table's rows (30_encoding.md R110). -/
theorem illegalOpcode_facts : ∀ op : Byte, illegalOpcode op = true → op.getLsbD 7 = false ∧ op.getLsbD 6 = false ∧
    op.toNat ∉ [0, 1, 3, 4, 5, 6, 7, 8, 9, 10, 11, 12, 13, 14, 15, 16, 17, 0x15, 0x19] := by
  decide

/-- An illegal opcode byte decodes to itself, whatever follows (30_encoding.md R110). -/
theorem decode_illegal (op : Byte) (rest : List Byte) (h : illegalOpcode op = true) :
    decode (op :: rest) = .instr (.illegal op) 1 := by
  obtain ⟨h7, h6, hn⟩ := illegalOpcode_facts op h
  simp only [decode, h7, h6, Bool.false_eq_true, if_false]
  unfold decodeTable
  split <;> first | rfl | (rename_i hop; exact absurd (by rw [hop]; decide) hn)

end Sys2Proof
end

