-- ==== Sys2Proof/Laws/State.lean ====
section
/-! SUPPORT. One lemma per field per named update of the state, each true by the definition of the update: no later
proof unfolds it. -/

namespace Sys2Proof.Machine

/-! Taking a fatal fault. -/

@[simp] theorem raise_v (s : State) (f : FatalFault) : (raise s f).v = s.v := rfl
@[simp] theorem raise_thrPc (s : State) (f : FatalFault) : (raise s f).thrPc = s.thrPc := rfl
@[simp] theorem raise_redir (s : State) (f : FatalFault) : (raise s f).redir = s.redir := rfl
@[simp] theorem raise_pausedCur (s : State) (f : FatalFault) : (raise s f).pausedCur = s.pausedCur := rfl
@[simp] theorem raise_pausedReq (s : State) (f : FatalFault) : (raise s f).pausedReq = s.pausedReq := rfl
@[simp] theorem raise_curThr (s : State) (f : FatalFault) : (raise s f).curThr = s.curThr := rfl
@[simp] theorem raise_pc (s : State) (f : FatalFault) : (raise s f).pc = s.pc := rfl
@[simp] theorem raise_insnPc (s : State) (f : FatalFault) : (raise s f).insnPc = s.insnPc := rfl
@[simp] theorem raise_yield (s : State) (f : FatalFault) : (raise s f).yield = s.yield := rfl
@[simp] theorem raise_stack (s : State) (f : FatalFault) : (raise s f).stack = s.stack := rfl
@[simp] theorem raise_sp (s : State) (f : FatalFault) : (raise s f).sp = s.sp := rfl
@[simp] theorem raise_pages (s : State) (f : FatalFault) : (raise s f).pages = s.pages := rfl
@[simp] theorem raise_ptr1 (s : State) (f : FatalFault) : (raise s f).ptr1 = s.ptr1 := rfl
@[simp] theorem raise_ptr2 (s : State) (f : FatalFault) : (raise s f).ptr2 = s.ptr2 := rfl
@[simp] theorem raise_ptr3 (s : State) (f : FatalFault) : (raise s f).ptr3 = s.ptr3 := rfl
@[simp] theorem raise_reqPal (s : State) (f : FatalFault) : (raise s f).reqPal = s.reqPal := rfl
@[simp] theorem raise_curPal (s : State) (f : FatalFault) : (raise s f).curPal = s.curPal := rfl
@[simp] theorem raise_lastTs (s : State) (f : FatalFault) : (raise s f).lastTs = s.lastTs := rfl
@[simp] theorem raise_reqPart (s : State) (f : FatalFault) : (raise s f).reqPart = s.reqPart := rfl
@[simp] theorem raise_seg (s : State) (f : FatalFault) : (raise s f).seg = s.seg := rfl
@[simp] theorem raise_mem (s : State) (f : FatalFault) : (raise s f).mem = s.mem := rfl
@[simp] theorem raise_fault (s : State) (f : FatalFault) : (raise s f).fault = some f := rfl
@[simp] theorem raise_log (s : State) (f : FatalFault) : (raise s f).log = s.log ++ [⟨.fatal f, s.insnPc, s.curThr⟩] := rfl
@[simp] theorem raise_arenaSize (s : State) (f : FatalFault) : (raise s f).arenaSize = s.arenaSize := rfl
@[simp] theorem raise_hierDepthMax (s : State) (f : FatalFault) : (raise s f).hierDepthMax = s.hierDepthMax := rfl
@[simp] theorem raise_phase (s : State) (f : FatalFault) : (raise s f).phase = s.phase := rfl
@[simp] theorem raise_hostTick (s : State) (f : FatalFault) : (raise s f).hostTick = s.hostTick := rfl
@[simp] theorem raise_calls (s : State) (f : FatalFault) : (raise s f).calls = s.calls := rfl

/-! Logging a soft condition. -/

@[simp] theorem logSoft_v (s : State) (c : SoftCondition) : (logSoft s c).v = s.v := rfl
@[simp] theorem logSoft_thrPc (s : State) (c : SoftCondition) : (logSoft s c).thrPc = s.thrPc := rfl
@[simp] theorem logSoft_redir (s : State) (c : SoftCondition) : (logSoft s c).redir = s.redir := rfl
@[simp] theorem logSoft_pausedCur (s : State) (c : SoftCondition) : (logSoft s c).pausedCur = s.pausedCur := rfl
@[simp] theorem logSoft_pausedReq (s : State) (c : SoftCondition) : (logSoft s c).pausedReq = s.pausedReq := rfl
@[simp] theorem logSoft_curThr (s : State) (c : SoftCondition) : (logSoft s c).curThr = s.curThr := rfl
@[simp] theorem logSoft_pc (s : State) (c : SoftCondition) : (logSoft s c).pc = s.pc := rfl
@[simp] theorem logSoft_insnPc (s : State) (c : SoftCondition) : (logSoft s c).insnPc = s.insnPc := rfl
@[simp] theorem logSoft_yield (s : State) (c : SoftCondition) : (logSoft s c).yield = s.yield := rfl
@[simp] theorem logSoft_stack (s : State) (c : SoftCondition) : (logSoft s c).stack = s.stack := rfl
@[simp] theorem logSoft_sp (s : State) (c : SoftCondition) : (logSoft s c).sp = s.sp := rfl
@[simp] theorem logSoft_pages (s : State) (c : SoftCondition) : (logSoft s c).pages = s.pages := rfl
@[simp] theorem logSoft_ptr1 (s : State) (c : SoftCondition) : (logSoft s c).ptr1 = s.ptr1 := rfl
@[simp] theorem logSoft_ptr2 (s : State) (c : SoftCondition) : (logSoft s c).ptr2 = s.ptr2 := rfl
@[simp] theorem logSoft_ptr3 (s : State) (c : SoftCondition) : (logSoft s c).ptr3 = s.ptr3 := rfl
@[simp] theorem logSoft_reqPal (s : State) (c : SoftCondition) : (logSoft s c).reqPal = s.reqPal := rfl
@[simp] theorem logSoft_curPal (s : State) (c : SoftCondition) : (logSoft s c).curPal = s.curPal := rfl
@[simp] theorem logSoft_lastTs (s : State) (c : SoftCondition) : (logSoft s c).lastTs = s.lastTs := rfl
@[simp] theorem logSoft_reqPart (s : State) (c : SoftCondition) : (logSoft s c).reqPart = s.reqPart := rfl
@[simp] theorem logSoft_seg (s : State) (c : SoftCondition) : (logSoft s c).seg = s.seg := rfl
@[simp] theorem logSoft_mem (s : State) (c : SoftCondition) : (logSoft s c).mem = s.mem := rfl
@[simp] theorem logSoft_fault (s : State) (c : SoftCondition) : (logSoft s c).fault = s.fault := rfl
@[simp] theorem logSoft_log (s : State) (c : SoftCondition) : (logSoft s c).log = s.log ++ [⟨.soft c, s.insnPc, s.curThr⟩] := rfl
@[simp] theorem logSoft_arenaSize (s : State) (c : SoftCondition) : (logSoft s c).arenaSize = s.arenaSize := rfl
@[simp] theorem logSoft_hierDepthMax (s : State) (c : SoftCondition) : (logSoft s c).hierDepthMax = s.hierDepthMax := rfl
@[simp] theorem logSoft_phase (s : State) (c : SoftCondition) : (logSoft s c).phase = s.phase := rfl
@[simp] theorem logSoft_hostTick (s : State) (c : SoftCondition) : (logSoft s c).hostTick = s.hostTick := rfl
@[simp] theorem logSoft_calls (s : State) (c : SoftCondition) : (logSoft s c).calls = s.calls := rfl

/-! Writing a variable. -/

@[simp] theorem setVar_v (s : State) (i : Byte) (x : Word) : (setVar s i x).v = s.v.set i.toNat x i.isLt := rfl
@[simp] theorem setVar_thrPc (s : State) (i : Byte) (x : Word) : (setVar s i x).thrPc = s.thrPc := rfl
@[simp] theorem setVar_redir (s : State) (i : Byte) (x : Word) : (setVar s i x).redir = s.redir := rfl
@[simp] theorem setVar_pausedCur (s : State) (i : Byte) (x : Word) : (setVar s i x).pausedCur = s.pausedCur := rfl
@[simp] theorem setVar_pausedReq (s : State) (i : Byte) (x : Word) : (setVar s i x).pausedReq = s.pausedReq := rfl
@[simp] theorem setVar_curThr (s : State) (i : Byte) (x : Word) : (setVar s i x).curThr = s.curThr := rfl
@[simp] theorem setVar_pc (s : State) (i : Byte) (x : Word) : (setVar s i x).pc = s.pc := rfl
@[simp] theorem setVar_insnPc (s : State) (i : Byte) (x : Word) : (setVar s i x).insnPc = s.insnPc := rfl
@[simp] theorem setVar_yield (s : State) (i : Byte) (x : Word) : (setVar s i x).yield = s.yield := rfl
@[simp] theorem setVar_stack (s : State) (i : Byte) (x : Word) : (setVar s i x).stack = s.stack := rfl
@[simp] theorem setVar_sp (s : State) (i : Byte) (x : Word) : (setVar s i x).sp = s.sp := rfl
@[simp] theorem setVar_pages (s : State) (i : Byte) (x : Word) : (setVar s i x).pages = s.pages := rfl
@[simp] theorem setVar_ptr1 (s : State) (i : Byte) (x : Word) : (setVar s i x).ptr1 = s.ptr1 := rfl
@[simp] theorem setVar_ptr2 (s : State) (i : Byte) (x : Word) : (setVar s i x).ptr2 = s.ptr2 := rfl
@[simp] theorem setVar_ptr3 (s : State) (i : Byte) (x : Word) : (setVar s i x).ptr3 = s.ptr3 := rfl
@[simp] theorem setVar_reqPal (s : State) (i : Byte) (x : Word) : (setVar s i x).reqPal = s.reqPal := rfl
@[simp] theorem setVar_curPal (s : State) (i : Byte) (x : Word) : (setVar s i x).curPal = s.curPal := rfl
@[simp] theorem setVar_lastTs (s : State) (i : Byte) (x : Word) : (setVar s i x).lastTs = s.lastTs := rfl
@[simp] theorem setVar_reqPart (s : State) (i : Byte) (x : Word) : (setVar s i x).reqPart = s.reqPart := rfl
@[simp] theorem setVar_seg (s : State) (i : Byte) (x : Word) : (setVar s i x).seg = s.seg := rfl
@[simp] theorem setVar_mem (s : State) (i : Byte) (x : Word) : (setVar s i x).mem = s.mem := rfl
@[simp] theorem setVar_fault (s : State) (i : Byte) (x : Word) : (setVar s i x).fault = s.fault := rfl
@[simp] theorem setVar_log (s : State) (i : Byte) (x : Word) : (setVar s i x).log = s.log := rfl
@[simp] theorem setVar_arenaSize (s : State) (i : Byte) (x : Word) : (setVar s i x).arenaSize = s.arenaSize := rfl
@[simp] theorem setVar_hierDepthMax (s : State) (i : Byte) (x : Word) : (setVar s i x).hierDepthMax = s.hierDepthMax := rfl
@[simp] theorem setVar_phase (s : State) (i : Byte) (x : Word) : (setVar s i x).phase = s.phase := rfl
@[simp] theorem setVar_hostTick (s : State) (i : Byte) (x : Word) : (setVar s i x).hostTick = s.hostTick := rfl
@[simp] theorem setVar_calls (s : State) (i : Byte) (x : Word) : (setVar s i x).calls = s.calls := rfl

/-! Writing the program counter. -/

@[simp] theorem jumpTo_v (s : State) (a : Word) : (jumpTo s a).v = s.v := rfl
@[simp] theorem jumpTo_thrPc (s : State) (a : Word) : (jumpTo s a).thrPc = s.thrPc := rfl
@[simp] theorem jumpTo_redir (s : State) (a : Word) : (jumpTo s a).redir = s.redir := rfl
@[simp] theorem jumpTo_pausedCur (s : State) (a : Word) : (jumpTo s a).pausedCur = s.pausedCur := rfl
@[simp] theorem jumpTo_pausedReq (s : State) (a : Word) : (jumpTo s a).pausedReq = s.pausedReq := rfl
@[simp] theorem jumpTo_curThr (s : State) (a : Word) : (jumpTo s a).curThr = s.curThr := rfl
@[simp] theorem jumpTo_pc (s : State) (a : Word) : (jumpTo s a).pc = a := rfl
@[simp] theorem jumpTo_insnPc (s : State) (a : Word) : (jumpTo s a).insnPc = s.insnPc := rfl
@[simp] theorem jumpTo_yield (s : State) (a : Word) : (jumpTo s a).yield = s.yield := rfl
@[simp] theorem jumpTo_stack (s : State) (a : Word) : (jumpTo s a).stack = s.stack := rfl
@[simp] theorem jumpTo_sp (s : State) (a : Word) : (jumpTo s a).sp = s.sp := rfl
@[simp] theorem jumpTo_pages (s : State) (a : Word) : (jumpTo s a).pages = s.pages := rfl
@[simp] theorem jumpTo_ptr1 (s : State) (a : Word) : (jumpTo s a).ptr1 = s.ptr1 := rfl
@[simp] theorem jumpTo_ptr2 (s : State) (a : Word) : (jumpTo s a).ptr2 = s.ptr2 := rfl
@[simp] theorem jumpTo_ptr3 (s : State) (a : Word) : (jumpTo s a).ptr3 = s.ptr3 := rfl
@[simp] theorem jumpTo_reqPal (s : State) (a : Word) : (jumpTo s a).reqPal = s.reqPal := rfl
@[simp] theorem jumpTo_curPal (s : State) (a : Word) : (jumpTo s a).curPal = s.curPal := rfl
@[simp] theorem jumpTo_lastTs (s : State) (a : Word) : (jumpTo s a).lastTs = s.lastTs := rfl
@[simp] theorem jumpTo_reqPart (s : State) (a : Word) : (jumpTo s a).reqPart = s.reqPart := rfl
@[simp] theorem jumpTo_seg (s : State) (a : Word) : (jumpTo s a).seg = s.seg := rfl
@[simp] theorem jumpTo_mem (s : State) (a : Word) : (jumpTo s a).mem = s.mem := rfl
@[simp] theorem jumpTo_fault (s : State) (a : Word) : (jumpTo s a).fault = s.fault := rfl
@[simp] theorem jumpTo_log (s : State) (a : Word) : (jumpTo s a).log = s.log := rfl
@[simp] theorem jumpTo_arenaSize (s : State) (a : Word) : (jumpTo s a).arenaSize = s.arenaSize := rfl
@[simp] theorem jumpTo_hierDepthMax (s : State) (a : Word) : (jumpTo s a).hierDepthMax = s.hierDepthMax := rfl
@[simp] theorem jumpTo_phase (s : State) (a : Word) : (jumpTo s a).phase = s.phase := rfl
@[simp] theorem jumpTo_hostTick (s : State) (a : Word) : (jumpTo s a).hostTick = s.hostTick := rfl
@[simp] theorem jumpTo_calls (s : State) (a : Word) : (jumpTo s a).calls = s.calls := rfl

/-! Fetching an instruction. -/

@[simp] theorem fetched_v (s : State) (n : Nat) : (fetched s n).v = s.v := rfl
@[simp] theorem fetched_thrPc (s : State) (n : Nat) : (fetched s n).thrPc = s.thrPc := rfl
@[simp] theorem fetched_redir (s : State) (n : Nat) : (fetched s n).redir = s.redir := rfl
@[simp] theorem fetched_pausedCur (s : State) (n : Nat) : (fetched s n).pausedCur = s.pausedCur := rfl
@[simp] theorem fetched_pausedReq (s : State) (n : Nat) : (fetched s n).pausedReq = s.pausedReq := rfl
@[simp] theorem fetched_curThr (s : State) (n : Nat) : (fetched s n).curThr = s.curThr := rfl
@[simp] theorem fetched_pc (s : State) (n : Nat) : (fetched s n).pc = s.pc + BitVec.ofNat 16 n := rfl
@[simp] theorem fetched_insnPc (s : State) (n : Nat) : (fetched s n).insnPc = s.pc := rfl
@[simp] theorem fetched_yield (s : State) (n : Nat) : (fetched s n).yield = s.yield := rfl
@[simp] theorem fetched_stack (s : State) (n : Nat) : (fetched s n).stack = s.stack := rfl
@[simp] theorem fetched_sp (s : State) (n : Nat) : (fetched s n).sp = s.sp := rfl
@[simp] theorem fetched_pages (s : State) (n : Nat) : (fetched s n).pages = s.pages := rfl
@[simp] theorem fetched_ptr1 (s : State) (n : Nat) : (fetched s n).ptr1 = s.ptr1 := rfl
@[simp] theorem fetched_ptr2 (s : State) (n : Nat) : (fetched s n).ptr2 = s.ptr2 := rfl
@[simp] theorem fetched_ptr3 (s : State) (n : Nat) : (fetched s n).ptr3 = s.ptr3 := rfl
@[simp] theorem fetched_reqPal (s : State) (n : Nat) : (fetched s n).reqPal = s.reqPal := rfl
@[simp] theorem fetched_curPal (s : State) (n : Nat) : (fetched s n).curPal = s.curPal := rfl
@[simp] theorem fetched_lastTs (s : State) (n : Nat) : (fetched s n).lastTs = s.lastTs := rfl
@[simp] theorem fetched_reqPart (s : State) (n : Nat) : (fetched s n).reqPart = s.reqPart := rfl
@[simp] theorem fetched_seg (s : State) (n : Nat) : (fetched s n).seg = s.seg := rfl
@[simp] theorem fetched_mem (s : State) (n : Nat) : (fetched s n).mem = s.mem := rfl
@[simp] theorem fetched_fault (s : State) (n : Nat) : (fetched s n).fault = s.fault := rfl
@[simp] theorem fetched_log (s : State) (n : Nat) : (fetched s n).log = s.log := rfl
@[simp] theorem fetched_arenaSize (s : State) (n : Nat) : (fetched s n).arenaSize = s.arenaSize := rfl
@[simp] theorem fetched_hierDepthMax (s : State) (n : Nat) : (fetched s n).hierDepthMax = s.hierDepthMax := rfl
@[simp] theorem fetched_phase (s : State) (n : Nat) : (fetched s n).phase = s.phase := rfl
@[simp] theorem fetched_hostTick (s : State) (n : Nat) : (fetched s n).hostTick = s.hostTick := rfl
@[simp] theorem fetched_calls (s : State) (n : Nat) : (fetched s n).calls = s.calls := rfl

/-! A host call without an answer. -/

@[simp] theorem output_v (s : State) (c : HostCall) : (output s c).v = s.v := rfl
@[simp] theorem output_thrPc (s : State) (c : HostCall) : (output s c).thrPc = s.thrPc := rfl
@[simp] theorem output_redir (s : State) (c : HostCall) : (output s c).redir = s.redir := rfl
@[simp] theorem output_pausedCur (s : State) (c : HostCall) : (output s c).pausedCur = s.pausedCur := rfl
@[simp] theorem output_pausedReq (s : State) (c : HostCall) : (output s c).pausedReq = s.pausedReq := rfl
@[simp] theorem output_curThr (s : State) (c : HostCall) : (output s c).curThr = s.curThr := rfl
@[simp] theorem output_pc (s : State) (c : HostCall) : (output s c).pc = s.pc := rfl
@[simp] theorem output_insnPc (s : State) (c : HostCall) : (output s c).insnPc = s.insnPc := rfl
@[simp] theorem output_yield (s : State) (c : HostCall) : (output s c).yield = s.yield := rfl
@[simp] theorem output_stack (s : State) (c : HostCall) : (output s c).stack = s.stack := rfl
@[simp] theorem output_sp (s : State) (c : HostCall) : (output s c).sp = s.sp := rfl
@[simp] theorem output_pages (s : State) (c : HostCall) : (output s c).pages = s.pages := rfl
@[simp] theorem output_ptr1 (s : State) (c : HostCall) : (output s c).ptr1 = s.ptr1 := rfl
@[simp] theorem output_ptr2 (s : State) (c : HostCall) : (output s c).ptr2 = s.ptr2 := rfl
@[simp] theorem output_ptr3 (s : State) (c : HostCall) : (output s c).ptr3 = s.ptr3 := rfl
@[simp] theorem output_reqPal (s : State) (c : HostCall) : (output s c).reqPal = s.reqPal := rfl
@[simp] theorem output_curPal (s : State) (c : HostCall) : (output s c).curPal = s.curPal := rfl
@[simp] theorem output_lastTs (s : State) (c : HostCall) : (output s c).lastTs = s.lastTs := rfl
@[simp] theorem output_reqPart (s : State) (c : HostCall) : (output s c).reqPart = s.reqPart := rfl
@[simp] theorem output_seg (s : State) (c : HostCall) : (output s c).seg = s.seg := rfl
@[simp] theorem output_mem (s : State) (c : HostCall) : (output s c).mem = s.mem := rfl
@[simp] theorem output_fault (s : State) (c : HostCall) : (output s c).fault = s.fault := rfl
@[simp] theorem output_log (s : State) (c : HostCall) : (output s c).log = s.log := rfl
@[simp] theorem output_arenaSize (s : State) (c : HostCall) : (output s c).arenaSize = s.arenaSize := rfl
@[simp] theorem output_hierDepthMax (s : State) (c : HostCall) : (output s c).hierDepthMax = s.hierDepthMax := rfl
@[simp] theorem output_phase (s : State) (c : HostCall) : (output s c).phase = s.phase := rfl
@[simp] theorem output_hostTick (s : State) (c : HostCall) : (output s c).hostTick = s.hostTick := rfl
@[simp] theorem output_calls (s : State) (c : HostCall) : (output s c).calls = s.calls ++ [c] := rfl

/-! A host call with an answer. -/

@[simp] theorem ask_v (s : State) (c : HostCall) : (ask s c).v = s.v := rfl
@[simp] theorem ask_thrPc (s : State) (c : HostCall) : (ask s c).thrPc = s.thrPc := rfl
@[simp] theorem ask_redir (s : State) (c : HostCall) : (ask s c).redir = s.redir := rfl
@[simp] theorem ask_pausedCur (s : State) (c : HostCall) : (ask s c).pausedCur = s.pausedCur := rfl
@[simp] theorem ask_pausedReq (s : State) (c : HostCall) : (ask s c).pausedReq = s.pausedReq := rfl
@[simp] theorem ask_curThr (s : State) (c : HostCall) : (ask s c).curThr = s.curThr := rfl
@[simp] theorem ask_pc (s : State) (c : HostCall) : (ask s c).pc = s.pc := rfl
@[simp] theorem ask_insnPc (s : State) (c : HostCall) : (ask s c).insnPc = s.insnPc := rfl
@[simp] theorem ask_yield (s : State) (c : HostCall) : (ask s c).yield = s.yield := rfl
@[simp] theorem ask_stack (s : State) (c : HostCall) : (ask s c).stack = s.stack := rfl
@[simp] theorem ask_sp (s : State) (c : HostCall) : (ask s c).sp = s.sp := rfl
@[simp] theorem ask_pages (s : State) (c : HostCall) : (ask s c).pages = s.pages := rfl
@[simp] theorem ask_ptr1 (s : State) (c : HostCall) : (ask s c).ptr1 = s.ptr1 := rfl
@[simp] theorem ask_ptr2 (s : State) (c : HostCall) : (ask s c).ptr2 = s.ptr2 := rfl
@[simp] theorem ask_ptr3 (s : State) (c : HostCall) : (ask s c).ptr3 = s.ptr3 := rfl
@[simp] theorem ask_reqPal (s : State) (c : HostCall) : (ask s c).reqPal = s.reqPal := rfl
@[simp] theorem ask_curPal (s : State) (c : HostCall) : (ask s c).curPal = s.curPal := rfl
@[simp] theorem ask_lastTs (s : State) (c : HostCall) : (ask s c).lastTs = s.lastTs := rfl
@[simp] theorem ask_reqPart (s : State) (c : HostCall) : (ask s c).reqPart = s.reqPart := rfl
@[simp] theorem ask_seg (s : State) (c : HostCall) : (ask s c).seg = s.seg := rfl
@[simp] theorem ask_mem (s : State) (c : HostCall) : (ask s c).mem = s.mem := rfl
@[simp] theorem ask_fault (s : State) (c : HostCall) : (ask s c).fault = s.fault := rfl
@[simp] theorem ask_log (s : State) (c : HostCall) : (ask s c).log = s.log := rfl
@[simp] theorem ask_arenaSize (s : State) (c : HostCall) : (ask s c).arenaSize = s.arenaSize := rfl
@[simp] theorem ask_hierDepthMax (s : State) (c : HostCall) : (ask s c).hierDepthMax = s.hierDepthMax := rfl
@[simp] theorem ask_phase (s : State) (c : HostCall) : (ask s c).phase = s.phase := rfl
@[simp] theorem ask_hostTick (s : State) (c : HostCall) : (ask s c).hostTick = s.hostTick + 1 := rfl
@[simp] theorem ask_calls (s : State) (c : HostCall) : (ask s c).calls = s.calls ++ [c] := rfl

/-! Starting a slice. -/

@[simp] theorem startSlice_v (s : State) (t : Fin 64) : (startSlice s t).v = s.v := rfl
@[simp] theorem startSlice_thrPc (s : State) (t : Fin 64) : (startSlice s t).thrPc = s.thrPc := rfl
@[simp] theorem startSlice_redir (s : State) (t : Fin 64) : (startSlice s t).redir = s.redir := rfl
@[simp] theorem startSlice_pausedCur (s : State) (t : Fin 64) : (startSlice s t).pausedCur = s.pausedCur := rfl
@[simp] theorem startSlice_pausedReq (s : State) (t : Fin 64) : (startSlice s t).pausedReq = s.pausedReq := rfl
@[simp] theorem startSlice_curThr (s : State) (t : Fin 64) : (startSlice s t).curThr = t := rfl
@[simp] theorem startSlice_pc (s : State) (t : Fin 64) : (startSlice s t).pc = s.thrPc[t] := rfl
@[simp] theorem startSlice_insnPc (s : State) (t : Fin 64) : (startSlice s t).insnPc = s.insnPc := rfl
@[simp] theorem startSlice_yield (s : State) (t : Fin 64) : (startSlice s t).yield = false := rfl
@[simp] theorem startSlice_stack (s : State) (t : Fin 64) : (startSlice s t).stack = s.stack := rfl
@[simp] theorem startSlice_sp (s : State) (t : Fin 64) : (startSlice s t).sp = 0 := rfl
@[simp] theorem startSlice_pages (s : State) (t : Fin 64) : (startSlice s t).pages = s.pages := rfl
@[simp] theorem startSlice_ptr1 (s : State) (t : Fin 64) : (startSlice s t).ptr1 = s.ptr1 := rfl
@[simp] theorem startSlice_ptr2 (s : State) (t : Fin 64) : (startSlice s t).ptr2 = s.ptr2 := rfl
@[simp] theorem startSlice_ptr3 (s : State) (t : Fin 64) : (startSlice s t).ptr3 = s.ptr3 := rfl
@[simp] theorem startSlice_reqPal (s : State) (t : Fin 64) : (startSlice s t).reqPal = s.reqPal := rfl
@[simp] theorem startSlice_curPal (s : State) (t : Fin 64) : (startSlice s t).curPal = s.curPal := rfl
@[simp] theorem startSlice_lastTs (s : State) (t : Fin 64) : (startSlice s t).lastTs = s.lastTs := rfl
@[simp] theorem startSlice_reqPart (s : State) (t : Fin 64) : (startSlice s t).reqPart = s.reqPart := rfl
@[simp] theorem startSlice_seg (s : State) (t : Fin 64) : (startSlice s t).seg = s.seg := rfl
@[simp] theorem startSlice_mem (s : State) (t : Fin 64) : (startSlice s t).mem = s.mem := rfl
@[simp] theorem startSlice_fault (s : State) (t : Fin 64) : (startSlice s t).fault = s.fault := rfl
@[simp] theorem startSlice_log (s : State) (t : Fin 64) : (startSlice s t).log = s.log := rfl
@[simp] theorem startSlice_arenaSize (s : State) (t : Fin 64) : (startSlice s t).arenaSize = s.arenaSize := rfl
@[simp] theorem startSlice_hierDepthMax (s : State) (t : Fin 64) : (startSlice s t).hierDepthMax = s.hierDepthMax := rfl
@[simp] theorem startSlice_phase (s : State) (t : Fin 64) : (startSlice s t).phase = .slice := rfl
@[simp] theorem startSlice_hostTick (s : State) (t : Fin 64) : (startSlice s t).hostTick = s.hostTick := rfl
@[simp] theorem startSlice_calls (s : State) (t : Fin 64) : (startSlice s t).calls = s.calls := rfl

/-! Ending a slice. -/

@[simp] theorem endSlice_v (s : State) : (endSlice s).v = s.v := rfl
@[simp] theorem endSlice_thrPc (s : State) : (endSlice s).thrPc = s.thrPc.set s.curThr.val s.pc := rfl
@[simp] theorem endSlice_redir (s : State) : (endSlice s).redir = s.redir := rfl
@[simp] theorem endSlice_pausedCur (s : State) : (endSlice s).pausedCur = s.pausedCur := rfl
@[simp] theorem endSlice_pausedReq (s : State) : (endSlice s).pausedReq = s.pausedReq := rfl
@[simp] theorem endSlice_curThr (s : State) : (endSlice s).curThr = s.curThr := rfl
@[simp] theorem endSlice_pc (s : State) : (endSlice s).pc = s.pc := rfl
@[simp] theorem endSlice_insnPc (s : State) : (endSlice s).insnPc = s.insnPc := rfl
@[simp] theorem endSlice_yield (s : State) : (endSlice s).yield = s.yield := rfl
@[simp] theorem endSlice_stack (s : State) : (endSlice s).stack = s.stack := rfl
@[simp] theorem endSlice_sp (s : State) : (endSlice s).sp = s.sp := rfl
@[simp] theorem endSlice_pages (s : State) : (endSlice s).pages = s.pages := rfl
@[simp] theorem endSlice_ptr1 (s : State) : (endSlice s).ptr1 = s.ptr1 := rfl
@[simp] theorem endSlice_ptr2 (s : State) : (endSlice s).ptr2 = s.ptr2 := rfl
@[simp] theorem endSlice_ptr3 (s : State) : (endSlice s).ptr3 = s.ptr3 := rfl
@[simp] theorem endSlice_reqPal (s : State) : (endSlice s).reqPal = s.reqPal := rfl
@[simp] theorem endSlice_curPal (s : State) : (endSlice s).curPal = s.curPal := rfl
@[simp] theorem endSlice_lastTs (s : State) : (endSlice s).lastTs = s.lastTs := rfl
@[simp] theorem endSlice_reqPart (s : State) : (endSlice s).reqPart = s.reqPart := rfl
@[simp] theorem endSlice_seg (s : State) : (endSlice s).seg = s.seg := rfl
@[simp] theorem endSlice_mem (s : State) : (endSlice s).mem = s.mem := rfl
@[simp] theorem endSlice_fault (s : State) : (endSlice s).fault = s.fault := rfl
@[simp] theorem endSlice_log (s : State) : (endSlice s).log = s.log := rfl
@[simp] theorem endSlice_arenaSize (s : State) : (endSlice s).arenaSize = s.arenaSize := rfl
@[simp] theorem endSlice_hierDepthMax (s : State) : (endSlice s).hierDepthMax = s.hierDepthMax := rfl
@[simp] theorem endSlice_phase (s : State) : (endSlice s).phase = .select (s.curThr.val + 1) := rfl
@[simp] theorem endSlice_hostTick (s : State) : (endSlice s).hostTick = s.hostTick := rfl
@[simp] theorem endSlice_calls (s : State) : (endSlice s).calls = s.calls := rfl

/-! The commit. -/

@[simp] theorem applyPending_v (s : State) : (applyPending s).v = s.v := by simp only [applyPending]
@[simp] theorem applyPending_thrPc (s : State) : (applyPending s).thrPc = Vector.ofFn fun t => commitPc s.thrPc[t] s.redir[t] := by simp only [applyPending]
@[simp] theorem applyPending_redir (s : State) : (applyPending s).redir = Vector.replicate 64 Config.redirNone := by simp only [applyPending]
@[simp] theorem applyPending_pausedCur (s : State) : (applyPending s).pausedCur = s.pausedReq := by simp only [applyPending]
@[simp] theorem applyPending_pausedReq (s : State) : (applyPending s).pausedReq = s.pausedReq := by simp only [applyPending]
@[simp] theorem applyPending_curThr (s : State) : (applyPending s).curThr = s.curThr := by simp only [applyPending]
@[simp] theorem applyPending_pc (s : State) : (applyPending s).pc = s.pc := by simp only [applyPending]
@[simp] theorem applyPending_insnPc (s : State) : (applyPending s).insnPc = s.insnPc := by simp only [applyPending]
@[simp] theorem applyPending_yield (s : State) : (applyPending s).yield = s.yield := by simp only [applyPending]
@[simp] theorem applyPending_stack (s : State) : (applyPending s).stack = s.stack := by simp only [applyPending]
@[simp] theorem applyPending_sp (s : State) : (applyPending s).sp = s.sp := by simp only [applyPending]
@[simp] theorem applyPending_pages (s : State) : (applyPending s).pages = s.pages := by simp only [applyPending]
@[simp] theorem applyPending_ptr1 (s : State) : (applyPending s).ptr1 = s.ptr1 := by simp only [applyPending]
@[simp] theorem applyPending_ptr2 (s : State) : (applyPending s).ptr2 = s.ptr2 := by simp only [applyPending]
@[simp] theorem applyPending_ptr3 (s : State) : (applyPending s).ptr3 = s.ptr3 := by simp only [applyPending]
@[simp] theorem applyPending_reqPal (s : State) : (applyPending s).reqPal = s.reqPal := by simp only [applyPending]
@[simp] theorem applyPending_curPal (s : State) : (applyPending s).curPal = s.curPal := by simp only [applyPending]
@[simp] theorem applyPending_lastTs (s : State) : (applyPending s).lastTs = s.lastTs := by simp only [applyPending]
@[simp] theorem applyPending_reqPart (s : State) : (applyPending s).reqPart = s.reqPart := by simp only [applyPending]
@[simp] theorem applyPending_seg (s : State) : (applyPending s).seg = s.seg := by simp only [applyPending]
@[simp] theorem applyPending_mem (s : State) : (applyPending s).mem = s.mem := by simp only [applyPending]
@[simp] theorem applyPending_fault (s : State) : (applyPending s).fault = s.fault := by simp only [applyPending]
@[simp] theorem applyPending_log (s : State) : (applyPending s).log = s.log := by simp only [applyPending]
@[simp] theorem applyPending_arenaSize (s : State) : (applyPending s).arenaSize = s.arenaSize := by simp only [applyPending]
@[simp] theorem applyPending_hierDepthMax (s : State) : (applyPending s).hierDepthMax = s.hierDepthMax := by simp only [applyPending]
@[simp] theorem applyPending_phase (s : State) : (applyPending s).phase = s.phase := by simp only [applyPending]
@[simp] theorem applyPending_hostTick (s : State) : (applyPending s).hostTick = s.hostTick := by simp only [applyPending]
@[simp] theorem applyPending_calls (s : State) : (applyPending s).calls = s.calls := by simp only [applyPending]

/-! Re-initialising the thread table. -/

@[simp] theorem threadReset_v (s : State) : (threadReset s).v = s.v := rfl
@[simp] theorem threadReset_thrPc (s : State) : (threadReset s).thrPc = (Vector.replicate 64 Config.pcInactive).set 0 0 := rfl
@[simp] theorem threadReset_redir (s : State) : (threadReset s).redir = Vector.replicate 64 Config.redirNone := rfl
@[simp] theorem threadReset_pausedCur (s : State) : (threadReset s).pausedCur = Vector.replicate 64 false := rfl
@[simp] theorem threadReset_pausedReq (s : State) : (threadReset s).pausedReq = Vector.replicate 64 false := rfl
@[simp] theorem threadReset_curThr (s : State) : (threadReset s).curThr = s.curThr := rfl
@[simp] theorem threadReset_pc (s : State) : (threadReset s).pc = s.pc := rfl
@[simp] theorem threadReset_insnPc (s : State) : (threadReset s).insnPc = s.insnPc := rfl
@[simp] theorem threadReset_yield (s : State) : (threadReset s).yield = s.yield := rfl
@[simp] theorem threadReset_stack (s : State) : (threadReset s).stack = s.stack := rfl
@[simp] theorem threadReset_sp (s : State) : (threadReset s).sp = s.sp := rfl
@[simp] theorem threadReset_pages (s : State) : (threadReset s).pages = s.pages := rfl
@[simp] theorem threadReset_ptr1 (s : State) : (threadReset s).ptr1 = s.ptr1 := rfl
@[simp] theorem threadReset_ptr2 (s : State) : (threadReset s).ptr2 = s.ptr2 := rfl
@[simp] theorem threadReset_ptr3 (s : State) : (threadReset s).ptr3 = s.ptr3 := rfl
@[simp] theorem threadReset_reqPal (s : State) : (threadReset s).reqPal = s.reqPal := rfl
@[simp] theorem threadReset_curPal (s : State) : (threadReset s).curPal = s.curPal := rfl
@[simp] theorem threadReset_lastTs (s : State) : (threadReset s).lastTs = s.lastTs := rfl
@[simp] theorem threadReset_reqPart (s : State) : (threadReset s).reqPart = 0 := rfl
@[simp] theorem threadReset_seg (s : State) : (threadReset s).seg = s.seg := rfl
@[simp] theorem threadReset_mem (s : State) : (threadReset s).mem = s.mem := rfl
@[simp] theorem threadReset_fault (s : State) : (threadReset s).fault = s.fault := rfl
@[simp] theorem threadReset_log (s : State) : (threadReset s).log = s.log := rfl
@[simp] theorem threadReset_arenaSize (s : State) : (threadReset s).arenaSize = s.arenaSize := rfl
@[simp] theorem threadReset_hierDepthMax (s : State) : (threadReset s).hierDepthMax = s.hierDepthMax := rfl
@[simp] theorem threadReset_phase (s : State) : (threadReset s).phase = s.phase := rfl
@[simp] theorem threadReset_hostTick (s : State) : (threadReset s).hostTick = s.hostTick := rfl
@[simp] theorem threadReset_calls (s : State) : (threadReset s).calls = s.calls := rfl

/-! A part mapped by the loader. -/

@[simp] theorem mapPart_v (a : SetupAnswer) (s : State) : (mapPart a s).v = s.v := rfl
@[simp] theorem mapPart_thrPc (a : SetupAnswer) (s : State) : (mapPart a s).thrPc = s.thrPc := rfl
@[simp] theorem mapPart_redir (a : SetupAnswer) (s : State) : (mapPart a s).redir = s.redir := rfl
@[simp] theorem mapPart_pausedCur (a : SetupAnswer) (s : State) : (mapPart a s).pausedCur = s.pausedCur := rfl
@[simp] theorem mapPart_pausedReq (a : SetupAnswer) (s : State) : (mapPart a s).pausedReq = s.pausedReq := rfl
@[simp] theorem mapPart_curThr (a : SetupAnswer) (s : State) : (mapPart a s).curThr = s.curThr := rfl
@[simp] theorem mapPart_pc (a : SetupAnswer) (s : State) : (mapPart a s).pc = s.pc := rfl
@[simp] theorem mapPart_insnPc (a : SetupAnswer) (s : State) : (mapPart a s).insnPc = s.insnPc := rfl
@[simp] theorem mapPart_yield (a : SetupAnswer) (s : State) : (mapPart a s).yield = s.yield := rfl
@[simp] theorem mapPart_stack (a : SetupAnswer) (s : State) : (mapPart a s).stack = s.stack := rfl
@[simp] theorem mapPart_sp (a : SetupAnswer) (s : State) : (mapPart a s).sp = s.sp := rfl
@[simp] theorem mapPart_pages (a : SetupAnswer) (s : State) : (mapPart a s).pages = s.pages := rfl
@[simp] theorem mapPart_ptr1 (a : SetupAnswer) (s : State) : (mapPart a s).ptr1 = s.ptr1 := rfl
@[simp] theorem mapPart_ptr2 (a : SetupAnswer) (s : State) : (mapPart a s).ptr2 = s.ptr2 := rfl
@[simp] theorem mapPart_ptr3 (a : SetupAnswer) (s : State) : (mapPart a s).ptr3 = s.ptr3 := rfl
@[simp] theorem mapPart_reqPal (a : SetupAnswer) (s : State) : (mapPart a s).reqPal = s.reqPal := rfl
@[simp] theorem mapPart_curPal (a : SetupAnswer) (s : State) : (mapPart a s).curPal = s.curPal := rfl
@[simp] theorem mapPart_lastTs (a : SetupAnswer) (s : State) : (mapPart a s).lastTs = s.lastTs := rfl
@[simp] theorem mapPart_reqPart (a : SetupAnswer) (s : State) : (mapPart a s).reqPart = s.reqPart := rfl
@[simp] theorem mapPart_seg (a : SetupAnswer) (s : State) : (mapPart a s).seg = a.segs := rfl
@[simp] theorem mapPart_mem (a : SetupAnswer) (s : State) : (mapPart a s).mem = loaderWrites (fun addr => decide (addr < s.arenaSize)) a.writes s.mem := rfl
@[simp] theorem mapPart_fault (a : SetupAnswer) (s : State) : (mapPart a s).fault = s.fault := rfl
@[simp] theorem mapPart_log (a : SetupAnswer) (s : State) : (mapPart a s).log = s.log := rfl
@[simp] theorem mapPart_arenaSize (a : SetupAnswer) (s : State) : (mapPart a s).arenaSize = s.arenaSize := rfl
@[simp] theorem mapPart_hierDepthMax (a : SetupAnswer) (s : State) : (mapPart a s).hierDepthMax = s.hierDepthMax := rfl
@[simp] theorem mapPart_phase (a : SetupAnswer) (s : State) : (mapPart a s).phase = s.phase := rfl
@[simp] theorem mapPart_hostTick (a : SetupAnswer) (s : State) : (mapPart a s).hostTick = s.hostTick + 1 := rfl
@[simp] theorem mapPart_calls (a : SetupAnswer) (s : State) : (mapPart a s).calls = s.calls ++ [.setupPart s.reqPart] := rfl

/-! Presenting the draw target. -/

@[simp] theorem presentPage_v (s : State) : (presentPage s).v = s.v := rfl
@[simp] theorem presentPage_thrPc (s : State) : (presentPage s).thrPc = s.thrPc := rfl
@[simp] theorem presentPage_redir (s : State) : (presentPage s).redir = s.redir := rfl
@[simp] theorem presentPage_pausedCur (s : State) : (presentPage s).pausedCur = s.pausedCur := rfl
@[simp] theorem presentPage_pausedReq (s : State) : (presentPage s).pausedReq = s.pausedReq := rfl
@[simp] theorem presentPage_curThr (s : State) : (presentPage s).curThr = s.curThr := rfl
@[simp] theorem presentPage_pc (s : State) : (presentPage s).pc = s.pc := rfl
@[simp] theorem presentPage_insnPc (s : State) : (presentPage s).insnPc = s.insnPc := rfl
@[simp] theorem presentPage_yield (s : State) : (presentPage s).yield = s.yield := rfl
@[simp] theorem presentPage_stack (s : State) : (presentPage s).stack = s.stack := rfl
@[simp] theorem presentPage_sp (s : State) : (presentPage s).sp = s.sp := rfl
@[simp] theorem presentPage_pages (s : State) : (presentPage s).pages = s.pages := rfl
@[simp] theorem presentPage_ptr1 (s : State) : (presentPage s).ptr1 = s.ptr1 := rfl
@[simp] theorem presentPage_ptr2 (s : State) : (presentPage s).ptr2 = s.ptr2 := rfl
@[simp] theorem presentPage_ptr3 (s : State) : (presentPage s).ptr3 = s.ptr3 := rfl
@[simp] theorem presentPage_reqPal (s : State) : (presentPage s).reqPal = s.reqPal := rfl
@[simp] theorem presentPage_curPal (s : State) : (presentPage s).curPal = s.curPal := rfl
@[simp] theorem presentPage_lastTs (s : State) : (presentPage s).lastTs = s.lastTs := rfl
@[simp] theorem presentPage_reqPart (s : State) : (presentPage s).reqPart = s.reqPart := rfl
@[simp] theorem presentPage_seg (s : State) : (presentPage s).seg = s.seg := rfl
@[simp] theorem presentPage_mem (s : State) : (presentPage s).mem = s.mem := rfl
@[simp] theorem presentPage_fault (s : State) : (presentPage s).fault = s.fault := rfl
@[simp] theorem presentPage_log (s : State) : (presentPage s).log = s.log := rfl
@[simp] theorem presentPage_arenaSize (s : State) : (presentPage s).arenaSize = s.arenaSize := rfl
@[simp] theorem presentPage_hierDepthMax (s : State) : (presentPage s).hierDepthMax = s.hierDepthMax := rfl
@[simp] theorem presentPage_phase (s : State) : (presentPage s).phase = s.phase := rfl
@[simp] theorem presentPage_hostTick (s : State) : (presentPage s).hostTick = s.hostTick := rfl
@[simp] theorem presentPage_calls (s : State) : (presentPage s).calls = s.calls ++ [.present s.pages[s.ptr1]] := rfl

/-! The pacing step of blit. -/

@[simp] theorem pace_v (clock : Nat → Nat) (s : State) : (pace clock s).v = s.v := rfl
@[simp] theorem pace_thrPc (clock : Nat → Nat) (s : State) : (pace clock s).thrPc = s.thrPc := rfl
@[simp] theorem pace_redir (clock : Nat → Nat) (s : State) : (pace clock s).redir = s.redir := rfl
@[simp] theorem pace_pausedCur (clock : Nat → Nat) (s : State) : (pace clock s).pausedCur = s.pausedCur := rfl
@[simp] theorem pace_pausedReq (clock : Nat → Nat) (s : State) : (pace clock s).pausedReq = s.pausedReq := rfl
@[simp] theorem pace_curThr (clock : Nat → Nat) (s : State) : (pace clock s).curThr = s.curThr := rfl
@[simp] theorem pace_pc (clock : Nat → Nat) (s : State) : (pace clock s).pc = s.pc := rfl
@[simp] theorem pace_insnPc (clock : Nat → Nat) (s : State) : (pace clock s).insnPc = s.insnPc := rfl
@[simp] theorem pace_yield (clock : Nat → Nat) (s : State) : (pace clock s).yield = s.yield := rfl
@[simp] theorem pace_stack (clock : Nat → Nat) (s : State) : (pace clock s).stack = s.stack := rfl
@[simp] theorem pace_sp (clock : Nat → Nat) (s : State) : (pace clock s).sp = s.sp := rfl
@[simp] theorem pace_pages (clock : Nat → Nat) (s : State) : (pace clock s).pages = s.pages := rfl
@[simp] theorem pace_ptr1 (clock : Nat → Nat) (s : State) : (pace clock s).ptr1 = s.ptr1 := rfl
@[simp] theorem pace_ptr2 (clock : Nat → Nat) (s : State) : (pace clock s).ptr2 = s.ptr2 := rfl
@[simp] theorem pace_ptr3 (clock : Nat → Nat) (s : State) : (pace clock s).ptr3 = s.ptr3 := rfl
@[simp] theorem pace_reqPal (clock : Nat → Nat) (s : State) : (pace clock s).reqPal = s.reqPal := rfl
@[simp] theorem pace_curPal (clock : Nat → Nat) (s : State) : (pace clock s).curPal = s.curPal := rfl
@[simp] theorem pace_lastTs (clock : Nat → Nat) (s : State) : (pace clock s).lastTs = clock (s.hostTick + 1) := rfl
@[simp] theorem pace_reqPart (clock : Nat → Nat) (s : State) : (pace clock s).reqPart = s.reqPart := rfl
@[simp] theorem pace_seg (clock : Nat → Nat) (s : State) : (pace clock s).seg = s.seg := rfl
@[simp] theorem pace_mem (clock : Nat → Nat) (s : State) : (pace clock s).mem = s.mem := rfl
@[simp] theorem pace_fault (clock : Nat → Nat) (s : State) : (pace clock s).fault = s.fault := rfl
@[simp] theorem pace_log (clock : Nat → Nat) (s : State) : (pace clock s).log = s.log := rfl
@[simp] theorem pace_arenaSize (clock : Nat → Nat) (s : State) : (pace clock s).arenaSize = s.arenaSize := rfl
@[simp] theorem pace_hierDepthMax (clock : Nat → Nat) (s : State) : (pace clock s).hierDepthMax = s.hierDepthMax := rfl
@[simp] theorem pace_phase (clock : Nat → Nat) (s : State) : (pace clock s).phase = s.phase := rfl
@[simp] theorem pace_hostTick (clock : Nat → Nat) (s : State) : (pace clock s).hostTick = s.hostTick + 2 := rfl
@[simp] theorem pace_calls (clock : Nat → Nat) (s : State) : (pace clock s).calls = s.calls ++ [.getTimestamp] ++ (if 0 < sleepTime s (clock s.hostTick) then [.sleep (sleepTime s (clock s.hostTick))] else []) ++ [.getTimestamp] := rfl

/-! Two states with the same fields are the same state. -/

theorem State.fields_ext (s t : State) (h : s.v = t.v ∧ s.thrPc = t.thrPc ∧ s.redir = t.redir ∧ s.pausedCur = t.pausedCur ∧ s.pausedReq = t.pausedReq ∧ s.curThr = t.curThr ∧ s.pc = t.pc ∧ s.insnPc = t.insnPc ∧ s.yield = t.yield ∧ s.stack = t.stack ∧ s.sp = t.sp ∧ s.pages = t.pages ∧ s.ptr1 = t.ptr1 ∧ s.ptr2 = t.ptr2 ∧ s.ptr3 = t.ptr3 ∧ s.reqPal = t.reqPal ∧ s.curPal = t.curPal ∧ s.lastTs = t.lastTs ∧ s.reqPart = t.reqPart ∧ s.seg = t.seg ∧ s.mem = t.mem ∧ s.fault = t.fault ∧ s.log = t.log ∧ s.arenaSize = t.arenaSize ∧ s.hierDepthMax = t.hierDepthMax ∧ s.phase = t.phase ∧ s.hostTick = t.hostTick ∧ s.calls = t.calls) : s = t := by
  cases s
  cases t
  simpa only [State.mk.injEq] using h

end Sys2Proof.Machine
end

