-- ==== Sys2Proof/Laws/Memory.lean ====
section
/-! SUPPORT. The arena's contents: a read after a write, the canonical form kept by every memory operation, and what the
loader's writes do and leave alone. -/

namespace Sys2Proof.Machine

/-- The canonical form from an address on holds from any lower address on. -/
theorem Memory.wfFrom_mono {lo lo' : Nat} {m : Memory} (h : lo' ≤ lo) (hm : Memory.wfFrom lo m = true) :
    Memory.wfFrom lo' m = true := by
  cases m with
  | nil => rfl
  | cons c r =>
    simp only [Memory.wfFrom, Bool.and_eq_true, decide_eq_true_eq] at hm ⊢
    exact ⟨⟨by omega, hm.1.2⟩, hm.2⟩

/-- Below the first listed address nothing is listed. -/
theorem Memory.read_of_wfFrom {lo a : Nat} {m : Memory} (hm : Memory.wfFrom lo m = true) (h : a < lo) :
    m.read a = Memory.unlisted := by
  induction m generalizing lo with
  | nil => rfl
  | cons c r ih =>
    simp only [Memory.wfFrom, Bool.and_eq_true, decide_eq_true_eq] at hm
    rw [Memory.read, if_neg (by omega)]
    exact ih hm.2 (by omega)

/-- A write keeps the canonical form. -/
theorem Memory.wfFrom_write {lo a : Nat} {x : Byte} {m : Memory} (hm : Memory.wfFrom lo m = true) (h : lo ≤ a) :
    Memory.wfFrom lo (m.write a x) = true := by
  induction m generalizing lo with
  | nil =>
    simp only [Memory.write]
    split
    · rfl
    · simp_all [Memory.wfFrom]
  | cons c r ih =>
    obtain ⟨b, y⟩ := c
    simp only [Memory.wfFrom, Bool.and_eq_true, decide_eq_true_eq] at hm
    simp only [Memory.write]
    split
    · split
      · simp_all [Memory.wfFrom]
      · simp only [Memory.wfFrom, Bool.and_eq_true, decide_eq_true_eq]
        exact ⟨⟨h, ‹_›⟩, ⟨by omega, hm.1.2⟩, hm.2⟩
    · split
      · subst a
        split
        · exact Memory.wfFrom_mono (by omega) hm.2
        · simp only [Memory.wfFrom, Bool.and_eq_true, decide_eq_true_eq]
          exact ⟨⟨h, ‹_›⟩, hm.2⟩
      · simp only [Memory.wfFrom, Bool.and_eq_true, decide_eq_true_eq]
        exact ⟨hm.1, ih hm.2 (by omega)⟩

theorem Memory.wf_write {a : Nat} {x : Byte} {m : Memory} (hm : m.wf = true) : (m.write a x).wf = true :=
  Memory.wfFrom_write hm (Nat.zero_le a)

/-- Every other address reads as before a write. -/
theorem Memory.read_write_other {a b : Nat} (x : Byte) (m : Memory) (h : b ≠ a) : (m.write a x).read b = m.read b := by
  induction m with
  | nil =>
    simp only [Memory.write]
    split <;> simp [Memory.read, h]
  | cons c r ih =>
    obtain ⟨k, y⟩ := c
    simp only [Memory.write]
    split
    · split <;> simp [Memory.read, h]
    · split
      · subst a
        split <;> simp [Memory.read, h]
      · simp only [Memory.read, ih]

/-- The address written reads the value written. -/
theorem Memory.read_write_same {a lo : Nat} {x : Byte} {m : Memory} (hm : Memory.wfFrom lo m = true) :
    (m.write a x).read a = x := by
  induction m generalizing lo with
  | nil =>
    simp only [Memory.write]
    split <;> simp_all [Memory.read]
  | cons c r ih =>
    obtain ⟨k, y⟩ := c
    simp only [Memory.wfFrom, Bool.and_eq_true, decide_eq_true_eq] at hm
    simp only [Memory.write]
    split
    · split
      · rw [Memory.read, if_neg (by omega), Memory.read_of_wfFrom hm.2 (by omega)]
        exact (‹x = Memory.unlisted›).symm
      · simp [Memory.read]
    · split
      · subst a
        split
        · rw [Memory.read_of_wfFrom hm.2 (by omega)]
          exact (‹x = Memory.unlisted›).symm
        · simp [Memory.read]
      · rw [Memory.read, if_neg ‹_›]
        exact ih hm.2

/-- A written address is one that was listed or the one written. -/
theorem Memory.mem_write {a : Nat} {x : Byte} {m : Memory} {c : Host.Cell} (h : c ∈ m.write a x) :
    c.1 = a ∨ c ∈ m := by
  induction m with
  | nil =>
    simp only [Memory.write] at h
    split at h <;> simp_all
  | cons d r ih =>
    obtain ⟨k, y⟩ := d
    simp only [Memory.write] at h
    split at h
    · split at h
      · exact .inr h
      · simp only [List.mem_cons] at h ⊢
        rcases h with h | h | h <;> simp_all
    · split at h
      · split at h
        · exact .inr (List.mem_cons_of_mem _ h)
        · simp only [List.mem_cons] at h ⊢
          rcases h with h | h <;> simp_all
      · simp only [List.mem_cons] at h ⊢
        rcases h with h | h
        · exact .inr (.inl h)
        · rcases ih h with h | h <;> simp_all

/-! The loader's writes, and bytes stored one after another. -/

/-- The loader's writes keep the canonical form. -/
theorem loaderWrites_wf (allowed : Nat → Bool) (ws : List Host.Cell) (m : Memory) (hm : m.wf = true) :
    (loaderWrites allowed ws m).wf = true := by
  induction ws generalizing m with
  | nil => exact hm
  | cons c r ih =>
    simp only [loaderWrites, List.foldl_cons] at ih ⊢
    split
    · exact ih _ (Memory.wf_write hm)
    · exact ih _ hm

/-- An address that no write names, or that the call does not allow, reads as before. -/
theorem loaderWrites_read (allowed : Nat → Bool) (ws : List Host.Cell) (m : Memory) (a : Nat)
    (h : ∀ c ∈ ws, c.1 = a → allowed a = false) : (loaderWrites allowed ws m).read a = m.read a := by
  induction ws generalizing m with
  | nil => rfl
  | cons c r ih =>
    have hr : ∀ d ∈ r, d.1 = a → allowed a = false := fun d hd => h d (List.mem_cons_of_mem _ hd)
    simp only [loaderWrites, List.foldl_cons] at ih ⊢
    split
    · rename_i hc
      rw [ih _ hr]
      apply Memory.read_write_other
      rintro rfl
      have := h c List.mem_cons_self rfl
      simp_all
    · exact ih _ hr

/-- A byte listed after the loader's writes was listed before or is one the call allows. -/
theorem loaderWrites_mem (allowed : Nat → Bool) (ws : List Host.Cell) (m : Memory) (c : Host.Cell)
    (h : c ∈ loaderWrites allowed ws m) : allowed c.1 = true ∨ c ∈ m := by
  induction ws generalizing m with
  | nil => exact .inr h
  | cons d r ih =>
    simp only [loaderWrites, List.foldl_cons] at ih h
    split at h
    · rcases ih _ h with h | h
      · exact .inl h
      · rcases Memory.mem_write h with h | h
        · exact .inl (h ▸ ‹_›)
        · exact .inr h
    · exact ih _ h

/-- The last value the loader writes to an allowed address is read there (70_reset_and_hazards.md R316 to R318). -/
theorem loaderWrites_lands (allowed : Nat → Bool) (front back : List Host.Cell) (m : Memory) (a : Nat) (x : Byte)
    (hm : m.wf = true) (hb : ∀ c ∈ back, c.1 ≠ a) (ha : allowed a = true) :
    (loaderWrites allowed (front ++ (a, x) :: back) m).read a = x := by
  have hsplit : loaderWrites allowed (front ++ (a, x) :: back) m =
      loaderWrites allowed back ((loaderWrites allowed front m).write a x) := by
    simp [loaderWrites, List.foldl_append, ha]
  rw [hsplit, loaderWrites_read _ _ _ _ fun c hc h => absurd h (hb c hc)]
  exact Memory.read_write_same (loaderWrites_wf allowed front m hm)

/-- What the loader's writes do, in one statement. -/
theorem loaderWrites_wrote (allowed : Nat → Bool) (ws : List Host.Cell) (m : Memory) :
    LoaderWrote allowed ws m (loaderWrites allowed ws m) :=
  ⟨fun a h => loaderWrites_read allowed ws m a h, fun hm => ⟨loaderWrites_wf allowed ws m hm,
    fun front back a x hw hb ha => by rw [hw]; exact loaderWrites_lands allowed front back m a x hm hb ha⟩⟩

/-- Bytes stored one after another keep the canonical form. -/
theorem storeBytes_wf (m : Memory) (a : Nat) (bs : List Byte) (hm : m.wf = true) : (storeBytes m a bs).wf = true := by
  induction bs generalizing m a with
  | nil => exact hm
  | cons b r ih => exact ih _ _ (Memory.wf_write hm)

/-- An address before the stored bytes or after them reads as before. -/
theorem storeBytes_read_other (m : Memory) (a b : Nat) (bs : List Byte) (h : b < a ∨ a + bs.length ≤ b) :
    (storeBytes m a bs).read b = m.read b := by
  induction bs generalizing m a with
  | nil => rfl
  | cons x r ih =>
    simp only [List.length_cons] at h
    rw [storeBytes, ih _ _ (by omega), Memory.read_write_other _ _ (by omega)]

/-- Byte k of the stored bytes reads back. -/
theorem storeBytes_read (m : Memory) (a k : Nat) (bs : List Byte) (hm : m.wf = true) (hk : k < bs.length) :
    (storeBytes m a bs).read (a + k) = bs[k] := by
  induction bs generalizing m a k with
  | nil => simp at hk
  | cons x r ih =>
    rw [storeBytes]
    cases k with
    | zero =>
      rw [storeBytes_read_other _ _ _ _ (by omega)]
      exact Memory.read_write_same (lo := 0) hm
    | succ k =>
      have hk' : k < r.length := by simpa using hk
      have e : a + (k + 1) = a + 1 + k := by omega
      rw [e, ih _ _ _ (Memory.wf_write hm) hk']
      rfl

end Sys2Proof.Machine
end

