-- ==== Sys2Proof/Laws/Segments.lean ====
section
/-! SUPPORT. Segment-relative reads: what `segRead8`, `segRead16` and `window` can do, and what a known window says of the
reads inside it. -/

namespace Sys2Proof.Machine

/-- The offset is inside the segment and the arena (20_memory.md R68). -/
def readable (s : State) (g : Segment) (off : Nat) : Prop :=
  off < (segOf s.seg g).len ∧ (segOf s.seg g).base + off < s.arenaSize

theorem segRead8_cases (s : State) (g : Segment) (off : Nat) :
    (readable s g off ∧ segRead8 s g off = .ok (s.mem.read ((segOf s.seg g).base + off))) ∨
      (¬ readable s g off ∧ segRead8 s g off = .error (raise s (.segmentBounds g off))) := by
  simp only [segRead8, readable]
  split
  · right
    exact ⟨by omega, rfl⟩
  · left
    exact ⟨by omega, rfl⟩

theorem segRead16_cases (s : State) (g : Segment) (off : Nat) :
    (readable s g (off + 1) ∧ segRead16 s g off =
        .ok (bigEndian (s.mem.read ((segOf s.seg g).base + off)) (s.mem.read ((segOf s.seg g).base + off + 1)))) ∨
      (¬ readable s g (off + 1) ∧ segRead16 s g off = .error (raise s (.segmentBounds g off))) := by
  simp only [segRead16, readable]
  split
  · right
    exact ⟨by omega, rfl⟩
  · left
    exact ⟨by omega, rfl⟩

/-- A read that succeeds names its byte; one that fails names its state. -/
theorem segRead8_ok {s : State} {g : Segment} {off : Nat} {b : Byte} (h : segRead8 s g off = .ok b) :
    readable s g off ∧ b = s.mem.read ((segOf s.seg g).base + off) := by
  rcases segRead8_cases s g off with ⟨hr, e⟩ | ⟨_, e⟩ <;> rw [e] at h
  · exact ⟨hr, by simpa using h.symm⟩
  · cases h

theorem segRead8_error {s e : State} {g : Segment} {off : Nat} (h : segRead8 s g off = .error e) :
    ¬ readable s g off ∧ e = raise s (.segmentBounds g off) := by
  rcases segRead8_cases s g off with ⟨_, q⟩ | ⟨hr, q⟩ <;> rw [q] at h
  · cases h
  · exact ⟨hr, by simpa using h.symm⟩

theorem segRead16_ok {s : State} {g : Segment} {off : Nat} {w : Word} (h : segRead16 s g off = .ok w) :
    readable s g (off + 1) ∧
      w = bigEndian (s.mem.read ((segOf s.seg g).base + off)) (s.mem.read ((segOf s.seg g).base + off + 1)) := by
  rcases segRead16_cases s g off with ⟨hr, e⟩ | ⟨_, e⟩ <;> rw [e] at h
  · exact ⟨hr, by simpa using h.symm⟩
  · cases h

theorem segRead16_error {s e : State} {g : Segment} {off : Nat} (h : segRead16 s g off = .error e) :
    ¬ readable s g (off + 1) ∧ e = raise s (.segmentBounds g off) := by
  rcases segRead16_cases s g off with ⟨_, q⟩ | ⟨hr, q⟩ <;> rw [q] at h
  · cases h
  · exact ⟨hr, by simpa using h.symm⟩

/-- Two byte reads make a word read (20_memory.md R67). -/
theorem segRead16_of_bytes {s : State} {g : Segment} {off : Nat} {h l : Byte} (hh : segRead8 s g off = .ok h)
    (hl : segRead8 s g (off + 1) = .ok l) : segRead16 s g off = .ok (bigEndian h l) := by
  obtain ⟨_, rfl⟩ := segRead8_ok hh
  obtain ⟨hr, rfl⟩ := segRead8_ok hl
  rcases segRead16_cases s g off with ⟨_, e⟩ | ⟨hn, _⟩
  · rw [e, Nat.add_assoc]
  · exact absurd hr hn

/-! Windows. -/

@[simp] theorem window_zero (s : State) (g : Segment) (off : Nat) : window s g off 0 = [] := rfl

theorem window_length_le (s : State) (g : Segment) (off n : Nat) : (window s g off n).length ≤ n := by
  induction n generalizing off with
  | zero => simp
  | succ n ih =>
    simp only [window]
    split
    · simpa using ih (off + 1)
    · simp

/-- A window that starts with a byte: that byte reads, and the rest is the window after it. -/
theorem window_cons {s : State} {g : Segment} {off n : Nat} {b : Byte} {r : List Byte}
    (h : window s g off n = b :: r) :
    ∃ k, n = k + 1 ∧ segRead8 s g off = .ok b ∧ window s g (off + 1) k = r := by
  cases n with
  | zero => simp at h
  | succ k =>
    simp only [window] at h
    split at h
    · rename_i c hc
      simp only [List.cons.injEq] at h
      exact ⟨k, rfl, by rw [hc, h.1], h.2⟩
    · cases h

/-- Byte k of a window is what the read at its offset answers. -/
theorem window_get {s : State} {g : Segment} {off n k : Nat} {b : Byte} (h : (window s g off n)[k]? = some b) :
    segRead8 s g (off + k) = .ok b := by
  induction n generalizing off k with
  | zero => simp at h
  | succ n ih =>
    simp only [window] at h
    split at h
    · rename_i c hc
      cases k with
      | zero => simpa [hc] using h
      | succ k =>
        have := ih (off := off + 1) (k := k) (by simpa using h)
        rwa [show off + (k + 1) = off + 1 + k by omega]
    · simp at h

/-- A shorter window is the front of a longer one. -/
theorem window_take (s : State) (g : Segment) (off : Nat) {m n : Nat} (h : m ≤ n) :
    window s g off m = (window s g off n).take m := by
  induction m generalizing off n with
  | zero => simp
  | succ m ih =>
    cases n with
    | zero => omega
    | succ n =>
      simp only [window]
      split
      · rw [List.take_succ_cons, ih (off + 1) (show m ≤ n by omega)]
      · rfl

/-- Where a window is shorter than asked for, the read after its last byte is out of bounds. -/
theorem window_end {s : State} {g : Segment} {off n : Nat} (h : (window s g off n).length < n) :
    ¬ readable s g (off + (window s g off n).length) := by
  induction n generalizing off with
  | zero => simp at h
  | succ n ih =>
    rcases segRead8_cases s g off with ⟨_, e⟩ | ⟨hr, e⟩
    · simp only [window, e, List.length_cons] at h ⊢
      have := ih (off := off + 1) (by omega)
      rwa [show off + ((window s g (off + 1) n).length + 1) = off + 1 + (window s g (off + 1) n).length by omega]
    · simpa only [window, e, List.length_nil, Nat.add_zero] using hr

/-- Where every byte of a list reads at its place, the window of that length is the list. -/
theorem window_eq_of_reads {s : State} {g : Segment} {off : Nat} {bs : List Byte}
    (h : ∀ k (hk : k < bs.length), segRead8 s g (off + k) = .ok bs[k]) : window s g off bs.length = bs := by
  induction bs generalizing off with
  | nil => rfl
  | cons b r ih =>
    have h0 := h 0 (by simp)
    simp only [Nat.add_zero, List.getElem_cons_zero] at h0
    simp only [List.length_cons, window, h0]
    rw [ih]
    intro k hk
    have := h (k + 1) (by simpa using hk)
    rw [show off + 1 + k = off + (k + 1) by omega, this]
    rfl

/-- Two states that map and hold the same arena read the same windows. -/
theorem window_congr {s s' : State} (g : Segment) (hm : s'.mem = s.mem) (hs : s'.seg = s.seg)
    (ha : s'.arenaSize = s.arenaSize) (off n : Nat) : window s' g off n = window s g off n := by
  induction n generalizing off with
  | zero => rfl
  | succ n ih =>
    have hr : readable s' g off ↔ readable s g off := by simp only [readable, hs, ha]
    simp only [window]
    rcases segRead8_cases s' g off with ⟨h1, e1⟩ | ⟨h1, e1⟩ <;> rcases segRead8_cases s g off with ⟨h2, e2⟩ | ⟨h2, e2⟩
    · simp only [e1, e2, ih, hm, hs]
    · exact absurd (hr.1 h1) h2
    · exact absurd (hr.2 h2) h1
    · simp only [e1, e2]

end Sys2Proof.Machine
end

