-- ==== Sys2Proof/Laws/Operands.lean ====
section
/-! SUPPORT. What the register operations and the operand forms can do: variables, page ids, the comparison of
`cond_jmp`, the pacing and the aliases of `blit`. -/

namespace Sys2Proof.Machine

/-- A variable write changes its own slot only (10_state.md R21). -/
theorem getVar_setVar (s : State) (d j : Byte) (x : Word) :
    getVar (setVar s d x) j = if j = d then x else getVar s j := by
  simp only [getVar, setVar, Vector.getElem_set]
  by_cases h : d.toNat = j.toNat
  · have : j = d := (BitVec.eq_of_toNat_eq h).symm
    simp [this]
  · have : j ≠ d := by
      rintro rfl
      exact h rfl
    simp [h, this]

@[simp] theorem getVar_setVar_same (s : State) (d : Byte) (x : Word) : getVar (setVar s d x) d = x := by
  simp [getVar_setVar]

theorem getVar_setVar_other (s : State) {d j : Byte} (x : Word) (h : j ≠ d) : getVar (setVar s d x) j = getVar s j := by
  simp [getVar_setVar, h]

/-- Resolving a page id changes nothing but the log, and the page it answers depends on the two aliases alone. -/
theorem resolvePage_state (s : State) (id : Byte) :
    (resolvePage s id).2 = { s with log := (resolvePage s id).2.log } := by
  simp only [resolvePage]
  split
  · rfl
  · split
    · rfl
    · split <;> rfl

theorem resolvePage_page (s s' : State) (id : Byte) (h2 : s'.ptr2 = s.ptr2) (h3 : s'.ptr3 = s.ptr3) :
    (resolvePage s' id).1 = (resolvePage s id).1 := by
  simp only [resolvePage, h2, h3]
  split
  · rfl
  · split
    · rfl
    · split <;> rfl

/-- What resolving a page id adds to the log. -/
def resolveLog (s : State) (id : Byte) : List LogRecord :=
  if id.toNat < 4 ∨ id = 0xFE ∨ id = 0xFF then [] else [⟨.soft (.badPageId s.insnPc id), s.insnPc, s.curThr⟩]

theorem resolvePage_log (s : State) (id : Byte) : (resolvePage s id).2.log = s.log ++ resolveLog s id := by
  simp only [resolvePage, resolveLog, Config.pageAlias2, Config.pageAlias3]
  by_cases h : id.toNat < 4
  · simp [h]
  · by_cases h2 : id = 0xFE
    · simp [h2]
    · by_cases h3 : id = 0xFF
      · simp [h3]
      · simp only [h, h2, h3, if_false, dite_false, or_self, logSoft]

/-- Resolving a page id logs at most one `BAD_PAGE_ID`. -/
theorem resolveLog_bad_page (s : State) (id : Byte) : (resolveLog s id).length ≤ 1 ∧
    ∀ r ∈ resolveLog s id, r = ⟨.soft (.badPageId s.insnPc id), s.insnPc, s.curThr⟩ := by
  unfold resolveLog
  split <;> simp

/-- `cond_jmp` changes `pc` and the log alone. -/
theorem condJump_state (s : State) (cc : Byte) (b a target : Word) :
    condJump s cc b a target =
      { s with
        pc := if compareSigned (comparator cc) b a then target else s.pc
        log := if comparator cc < 6 then s.log else s.log ++ [⟨.soft (.badComparator s.insnPc cc), s.insnPc, s.curThr⟩] } := by
  simp only [condJump]
  by_cases h : comparator cc < 6 <;> simp only [h, if_true, if_false] <;> split <;> rfl

/-- The comparison as a statement about signed integers (41_control_transfer.md R140). -/
theorem compareSigned_iff (cmp : Nat) (b a : Word) :
    compareSigned cmp b a = true ↔
      (cmp = 0 ∧ b.toInt = a.toInt) ∨ (cmp = 1 ∧ b.toInt ≠ a.toInt) ∨ (cmp = 2 ∧ b.toInt > a.toInt) ∨
        (cmp = 3 ∧ b.toInt ≥ a.toInt) ∨ (cmp = 4 ∧ b.toInt < a.toInt) ∨ (cmp = 5 ∧ b.toInt ≤ a.toInt) := by
  match cmp with
  | 0 => simp [compareSigned, BitVec.toInt_inj]
  | 1 => simp [compareSigned, BitVec.toInt_inj]
  | 2 => simp [compareSigned]
  | 3 => simp [compareSigned]
  | 4 => simp [compareSigned]
  | 5 => simp [compareSigned]
  | n + 6 => simp [compareSigned]

theorem comparator_eq (cc : Byte) : comparator cc = cc.toNat % 8 := by
  simp only [comparator, BitVec.toNat_setWidth]

/-- The host calls of `Pace()` (43_video_page.md R177). -/
def paceCalls (clock : Nat → Nat) (s : State) : List HostCall :=
  .getTimestamp :: ((if 0 < sleepTime s (clock s.hostTick) then [.sleep (sleepTime s (clock s.hostTick))] else []) ++
    [.getTimestamp])

theorem pace_state (clock : Nat → Nat) (s : State) :
    pace clock s = { s with
      lastTs := clock (s.hostTick + 1)
      hostTick := s.hostTick + 2
      calls := s.calls ++ paceCalls clock s } := by
  simp [pace, paceCalls]

/-- `UpdateAliases` changes the two aliases and the log alone. -/
theorem updateAliases_state (id : Byte) (s : State) :
    updateAliases id s =
      { s with
        ptr2 := (updateAliases id s).ptr2
        ptr3 := (updateAliases id s).ptr3
        log := s.log ++ resolveLog s id } := by
  simp only [updateAliases, Config.pageAlias2, Config.pageAlias3]
  by_cases h2 : id = 0xFE
  · simp [h2, resolveLog]
  · by_cases h3 : id = 0xFF
    · simp [h3, resolveLog]
    · simp only [h2, h3, if_false]
      conv_lhs => rw [resolvePage_state s id]
      rw [resolvePage_log]
      conv_rhs => rw [resolvePage_state s id]

/-! The fields that resolving a page id and updating the aliases leave alone. -/

@[simp] theorem resolvePage_v (s : State) (id : Byte) : (resolvePage s id).2.v = s.v := by rw [resolvePage_state]
@[simp] theorem resolvePage_thrPc (s : State) (id : Byte) : (resolvePage s id).2.thrPc = s.thrPc := by rw [resolvePage_state]
@[simp] theorem resolvePage_redir (s : State) (id : Byte) : (resolvePage s id).2.redir = s.redir := by rw [resolvePage_state]
@[simp] theorem resolvePage_pausedCur (s : State) (id : Byte) : (resolvePage s id).2.pausedCur = s.pausedCur := by rw [resolvePage_state]
@[simp] theorem resolvePage_pausedReq (s : State) (id : Byte) : (resolvePage s id).2.pausedReq = s.pausedReq := by rw [resolvePage_state]
@[simp] theorem resolvePage_curThr (s : State) (id : Byte) : (resolvePage s id).2.curThr = s.curThr := by rw [resolvePage_state]
@[simp] theorem resolvePage_pc (s : State) (id : Byte) : (resolvePage s id).2.pc = s.pc := by rw [resolvePage_state]
@[simp] theorem resolvePage_insnPc (s : State) (id : Byte) : (resolvePage s id).2.insnPc = s.insnPc := by rw [resolvePage_state]
@[simp] theorem resolvePage_yield (s : State) (id : Byte) : (resolvePage s id).2.yield = s.yield := by rw [resolvePage_state]
@[simp] theorem resolvePage_stack (s : State) (id : Byte) : (resolvePage s id).2.stack = s.stack := by rw [resolvePage_state]
@[simp] theorem resolvePage_sp (s : State) (id : Byte) : (resolvePage s id).2.sp = s.sp := by rw [resolvePage_state]
@[simp] theorem resolvePage_pages (s : State) (id : Byte) : (resolvePage s id).2.pages = s.pages := by rw [resolvePage_state]
@[simp] theorem resolvePage_ptr1 (s : State) (id : Byte) : (resolvePage s id).2.ptr1 = s.ptr1 := by rw [resolvePage_state]
@[simp] theorem resolvePage_ptr2 (s : State) (id : Byte) : (resolvePage s id).2.ptr2 = s.ptr2 := by rw [resolvePage_state]
@[simp] theorem resolvePage_ptr3 (s : State) (id : Byte) : (resolvePage s id).2.ptr3 = s.ptr3 := by rw [resolvePage_state]
@[simp] theorem resolvePage_reqPal (s : State) (id : Byte) : (resolvePage s id).2.reqPal = s.reqPal := by rw [resolvePage_state]
@[simp] theorem resolvePage_curPal (s : State) (id : Byte) : (resolvePage s id).2.curPal = s.curPal := by rw [resolvePage_state]
@[simp] theorem resolvePage_lastTs (s : State) (id : Byte) : (resolvePage s id).2.lastTs = s.lastTs := by rw [resolvePage_state]
@[simp] theorem resolvePage_reqPart (s : State) (id : Byte) : (resolvePage s id).2.reqPart = s.reqPart := by rw [resolvePage_state]
@[simp] theorem resolvePage_seg (s : State) (id : Byte) : (resolvePage s id).2.seg = s.seg := by rw [resolvePage_state]
@[simp] theorem resolvePage_mem (s : State) (id : Byte) : (resolvePage s id).2.mem = s.mem := by rw [resolvePage_state]
@[simp] theorem resolvePage_fault (s : State) (id : Byte) : (resolvePage s id).2.fault = s.fault := by rw [resolvePage_state]
@[simp] theorem resolvePage_arenaSize (s : State) (id : Byte) : (resolvePage s id).2.arenaSize = s.arenaSize := by rw [resolvePage_state]
@[simp] theorem resolvePage_hierDepthMax (s : State) (id : Byte) : (resolvePage s id).2.hierDepthMax = s.hierDepthMax := by rw [resolvePage_state]
@[simp] theorem resolvePage_phase (s : State) (id : Byte) : (resolvePage s id).2.phase = s.phase := by rw [resolvePage_state]
@[simp] theorem resolvePage_hostTick (s : State) (id : Byte) : (resolvePage s id).2.hostTick = s.hostTick := by rw [resolvePage_state]
@[simp] theorem resolvePage_calls (s : State) (id : Byte) : (resolvePage s id).2.calls = s.calls := by rw [resolvePage_state]

@[simp] theorem updateAliases_v (id : Byte) (s : State) : (updateAliases id s).v = s.v := by rw [updateAliases_state]
@[simp] theorem updateAliases_thrPc (id : Byte) (s : State) : (updateAliases id s).thrPc = s.thrPc := by rw [updateAliases_state]
@[simp] theorem updateAliases_redir (id : Byte) (s : State) : (updateAliases id s).redir = s.redir := by rw [updateAliases_state]
@[simp] theorem updateAliases_pausedCur (id : Byte) (s : State) : (updateAliases id s).pausedCur = s.pausedCur := by rw [updateAliases_state]
@[simp] theorem updateAliases_pausedReq (id : Byte) (s : State) : (updateAliases id s).pausedReq = s.pausedReq := by rw [updateAliases_state]
@[simp] theorem updateAliases_curThr (id : Byte) (s : State) : (updateAliases id s).curThr = s.curThr := by rw [updateAliases_state]
@[simp] theorem updateAliases_pc (id : Byte) (s : State) : (updateAliases id s).pc = s.pc := by rw [updateAliases_state]
@[simp] theorem updateAliases_insnPc (id : Byte) (s : State) : (updateAliases id s).insnPc = s.insnPc := by rw [updateAliases_state]
@[simp] theorem updateAliases_yield (id : Byte) (s : State) : (updateAliases id s).yield = s.yield := by rw [updateAliases_state]
@[simp] theorem updateAliases_stack (id : Byte) (s : State) : (updateAliases id s).stack = s.stack := by rw [updateAliases_state]
@[simp] theorem updateAliases_sp (id : Byte) (s : State) : (updateAliases id s).sp = s.sp := by rw [updateAliases_state]
@[simp] theorem updateAliases_pages (id : Byte) (s : State) : (updateAliases id s).pages = s.pages := by rw [updateAliases_state]
@[simp] theorem updateAliases_ptr1 (id : Byte) (s : State) : (updateAliases id s).ptr1 = s.ptr1 := by rw [updateAliases_state]
@[simp] theorem updateAliases_reqPal (id : Byte) (s : State) : (updateAliases id s).reqPal = s.reqPal := by rw [updateAliases_state]
@[simp] theorem updateAliases_curPal (id : Byte) (s : State) : (updateAliases id s).curPal = s.curPal := by rw [updateAliases_state]
@[simp] theorem updateAliases_lastTs (id : Byte) (s : State) : (updateAliases id s).lastTs = s.lastTs := by rw [updateAliases_state]
@[simp] theorem updateAliases_reqPart (id : Byte) (s : State) : (updateAliases id s).reqPart = s.reqPart := by rw [updateAliases_state]
@[simp] theorem updateAliases_seg (id : Byte) (s : State) : (updateAliases id s).seg = s.seg := by rw [updateAliases_state]
@[simp] theorem updateAliases_mem (id : Byte) (s : State) : (updateAliases id s).mem = s.mem := by rw [updateAliases_state]
@[simp] theorem updateAliases_fault (id : Byte) (s : State) : (updateAliases id s).fault = s.fault := by rw [updateAliases_state]
@[simp] theorem updateAliases_arenaSize (id : Byte) (s : State) : (updateAliases id s).arenaSize = s.arenaSize := by rw [updateAliases_state]
@[simp] theorem updateAliases_hierDepthMax (id : Byte) (s : State) : (updateAliases id s).hierDepthMax = s.hierDepthMax := by rw [updateAliases_state]
@[simp] theorem updateAliases_phase (id : Byte) (s : State) : (updateAliases id s).phase = s.phase := by rw [updateAliases_state]
@[simp] theorem updateAliases_hostTick (id : Byte) (s : State) : (updateAliases id s).hostTick = s.hostTick := by rw [updateAliases_state]
@[simp] theorem updateAliases_calls (id : Byte) (s : State) : (updateAliases id s).calls = s.calls := by rw [updateAliases_state]

theorem updateAliases_log (id : Byte) (s : State) : (updateAliases id s).log = s.log ++ resolveLog s id := by
  rw [updateAliases_state]

end Sys2Proof.Machine
end

