-- ==== Sys2Proof/Laws/Raster.lean ====
section
/-! SUPPORT. What the rasterizer can do: a fill changes the draw target alone, reads answer a value or the same state with
one fatal fault taken, a whole draw paints the draw target, logs soft conditions, and may end in one fatal fault, and the
children of a hierarchy are drawn in stored order. -/

namespace Sys2Proof.Machine

/-! ## Fill: the other pages -/

/-- Every page but `dst` is in `b` what it is in `a`. -/
def OthersKept (dst : Fin 4) (a b : Pages) : Prop := ∀ q : Fin 4, q ≠ dst → b[q] = a[q]

theorem OthersKept.refl (dst : Fin 4) (a : Pages) : OthersKept dst a a := fun _ _ => rfl

theorem OthersKept.trans {dst : Fin 4} {a b c : Pages} (h : OthersKept dst a b) (k : OthersKept dst b c) :
    OthersKept dst a c := fun q hq => (k q hq).trans (h q hq)

theorem putPixel_others (pages : Pages) (dst : Fin 4) (x y : Nat) (colour : Byte) :
    OthersKept dst pages (putPixel pages dst x y colour) := by
  intro q h
  have hv : ¬ dst.val = q.val := fun e => h (Fin.ext e.symm)
  simp only [putPixel, Fin.getElem_fin, Vector.getElem_set, hv, if_false]

theorem putRun_others (pages : Pages) (dst : Fin 4) (x y : Nat) (colour : Byte) (n : Nat) :
    OthersKept dst pages (putRun pages dst x y colour n) := by
  induction n generalizing pages x with
  | zero => exact .refl _ _
  | succ n ih => exact (putPixel_others _ _ _ _ _).trans (ih _ _)

theorem span_others (pages : Pages) (dst : Fin 4) (row : Nat) (x1 x2 : Int) (colour : Byte) :
    OthersKept dst pages (span pages dst row x1 x2 colour) := by
  simp only [span]
  split
  · exact putRun_others _ _ _ _ _ _
  · exact .refl _ _

theorem drawPoint_others (pages : Pages) (dst : Fin 4) (x y : Int) (colour : Byte) :
    OthersKept dst pages (drawPoint pages dst x y colour) := by
  simp only [drawPoint]
  split
  · exact putPixel_others _ _ _ _ _
  · exact .refl _ _

theorem walkRows_others (dst : Fin 4) (colour : Byte) (stepl stepr : Acc) (n : Nat) (w : Walk) :
    OthersKept dst w.pages (walkRows dst colour stepl stepr n w).1.pages := by
  induction n generalizing w with
  | zero => exact .refl _ _
  | succ n ih =>
    have hp : OthersKept dst w.pages
        (if 0 ≤ w.row then span w.pages dst w.row.toNat (accX w.cl) (accX w.cr) colour else w.pages) := by
      split
      · exact span_others _ _ _ _ _ _
      · exact .refl _ _
    by_cases hb : 199 < w.row + 1
    · simpa only [walkRows, hb, if_true] using hp
    · simp only [walkRows, hb, if_false]
      exact hp.trans (ih _)

theorem edgeWalk_others (dst : Fin 4) (colour : Byte) (here : Point × Point) (rest : List (Point × Point)) (w : Walk) :
    OthersKept dst w.pages (edgeWalk dst colour here rest w) := by
  induction rest generalizing here w with
  | nil => exact .refl _ _
  | cons next rest ih =>
    simp only [edgeWalk]
    split
    · exact ih _ _
    · have hw := walkRows_others dst colour (edgeStep here.2 next.2) (edgeStep here.1 next.1) (next.1.2 - here.1.2).toNat
        { w with cl := (w.cl &&& 0xFFFF0000) ||| 0x7FFF, cr := (w.cr &&& 0xFFFF0000) ||| 0x8000 }
      split <;> rename_i hr <;> rw [hr] at hw
      · exact hw
      · exact OthersKept.trans hw (ih _ _)

/-- A fill changes no page but the draw target (46_polygon_rasterizer.md R235). -/
theorem fillPolygon_others (pages : Pages) (dst : Fin 4) (p : Polygon) (colour : Byte) (x y : Word) :
    OthersKept dst pages (fillPolygon pages dst p colour x y) := by
  simp only [fillPolygon]
  split
  · exact drawPoint_others _ _ _ _ _
  · split
    · exact .refl _ _
    · split
      · exact .refl _ _
      · split
        · split
          · exact span_others _ _ _ _ _ _
          · exact .refl _ _
        · exact edgeWalk_others _ _ _ _ _

/-! ## Reads -/

/-- A fatal fault that drawing can raise: `BAD_VERTEX_COUNT`, `HIER_DEPTH` or `SEGMENT_BOUNDS` (60_exceptions.md R280). -/
def IsDrawFault (f : FatalFault) : Prop := f.code ∈ [3, 8, 6]

/-- A read of polygon data answers a value, or the state it read in with one fatal fault taken. -/
def ReadResult {α : Type} (s : State) (r : Except State α) : Prop :=
  ∀ e, r = .error e → ∃ f, e = raise s f ∧ IsDrawFault f

theorem ReadResult.bind {α β : Type} {s : State} {r : Except State α} {k : α → Except State β} (hr : ReadResult s r)
    (hk : ∀ a, ReadResult s (k a)) : ReadResult s (r >>= k) := by
  intro e h
  cases r with
  | error e' =>
    obtain ⟨f, rfl, hf⟩ := hr e' rfl
    exact ⟨f, by cases h; rfl, hf⟩
  | ok a => exact hk a e h

theorem ReadResult.pure {α : Type} {s : State} (a : α) : ReadResult s (pure a) := by
  intro e h
  cases h

theorem polyByte_result (s : State) (g : Segment) (dp : Nat) : ReadResult s (polyByte s g dp) := by
  intro e h
  simp only [polyByte] at h
  rcases segRead8_cases s g dp with ⟨_, q⟩ | ⟨_, q⟩ <;> rw [q] at h <;> cases h
  exact ⟨_, rfl, by simp [IsDrawFault, FatalFault.code]⟩

theorem polyWord_result (s : State) (g : Segment) (dp : Nat) : ReadResult s (polyWord s g dp) := by
  intro e h
  simp only [polyWord] at h
  rcases segRead16_cases s g dp with ⟨_, q⟩ | ⟨_, q⟩ <;> rw [q] at h <;> cases h
  exact ⟨_, rfl, by simp [IsDrawFault, FatalFault.code]⟩

theorem readPoints_result (s : State) (g : Segment) (zoom : Word) (dp n : Nat) :
    ReadResult s (readPoints s g zoom dp n) := by
  induction n generalizing dp with
  | zero => exact .pure _
  | succ n ih =>
    exact .bind (polyByte_result _ _ _) fun _ => .bind (polyByte_result _ _ _) fun _ => .bind (ih _) fun _ => .pure _

theorem readVertices_result (s : State) (g : Segment) (zoom : Word) (dp : Nat) :
    ReadResult s (readVertices s g zoom dp) := by
  refine .bind (polyByte_result _ _ _) fun _ => .bind (polyByte_result _ _ _) fun _ => .bind (polyByte_result _ _ _) fun _ => ?_
  dsimp only
  split
  · intro e h
    cases h
    exact ⟨_, rfl, by simp [IsDrawFault, FatalFault.code]⟩
  · exact .bind (readPoints_result _ _ _ _ _) fun _ => .pure _

theorem readChild_result (s : State) (g : Segment) (zoom x y : Word) (dp : Nat) :
    ReadResult s (readChild s g zoom x y dp) := by
  refine .bind (polyWord_result _ _ _) fun _ => .bind (polyByte_result _ _ _) fun _ => .bind (polyByte_result _ _ _) fun _ => ?_
  dsimp only
  split
  · exact .bind (polyByte_result _ _ _) fun _ => .bind (polyByte_result _ _ _) fun _ => .pure _
  · exact .pure _

/-! Reads inside a known window. -/

theorem polyByte_of_window {s : State} {g : Segment} {dp n : Nat} {b : Byte} {r : List Byte}
    (h : window s g dp n = b :: r) : polyByte s g dp = .ok (b, dp + 1) ∧ window s g (dp + 1) (n - 1) = r := by
  obtain ⟨k, rfl, hb, hr⟩ := window_cons h
  exact ⟨by simp only [polyByte, hb], by simpa using hr⟩

theorem polyWord_of_window {s : State} {g : Segment} {dp n : Nat} {hi lo : Byte} {r : List Byte}
    (h : window s g dp n = hi :: lo :: r) :
    polyWord s g dp = .ok (bigEndian hi lo, dp + 2) ∧ window s g (dp + 2) (n - 2) = r := by
  obtain ⟨k, rfl, hb, hr⟩ := window_cons h
  obtain ⟨m, rfl, hb', hr'⟩ := window_cons hr
  exact ⟨by simp only [polyWord, segRead16_of_bytes hb hb'], by simpa [Nat.add_assoc] using hr'⟩

/-- A byte at the end of the readable bytes faults there (R211). -/
theorem polyByte_at_end {s : State} {g : Segment} {dp n : Nat} (h : window s g dp (n + 1) = []) :
    polyByte s g dp = .error (raise s (.segmentBounds g dp)) := by
  rw [window] at h
  rcases segRead8_cases s g dp with ⟨_, q⟩ | ⟨_, q⟩
  · rw [q] at h
    cases h
  · simp only [polyByte, q]

/-- A word of which at most one byte is readable faults at its first byte (60_exceptions.md R280). -/
theorem polyWord_at_end {s : State} {g : Segment} {dp n : Nat} (h : (window s g dp (n + 2)).length < 2) :
    polyWord s g dp = .error (raise s (.segmentBounds g dp)) := by
  rcases segRead16_cases s g dp with ⟨r, _⟩ | ⟨_, q⟩
  · have h0 : readable s g dp := by
      unfold readable at r ⊢
      omega
    rcases segRead8_cases s g dp with ⟨_, q0⟩ | ⟨r0, _⟩
    · rcases segRead8_cases s g (dp + 1) with ⟨_, q1⟩ | ⟨r1, _⟩
      · simp [window, q0, q1] at h
      · exact absurd r r1
    · exact absurd h0 r0
  · simp only [polyWord, q]

/-- The points of a record whose bytes are readable (46_polygon_rasterizer.md R215). -/
theorem readPoints_of_window {s : State} {g : Segment} (zoom : Word) {dp n : Nat} {body : List Byte}
    (h : window s g dp (2 * n) = body) (hl : body.length = 2 * n) :
    readPoints s g zoom dp n = .ok (recordPoints zoom n body) := by
  induction n generalizing dp body with
  | zero => rfl
  | succ n ih =>
    match body, hl with
    | bx :: b2 :: r, hl =>
      obtain ⟨h1, hr1⟩ := polyByte_of_window h
      obtain ⟨h2, hr2⟩ := polyByte_of_window hr1
      have hr : window s g (dp + 1 + 1) (2 * n) = r := by
        rw [← hr2]
        congr 1
      have := ih hr (by simp only [List.length_cons] at hl; omega)
      simp only [readPoints, h1, h2, this, bind, Except.bind, pure, Except.pure, recordPoints, List.range_succ_eq_map,
        List.map_cons, List.map_map]
      rfl

/-! ## Draws -/

/-- From `s` to `t` by painting on the draw target and logging the soft conditions `new`, each a
`BAD_POLY_DISCRIMINATOR`. -/
structure Painted (s t : State) (new : List LogRecord) : Prop where
  rest : t = { s with pages := t.pages, log := s.log ++ new }
  others : ∀ q : Fin 4, q ≠ s.ptr1 → t.pages[q] = s.pages[q]
  soft : ∀ r ∈ new, ∃ off v, r = ⟨.soft (.badPolyDiscriminator s.insnPc off v), s.insnPc, s.curThr⟩

theorem Painted.not_fatal {s t : State} {new : List LogRecord} (h : Painted s t new) (r : LogRecord) (hr : r ∈ new) :
    r.isFatal = false := by
  obtain ⟨off, v, rfl⟩ := h.soft r hr
  rfl

theorem Painted.refl (s : State) : Painted s s [] := ⟨by simp, fun _ _ => rfl, by simp⟩

theorem Painted.trans {s t u : State} {a b : List LogRecord} (h : Painted s t a) (k : Painted t u b) :
    Painted s u (a ++ b) := by
  obtain ⟨h1, h2, h3⟩ := h
  obtain ⟨k1, k2, k3⟩ := k
  have hp : t.ptr1 = s.ptr1 := by rw [h1]
  have hi : t.insnPc = s.insnPc := by rw [h1]
  have hc : t.curThr = s.curThr := by rw [h1]
  refine ⟨?_, ?_, ?_⟩
  · rw [k1, h1]
    simp
  · intro q hq
    rw [k2 q (by rwa [hp]), h2 q hq]
  · intro r hr
    rcases List.mem_append.1 hr with hr | hr
    · exact h3 r hr
    · simpa only [hi, hc] using k3 r hr

/-- What a draw that starts in `s` can answer: a state painted from `s`, or one painted from `s` and then a fatal fault
taken (46_polygon_rasterizer.md R234, R235). -/
def DrawResult (s : State) : Except State State → Prop
  | .ok t => ∃ new, Painted s t new
  | .error e => ∃ t new f, Painted s t new ∧ e = raise t f ∧ IsDrawFault f

theorem DrawResult.of_painted {s t : State} {new : List LogRecord} {r : Except State State} (h : Painted s t new)
    (hr : DrawResult t r) : DrawResult s r := by
  cases r with
  | ok u =>
    obtain ⟨b, k⟩ := hr
    exact ⟨_, h.trans k⟩
  | error e =>
    obtain ⟨u, b, f, k, rfl, hf⟩ := hr
    exact ⟨u, _, f, h.trans k, rfl, hf⟩

theorem DrawResult.bind_read {α : Type} {s : State} {r : Except State α} {k : α → Except State State} (hr : ReadResult s r)
    (hk : ∀ a, DrawResult s (k a)) : DrawResult s (r >>= k) := by
  cases r with
  | error e =>
    obtain ⟨f, rfl, hf⟩ := hr e rfl
    exact ⟨s, [], f, Painted.refl s, rfl, hf⟩
  | ok a => exact hk a

theorem drawChildren_result (draw : DrawRecord) (g : Segment) (zoom x y : Word) (n : Nat) (s : State) (dp : Nat)
    (hd : ∀ s c x y dp, DrawResult s (draw s c x y dp)) : DrawResult s (drawChildren draw g zoom x y n s dp) := by
  induction n generalizing s dp with
  | zero => exact ⟨[], Painted.refl s⟩
  | succ n ih =>
    refine .bind_read (readChild_result _ _ _ _ _ _) fun c => ?_
    have hc := hd s c.colour c.x c.y c.off
    cases hr : draw s c.colour c.x c.y c.off with
    | error e => rw [hr] at hc; exact hc
    | ok t =>
      rw [hr] at hc
      obtain ⟨new, hp⟩ := hc
      exact .of_painted hp (ih t c.dp)

theorem readAndDraw_result (g : Segment) (zoom : Word) (depth : Nat) (s : State) (colour : Byte) (x y : Word) (dp : Nat) :
    DrawResult s (readAndDraw g zoom depth s colour x y dp) := by
  induction depth generalizing s colour x y dp with
  | zero => ?_
  | succ d ih => ?_
  all_goals
    rw [readAndDraw]
    cases hb : polyByte s g dp with
    | error e =>
      obtain ⟨f, rfl, hf⟩ := polyByte_result s g dp e hb
      exact ⟨s, [], f, Painted.refl s, rfl, hf⟩
    | ok p =>
      obtain ⟨i, dp'⟩ := p
      dsimp only
      split
      · cases hv : readVertices s g zoom dp' with
        | error e =>
          obtain ⟨f, rfl, hf⟩ := readVertices_result s g zoom dp' e hv
          exact ⟨s, [], f, Painted.refl s, rfl, hf⟩
        | ok p =>
          refine ⟨[], ?_, ?_, ?_⟩
          · simp
          · intro q hq
            exact fillPolygon_others _ _ _ _ _ _ q hq
          · simp
      · split
        · first
          | exact ⟨s, [], _, Painted.refl s, rfl, by simp [IsDrawFault, FatalFault.code]⟩
          | exact .bind_read (polyByte_result _ _ _) fun _ => .bind_read (polyByte_result _ _ _) fun _ =>
              .bind_read (polyByte_result _ _ _) fun _ => drawChildren_result _ _ _ _ _ _ _ _ (fun s c x y dp => ih s c x y dp)
        · refine ⟨_, rfl, fun _ _ => rfl, ?_⟩
          simp

/-- A draw paints the draw target, logs soft conditions, and may end in one fatal fault. -/
theorem drawShape_result (s : State) (g : Segment) (off : Nat) (colour : Byte) (zoom x y : Word) :
    DrawResult s (drawShape s g off colour zoom x y) :=
  readAndDraw_result g zoom _ s colour x y off

/-! ## Hierarchies -/

/-- The low six bits of a byte (46_polygon_rasterizer.md R212). -/
theorem low6_eq (b : Byte) : b &&& 0x3F = BitVec.ofNat 8 (b.toNat % 64) := by
  apply BitVec.eq_of_toNat_eq
  simp only [BitVec.toNat_and, BitVec.toNat_ofNat]
  rw [show (63 : Byte).toNat = 2 ^ 6 - 1 from rfl, Nat.and_two_pow_sub_one_eq_mod]
  omega

/-- The low seven bits of a byte (46_polygon_rasterizer.md R230). -/
theorem low7_eq (b : Byte) : b &&& 0x7F = BitVec.ofNat 8 (b.toNat % 128) := by
  apply BitVec.eq_of_toNat_eq
  simp only [BitVec.toNat_and, BitVec.toNat_ofNat]
  rw [show (127 : Byte).toNat = 2 ^ 7 - 1 from rfl, Nat.and_two_pow_sub_one_eq_mod]
  omega

theorem bigEndian_bit15 (h l : Byte) : (bigEndian h l).getLsbD 15 = decide (128 ≤ h.toNat) := by
  rw [BitVec.getLsbD, bigEndian_toNat, Nat.testBit_eq_decide_div_mod_eq]
  have := h.isLt
  have := l.isLt
  by_cases hh : 128 ≤ h.toNat <;> simp [hh] <;> omega

theorem bigEndian_low15 (h l : Byte) : ((bigEndian h l).setWidth 15).toNat = h.toNat % 128 * 256 + l.toNat := by
  rw [BitVec.toNat_setWidth, bigEndian_toNat]
  have := l.isLt
  omega

/-- A child record whose bytes are readable: what it says, and that the next one stands right after it (R230, R231). -/
theorem readChild_of_window {s : State} {g : Segment} {zoom x y : Word} {dp n : Nat} {c : ChildBytes} {r : List Byte}
    (hf : c.fits) (h : window s g dp n = c.stored ++ r) :
    readChild s g zoom x y dp =
        .ok { colour := if 128 ≤ c.hi.toNat then BitVec.ofNat 8 ((c.extra.getD 0 0).toNat % 128) else 0xFF
              x := x + scale c.dx zoom
              y := y + scale c.dy zoom
              off := c.target
              dp := dp + c.stored.length } ∧
      window s g (dp + c.stored.length) (n - c.stored.length) = r := by
  obtain ⟨hi, lo, dx, dy, extra⟩ := c
  simp only [ChildBytes.stored, List.cons_append] at h
  obtain ⟨h1, r1⟩ := polyWord_of_window h
  obtain ⟨h2, r2⟩ := polyByte_of_window r1
  obtain ⟨h3, r3⟩ := polyByte_of_window r2
  simp only [ChildBytes.fits] at hf
  by_cases hh : 128 ≤ hi.toNat
  · simp only [hh, if_true] at hf
    match extra, hf with
    | [a, b], _ =>
      simp only [List.cons_append, List.nil_append] at r3
      obtain ⟨h4, r4⟩ := polyByte_of_window r3
      obtain ⟨h5, r5⟩ := polyByte_of_window r4
      refine ⟨?_, ?_⟩
      · simp only [readChild, h1, h2, h3, h4, h5, bind, Except.bind, pure, Except.pure, bigEndian_bit15, hh, decide_true,
          if_true, bigEndian_low15, low7_eq, ChildBytes.target, ChildBytes.stored, List.getD_cons_zero, List.length_cons,
          List.length_nil, Nat.add_assoc]
      · rw [← r5]
        simp only [ChildBytes.stored, List.length_cons, List.length_nil]
        congr 1
  · simp only [hh, if_false] at hf
    obtain rfl := List.eq_nil_of_length_eq_zero hf
    simp only [List.nil_append] at r3
    refine ⟨?_, ?_⟩
    · simp only [readChild, h1, h2, h3, bind, Except.bind, pure, Except.pure, bigEndian_bit15, hh, decide_false,
        Bool.false_eq_true, if_false, bigEndian_low15, ChildBytes.target, ChildBytes.stored, List.length_cons,
        List.length_nil, Nat.add_assoc]
    · rw [← r3]
      simp only [ChildBytes.stored, List.length_cons, List.length_nil]
      congr 1

/-- A draw reads polygon data and never writes it: the bytes of every segment stay. -/
theorem readAndDraw_window {g : Segment} {zoom : Word} {depth : Nat} {s t : State} {colour : Byte} {x y : Word} {dp : Nat}
    (h : readAndDraw g zoom depth s colour x y dp = .ok t) (g' : Segment) (off n : Nat) :
    window t g' off n = window s g' off n := by
  have hr := readAndDraw_result g zoom depth s colour x y dp
  rw [h] at hr
  obtain ⟨new, hp⟩ := hr
  have hs : t.mem = s.mem ∧ t.seg = s.seg ∧ t.arenaSize = s.arenaSize := by
    rw [hp.rest]
    exact ⟨rfl, rfl, rfl⟩
  exact window_congr g' hs.1 hs.2.1 hs.2.2 off n

/-- The children of a hierarchy whose bytes are readable are drawn in stored order, each read right after the one before
it (R230, R234). -/
theorem drawChildren_of_window (g : Segment) (zoom x y : Word) (depth m : Nat) (children : List ChildBytes) (s : State)
    (dp : Nat) (hf : ∀ c ∈ children, c.fits)
    (hw : window s g dp (children.flatMap ChildBytes.stored).length = children.flatMap ChildBytes.stored) :
    drawChildren (readAndDraw g zoom depth) g zoom x y (children.length + m) s dp =
      (children.foldlM (drawChild g zoom x y depth) s >>= fun t =>
        drawChildren (readAndDraw g zoom depth) g zoom x y m t (dp + (children.flatMap ChildBytes.stored).length)) := by
  induction children generalizing s dp with
  | nil => simp [bind, Except.bind, pure, Except.pure]
  | cons c r ih =>
    rw [List.flatMap_cons] at hw
    obtain ⟨hc, hr⟩ := readChild_of_window (zoom := zoom) (x := x) (y := y) (hf c (by simp)) hw
    rw [show (c :: r).length + m = (r.length + m) + 1 by simp only [List.length_cons]; omega, drawChildren, hc,
      List.foldlM_cons]
    cases hd : drawChild g zoom x y depth s c with
    | error e =>
      unfold drawChild at hd
      simp only [bind, Except.bind, hd]
    | ok t =>
      unfold drawChild at hd
      have hn := ih t (dp + c.stored.length) (fun c hc => hf c (by simp [hc]))
        (by
          rw [List.length_append, Nat.add_sub_cancel_left] at hr
          rw [readAndDraw_window hd, hr])
      simp only [bind, Except.bind] at hn ⊢
      simp only [hd, hn, List.flatMap_cons, List.length_append, Nat.add_assoc]

end Sys2Proof.Machine
end

