-- ==== Sys2Proof/Laws/Video.lean ====
section
/-! SUPPORT. What the palette load and the steps of `blit` can do, and bytes and pixels of a page. -/

namespace Sys2Proof.Machine

/-- The palette load changes `CUR_PAL` alone, and a read that fails is one fatal fault taken after that
(43_video_page.md R178). -/
theorem loadPalette_result (s : State) (n : Nat) :
    (∃ pal, loadPalette s n = .ok { s with curPal := pal }) ∨
      ∃ pal off, loadPalette s n = .error (raise { s with curPal := pal } (.segmentBounds .palette off)) := by
  induction n generalizing s with
  | zero => exact .inl ⟨s.curPal, rfl⟩
  | succ n ih =>
    rw [loadPalette]
    rcases segRead8_cases s .palette (32 * s.reqPal.toNat + (31 - n)) with ⟨_, e⟩ | ⟨_, e⟩ <;> rw [e]
    · rcases ih { s with curPal := s.curPal.set (31 - n) _ } with ⟨pal, h⟩ | ⟨pal, f, h⟩
      · exact .inl ⟨pal, h⟩
      · exact .inr ⟨pal, f, h⟩
    · exact .inr ⟨s.curPal, _, rfl⟩

/-- What applying a pending palette can answer: nothing pending; the palette loaded and handed over; or one fatal fault. -/
theorem applyPalette_result (s : State) :
    (s.reqPal = Config.reqPalNone ∧ applyPalette s = .ok s) ∨
      (s.reqPal ≠ Config.reqPalNone ∧ ∃ pal, applyPalette s =
        .ok { s with curPal := pal, reqPal := Config.reqPalNone, calls := s.calls ++ [.setPalette pal] }) ∨
      (s.reqPal ≠ Config.reqPalNone ∧ ∃ pal off, applyPalette s =
        .error (raise { s with curPal := pal } (.segmentBounds .palette off))) := by
  by_cases h : s.reqPal = Config.reqPalNone
  · exact .inl ⟨h, by rw [applyPalette, if_pos h]⟩
  · right
    rw [applyPalette, if_neg h]
    rcases loadPalette_result s 32 with ⟨pal, e⟩ | ⟨pal, f, e⟩
    · exact .inl ⟨h, pal, by rw [e]; rfl⟩
    · exact .inr ⟨h, pal, f, by rw [e]⟩

/-- What `blit` can answer, from the state `a` after pacing and the aliases (43_video_page.md R176). -/
theorem blitWith_result (clock : Nat → Nat) (page : Byte) (s a : State) (ha : a = updateAliases page (pace clock s)) :
    (s.reqPal = Config.reqPalNone ∧ blitWith clock page s = .ok (presentPage a)) ∨
      (s.reqPal ≠ Config.reqPalNone ∧ ∃ pal, blitWith clock page s =
        .ok (presentPage { a with curPal := pal, reqPal := Config.reqPalNone, calls := a.calls ++ [.setPalette pal] })) ∨
      (s.reqPal ≠ Config.reqPalNone ∧ ∃ pal off, blitWith clock page s =
        .error (raise { a with curPal := pal } (.segmentBounds .palette off))) := by
  have hr : a.reqPal = s.reqPal := by rw [ha, updateAliases_state]; rfl
  simp only [blitWith, ← ha]
  rcases applyPalette_result a with ⟨h, e⟩ | ⟨h, pal, e⟩ | ⟨h, pal, f, e⟩ <;> rw [hr] at h <;> rw [e]
  · exact .inl ⟨h, rfl⟩
  · exact .inr (.inl ⟨h, pal, rfl⟩)
  · exact .inr (.inr ⟨h, pal, f, rfl⟩)

/-! Bytes and pixels. -/

/-- A pixel is a nibble of its byte (10_state.md R34). -/
theorem pixel_eq_nibble (p : Page) (x y : Nat) (hx : x < 320) (hy : y < 200) :
    p.pixel x y = nibble (p.byte (y * 160 + x / 2)) x := by
  have h1 : (y * 160 + x / 2) / 160 = y := by omega
  have h2 : (y * 160 + x / 2) % 160 = x / 2 := by omega
  rw [Page.pixel, dif_pos ⟨hx, hy⟩, Page.byte, dif_pos (by omega)]
  simp only [h1, h2]

theorem filled_byte (b : Byte) (k : Nat) (h : k < 32000) : (Page.filled b).byte k = b := by
  rw [Page.byte, dif_pos h]
  simp [Page.filled]

/-- Byte k of row y (10_state.md R34). -/
theorem byte_row (p : Page) (y k : Nat) (hy : y < 200) (hk : k < 160) : p.byte (y * 160 + k) = (p[y]'hy)[k]'hk := by
  have h1 : (y * 160 + k) / 160 = y := by omega
  have h2 : (y * 160 + k) % 160 = k := by omega
  rw [Page.byte, dif_pos (by omega)]
  simp only [h1, h2]

/-- A row of a scrolled copy (43_video_page.md R172). -/
theorem scrolled_row (src dst : Page) (dy : Int) (y : Nat) (hy : y < 200) :
    (Page.scrolled src dst dy)[y]'hy =
      if h : 0 ≤ (y : Int) - dy ∧ (y : Int) - dy < 200 then src[((y : Int) - dy).toNat]'(by omega) else dst[y]'hy := by
  simp only [Page.scrolled, Vector.getElem_ofFn]
  rfl

theorem scrolled_byte (src dst : Page) (dy : Int) (y k : Nat) (hy : y < 200) (hk : k < 160) :
    (Page.scrolled src dst dy).byte (y * 160 + k) =
      if 0 ≤ (y : Int) - dy ∧ (y : Int) - dy < 200 then src.byte (((y : Int) - dy).toNat * 160 + k)
      else dst.byte (y * 160 + k) := by
  have hr := scrolled_row src dst dy y hy
  rw [byte_row _ _ _ hy hk, byte_row dst _ _ hy hk]
  by_cases h : 0 ≤ (y : Int) - dy ∧ (y : Int) - dy < 200
  · rw [dif_pos h] at hr
    rw [if_pos h, byte_row src _ _ (by omega) hk, hr]
  · rw [dif_neg h] at hr
    rw [if_neg h, hr]

end Sys2Proof.Machine
end

