-- ==== Sys2Proof/Laws/NoNop.lean ====
section
/-! SUPPORT. No instruction is a nop (30_encoding.md R114): which operands leave every state as it was. -/

namespace Sys2Proof.Machine

/-- An instruction that changes a part of some state is no nop. -/
theorem exec_ne_self {α : Type} {i : Instr} {s t : State} (part : State → α) (h : exec i s = .next t) (hp : part t ≠ part s) :
    ∃ s, exec i s ≠ .next s := by
  refine ⟨s, fun e => hp ?_⟩
  rw [h] at e
  cases e
  rfl

/-! Each instruction whose effect some state shows. -/

theorem setVar_ne_self {i : Instr} {d : Byte} (f : State → Word) (s : State) (h : ∀ s, exec i s = .next (setVar s d (f s)))
    (hf : f s ≠ getVar s d) : ∃ s, exec i s ≠ .next s :=
  exec_ne_self (fun s => getVar s d) (h s) (by simpa using hf)

theorem succ_ne (w : Word) : w + 1 ≠ w := by
  bv_omega

/-- A condition that logs, or that holds of some operands, shows in a state whose `pc` is not the target. -/
theorem condJump_ne_self {i : Instr} {cc : Byte} {target : Word} (b a : State → Word) (s : State) (hpc : s.pc ≠ target)
    (h : exec i s = .next (condJump s cc (b s) (a s) target))
    (hc : 6 ≤ comparator cc ∨ compareSigned (comparator cc) (b s) (a s) = true) : ∃ s, exec i s ≠ .next s := by
  by_cases h6 : comparator cc < 6
  · obtain hc | hc := hc
    · omega
    · exact exec_ne_self State.pc h (by simpa [condJump_state, hc] using hpc.symm)
  · exact exec_ne_self (fun s => s.log.length) h (by simp [condJump_state, h6])

theorem movi_ne_self (d : Byte) (imm : Word) : ∃ s, exec (.movi d imm) s ≠ .next s :=
  setVar_ne_self (fun _ => imm) (setVar State.reset d (imm + 1)) (fun _ => rfl) (by simp)

theorem mov_ne_self {d src : Byte} (h : d ≠ src) : ∃ s, exec (.mov d src) s ≠ .next s :=
  setVar_ne_self (fun s => getVar s src) (setVar (setVar State.reset src 1) d 0) (fun _ => rfl)
    (by simp [getVar_setVar, Ne.symm h])

theorem addi_ne_self (d : Byte) {imm : Word} (h : imm ≠ 0) : ∃ s, exec (.addi d imm) s ≠ .next s :=
  setVar_ne_self (fun s => getVar s d + imm) (setVar State.reset d 0) (fun _ => rfl) (by simpa using h)

theorem ori_ne_self (d : Byte) {mask : Word} (h : mask ≠ 0) : ∃ s, exec (.ori d mask) s ≠ .next s :=
  setVar_ne_self (fun s => getVar s d ||| mask) (setVar State.reset d 0) (fun _ => rfl) (by simpa using h)

theorem call_ne_self (target : Word) : ∃ s, exec (.call target) s ≠ .next s :=
  exec_ne_self (s := State.reset) State.sp rfl (show State.reset.sp + 1 ≠ State.reset.sp by decide)

theorem ret_ne_self : ∃ s, exec .ret s ≠ .next s :=
  exec_ne_self (s := State.reset) State.fault rfl (by decide)

theorem pause_ne_self : ∃ s, exec .pause s ≠ .next s :=
  exec_ne_self (s := State.reset) State.yield rfl (by decide)

theorem kill_ne_self : ∃ s, exec .kill s ≠ .next s :=
  exec_ne_self (s := State.reset) State.yield rfl (by decide)

theorem jmp_ne_self (target : Word) : ∃ s, exec (.jmp target) s ≠ .next s :=
  exec_ne_self (s := { State.reset with pc := target + 1 }) State.pc rfl (succ_ne target).symm

theorem jnz_ne_self (d : Byte) (target : Word) : ∃ s, exec (.jnz d target) s ≠ .next s := by
  refine exec_ne_self (s := setVar State.reset d 1) (fun s => getVar s d) rfl ?_
  simp

theorem setvec_ne_self (t : Byte) (off : Word) : ∃ s, exec (.setvec t off) s ≠ .next s := by
  by_cases h : t.toNat < 64
  · refine exec_ne_self (s := { State.reset with redir := Vector.replicate 64 (off + 1) })
      (fun s => s.redir[t.toNat]'h) (by simp only [exec, execSetvec, h, dif_pos]; rfl) ?_
    simp
  · exact exec_ne_self (s := State.reset) State.fault (by simp only [exec, execSetvec, h, dif_neg, not_false_iff]; rfl) (by simp [State.reset, State.resetWith])

theorem setpal_ne_self (w : Word) : ∃ s, exec (.setpal w) s ≠ .next s := by
  by_cases h : (highByte w).toNat < 32
  · refine exec_ne_self (s := State.reset) State.reqPal (by simp only [exec, execSetpal, h, if_true]; rfl) fun e => ?_
    rw [show highByte w = 0xFF from e] at h
    exact absurd h (by decide)
  · exact exec_ne_self (s := State.reset) (fun s => s.log.length) (by simp only [exec, execSetpal, h, if_false]; rfl) (by simp)

theorem maskedLast_toNat (last : Byte) : (maskedLast last).toNat = last.toNat % 64 := by
  rw [maskedLast, low6_eq, BitVec.toNat_ofNat]
  omega

theorem thrctl_ne_self {first last mode : Byte} (h : ¬ (first.toNat ≤ last.toNat % 64 ∧ 3 ≤ mode.toNat)) :
    ∃ s, exec (.thrctl first last mode) s ≠ .next s := by
  have hl := maskedLast_toNat last
  by_cases hf : (maskedLast last).toNat < first.toNat
  · exact exec_ne_self (s := State.reset) State.fault (by simp only [exec, execThrctl, hf, if_true]; rfl)
      (by simp [State.reset, State.resetWith])
  · have ht : first.toNat < 64 := by omega
    have hm : mode.toNat = 0 ∨ mode.toNat = 1 ∨ mode.toNat = 2 := by omega
    have hr : first.toNat ≤ (maskedLast last).toNat := by omega
    obtain hm | hm | hm := hm
    · exact exec_ne_self (s := { State.reset with pausedReq := Vector.replicate 64 true }) (fun s => s.pausedReq[first.toNat]'ht)
        (by simp only [exec, execThrctl, hf, if_false, hm]; rfl) (by simp [setRows, hr])
    · exact exec_ne_self (s := { State.reset with pausedReq := Vector.replicate 64 false }) (fun s => s.pausedReq[first.toNat]'ht)
        (by simp only [exec, execThrctl, hf, if_false, hm]; rfl) (by simp [setRows, hr])
    · exact exec_ne_self (s := { State.reset with redir := Vector.replicate 64 0 }) (fun s => s.redir[first.toNat]'ht)
        (by simp only [exec, execThrctl, hf, if_false, hm]; rfl) (by simp [setRows, hr])

theorem selpage_ne_self (page : Byte) : ∃ s, exec (.selpage page) s ≠ .next s := by
  by_cases h : (resolvePage State.reset page).1 = 0
  · refine exec_ne_self (s := { State.reset with ptr1 := 1 }) State.ptr1 rfl ?_
    simp only [resolvePage_page State.reset { State.reset with ptr1 := 1 } page rfl rfl, h]
    decide
  · refine exec_ne_self (s := { State.reset with ptr1 := 0 }) State.ptr1 rfl ?_
    simpa only [resolvePage_page State.reset { State.reset with ptr1 := 0 } page rfl rfl] using h

theorem blit_ne_self (page : Byte) : ∃ s, exec (.blit page) s ≠ .next s := by
  obtain ⟨_, e⟩ | ⟨h, _⟩ | ⟨h, _⟩ := blitWith_result Config.timestamp page State.reset _ rfl
  · exact exec_ne_self (s := State.reset) (fun s => s.calls.length) (by rw [exec, execBlit, e]; rfl)
      (by simp [presentPage, output, State.reset, State.resetWith])
  · exact absurd rfl h
  · exact absurd rfl h

theorem update_ne_self (id : Word) : ∃ s, exec (.update id) s ≠ .next s := by
  by_cases h0 : id = 0
  · exact exec_ne_self (s := State.reset) State.hostTick (by simp only [exec, execUpdate, h0, if_true]; rfl) (by decide)
  · by_cases hp : Config.partIdFirst.toNat ≤ id.toNat
    · exact exec_ne_self (s := State.reset) State.reqPart (by simp only [exec, execUpdate, h0, hp, if_true, if_false]; rfl) h0
    · refine exec_ne_self (s := State.reset) State.hostTick (by simp only [exec, execUpdate, h0, hp, if_false]; rfl) ?_
      simp only [loadMemoryEntry]
      split <;> simp [ask]

theorem drawShape_reset (g : Segment) (off : Nat) (colour : Byte) (zoom x y : Word) :
    drawShape State.reset g off colour zoom x y = .error (raise State.reset (.segmentBounds g off)) := by
  have h : window State.reset g off 1 = [] := by
    rw [window]
    rcases segRead8_cases State.reset g off with ⟨r, _⟩ | ⟨_, q⟩
    · cases g <;> simp [readable, segOf, State.reset, State.resetWith, Boot.bare] at r
    · rw [q]
  simp only [drawShape, show State.reset.hierDepthMax = 16 from rfl, readAndDraw, polyByte_at_end h]

theorem spoly_ne_self (off : Word) (x : XField) (y : YField) (zoom : ZoomField) :
    ∃ s, exec (.spoly off x y zoom) s ≠ .next s :=
  exec_ne_self (s := State.reset) State.fault (by rw [exec, execSpoly, drawShape_reset]; rfl) (by simp [State.reset, State.resetWith])

theorem bpoly_ne_self (off : BitVec 15) (x y : Byte) : ∃ s, exec (.bpoly off x y) s ≠ .next s :=
  exec_ne_self (s := State.reset) State.fault (by rw [exec, execBpoly, drawShape_reset]; rfl) (by simp [State.reset, State.resetWith])

theorem illegal_ne_self (op : Byte) : ∃ s, exec (.illegal op) s ≠ .next s :=
  exec_ne_self (s := State.reset) State.fault rfl (by simp [State.reset, State.resetWith])

theorem fillpage_ne_self (page colour : Byte) : ∃ s, exec (.fillpage page colour) s ≠ .next s := by
  let s : State := { State.reset with pages := Vector.replicate 4 (Page.filled (fillByte colour + 1)) }
  refine exec_ne_self (s := s) (fun t => (t.pages[(resolvePage s page).1]).byte 0) rfl ?_
  simp [s, filled_byte]

/-- Pages that differ in their first byte. -/
def distinctPages : Pages := Vector.ofFn fun p : Fin 4 => Page.filled (BitVec.ofNat 8 p.val)

/-- Two different valid ids are those of two pages, for some values of the two pointers. -/
theorem ids_apart : ∀ src ∈ ([0, 1, 2, 3, 0xFE, 0xFF] : List Byte), ∀ dst ∈ ([0, 1, 2, 3, 0xFE, 0xFF] : List Byte), src ≠ dst →
    ∃ p2 p3 : Fin 4, ∀ s : State, s.ptr2 = p2 → s.ptr3 = p3 → (resolvePage s src).1 ≠ (resolvePage s dst).1 := by
  have reset : ∀ src ∈ ([0, 1, 2, 3, 0xFE, 0xFF] : List Byte), ∀ dst ∈ ([0, 1, 2, 3, 0xFE, 0xFF] : List Byte), src ≠ dst →
      ∃ p2 p3 : Fin 4, (resolvePage { State.reset with ptr2 := p2, ptr3 := p3 } src).1 ≠
        (resolvePage { State.reset with ptr2 := p2, ptr3 := p3 } dst).1 := by
    decide
  intro src hs dst hd hne
  obtain ⟨p2, p3, h⟩ := reset src hs dst hd hne
  refine ⟨p2, p3, fun s h2 h3 => ?_⟩
  rwa [resolvePage_page { State.reset with ptr2 := p2, ptr3 := p3 } s src h2 h3,
    resolvePage_page { State.reset with ptr2 := p2, ptr3 := p3 } s dst h2 h3]

/-- A copy that reaches another page shows in the first byte of pages that differ there. -/
theorem copypage_ne_self_of_apart {src dst : Byte} (s : State) (hs : s.pages = distinctPages) (hv : getVar s 0xF9 = 0)
    (hne : src ≠ dst) (h : (resolvePage s src).1 ≠ (resolvePage s dst).1) : ∃ s, exec (.copypage src dst) s ≠ .next s := by
  have hd : (resolvePage (resolvePage s src).2 dst).1 = (resolvePage s dst).1 :=
    resolvePage_page _ _ _ (resolvePage_ptr2 s src) (resolvePage_ptr3 s src)
  have hv' : getVar (resolvePage (resolvePage s src).2 dst).2 Config.varScrollY = 0 := by
    simpa only [getVar, resolvePage_v] using hv
  refine exec_ne_self (s := s) (fun t => (t.pages[(resolvePage s dst).1]).byte 0)
    (by simp only [exec, execCopypage, hne, if_false, hd, h]; rfl) ?_
  have hb := scrolled_byte s.pages[(resolvePage s src).1] s.pages[(resolvePage s dst).1] 0 0 0 (by omega) (by omega)
  have hp : ∀ p : Fin 4, (s.pages[p]).byte 0 = BitVec.ofNat 8 p.val := fun p => by
    rw [hs]
    simp [distinctPages, filled_byte]
  simp only [resolvePage_pages, hv', show (0 : Word).toInt = 0 from rfl, Fin.getElem_fin, Vector.getElem_set_self] at hb hp ⊢
  simp only [Nat.zero_mul, Nat.add_zero, Int.sub_zero, Int.ofNat_zero, Int.toNat_zero, Int.le_refl, true_and] at hb
  rw [hb]
  simp only [hp]
  revert h
  generalize (resolvePage s src).1 = p
  generalize (resolvePage s dst).1 = q
  revert p q
  decide

theorem copypage_ne_self {src dst : Byte} (hne : src ≠ dst) : ∃ s, exec (.copypage src dst) s ≠ .next s := by
  have valid : ∀ b : Byte, resolveLog State.reset b = [] → b ∈ ([0, 1, 2, 3, 0xFE, 0xFF] : List Byte) := by
    intro b hb
    have h : b.toNat < 4 ∨ b = 0xFE ∨ b = 0xFF := by
      by_contra h
      rw [resolveLog, if_neg h] at hb
      cases hb
    have hn : ∀ n : Nat, n < 256 → b.toNat = n → b = BitVec.ofNat 8 n := fun n hn e =>
      BitVec.eq_of_toNat_eq (by rw [e, BitVec.toNat_ofNat]; omega)
    obtain h | rfl | rfl := h
    · have : b.toNat = 0 ∨ b.toNat = 1 ∨ b.toNat = 2 ∨ b.toNat = 3 := by omega
      obtain e | e | e | e := this <;> rw [hn _ (by omega) e] <;> decide
    · decide
    · decide
  by_cases hs : resolveLog State.reset src = [] ∧ resolveLog State.reset dst = []
  · obtain ⟨p2, p3, h⟩ := ids_apart src (valid src hs.1) dst (valid dst hs.2) hne
    refine copypage_ne_self_of_apart (setVar { State.reset with ptr2 := p2, ptr3 := p3, pages := distinctPages } 0xF9 0) rfl
      (getVar_setVar_same _ _ _) hne ?_
    exact h _ rfl rfl
  · obtain ⟨t, ht, hl⟩ : ∃ t, exec (.copypage src dst) State.reset = .next t ∧
        t.log = (resolvePage (resolvePage State.reset src).2 dst).2.log := by
      simp only [exec, execCopypage, hne, if_false]
      split <;> exact ⟨_, rfl, rfl⟩
    refine exec_ne_self State.log ht fun e => hs ?_
    rw [hl, resolvePage_log, resolvePage_log, show State.reset.log = [] from rfl, List.nil_append, List.append_eq_nil_iff] at e
    refine ⟨e.1, ?_⟩
    have := e.2
    unfold resolveLog at this ⊢
    split at this
    · rename_i hv
      rw [if_pos hv]
    · cases this

theorem condJmpVar_ne_self {cc a b : Byte} (target : Word)
    (h : ¬ (a = b ∧ (comparator cc = 1 ∨ comparator cc = 2 ∨ comparator cc = 4))) :
    ∃ s, exec (.condJmpVar cc a b target) s ≠ .next s := by
  have hlt : comparator cc < 8 := by rw [comparator_eq]; omega
  obtain ⟨x, y, hxy, hc⟩ : ∃ x y : Word, (a = b → x = y) ∧ (6 ≤ comparator cc ∨ compareSigned (comparator cc) x y = true) := by
    by_cases hab : a = b
    · refine ⟨0, 0, fun _ => rfl, ?_⟩
      simp only [hab, true_and] at h
      interval_cases comparator cc <;> first | (exfalso; revert h; decide) | decide
    · interval_cases comparator cc
      · exact ⟨0, 0, fun _ => rfl, by decide⟩
      · exact ⟨1, 0, fun e => absurd e hab, by decide⟩
      · exact ⟨1, 0, fun e => absurd e hab, by decide⟩
      · exact ⟨0, 0, fun _ => rfl, by decide⟩
      · exact ⟨0, 1, fun e => absurd e hab, by decide⟩
      · exact ⟨0, 0, fun _ => rfl, by decide⟩
      · exact ⟨0, 0, fun _ => rfl, by decide⟩
      · exact ⟨0, 0, fun _ => rfl, by decide⟩
  refine condJump_ne_self (fun s => getVar s a) (fun s => getVar s b)
    (setVar (setVar { State.reset with pc := target + 1 } b y) a x) (succ_ne target) rfl ?_
  by_cases hab : b = a
  · subst hab
    simpa [hxy rfl] using hc
  · simpa [getVar_setVar, hab] using hc

/-- A comparison with a constant that some value of the variable makes true, or that logs. -/
theorem comparison_holds (cc : Byte) (w : Word)
    (h : ¬ ((comparator cc = 2 ∧ w = 0x7FFF) ∨ (comparator cc = 4 ∧ w = 0x8000))) :
    ∃ x : Word, 6 ≤ comparator cc ∨ compareSigned (comparator cc) x w = true := by
  have hlt : comparator cc < 8 := by rw [comparator_eq]; omega
  have key : ∀ x : Word, x.toInt = if x.toNat < 32768 then (x.toNat : Int) else x.toNat - 65536 := fun x => by
    rw [BitVec.toInt_eq_toNat_cond]
    split <;> split <;> omega
  have hw := w.isLt
  simp only [compareSigned_iff]
  generalize comparator cc = k at *
  match k with
  | 0 => exact ⟨w, by simp⟩
  | 1 => exact ⟨w + 1, .inr (.inr (.inl ⟨rfl, fun e => succ_ne w (BitVec.eq_of_toInt_eq e)⟩))⟩
  | 2 =>
    refine ⟨0x7FFF, .inr (.inr (.inr (.inl ⟨rfl, ?_⟩)))⟩
    have : w.toNat ≠ 32767 := fun e => h (.inl ⟨rfl, BitVec.eq_of_toNat_eq e⟩)
    rw [key w, show (0x7FFF : Word).toInt = 32767 from by decide]
    split <;> omega
  | 3 => exact ⟨w, by simp⟩
  | 4 =>
    refine ⟨0x8000, .inr (.inr (.inr (.inr (.inr (.inl ⟨rfl, ?_⟩)))))⟩
    have : w.toNat ≠ 32768 := fun e => h (.inr ⟨rfl, BitVec.eq_of_toNat_eq e⟩)
    rw [key w, show (0x8000 : Word).toInt = -32768 from by decide]
    split <;> omega
  | 5 => exact ⟨w, by simp⟩
  | n + 6 => exact ⟨0, .inl (by omega)⟩

theorem condJmpImm16_ne_self {cc : Byte} (a : Byte) {imm : Word} (target : Word)
    (h : ¬ ((comparator cc = 2 ∧ imm = 0x7FFF) ∨ (comparator cc = 4 ∧ imm = 0x8000))) :
    ∃ s, exec (.condJmpImm16 cc a imm target) s ≠ .next s := by
  obtain ⟨x, hx⟩ := comparison_holds cc imm h
  exact condJump_ne_self (fun s => getVar s a) (fun _ => imm) (setVar { State.reset with pc := target + 1 } a x)
    (succ_ne target) rfl (by simpa using hx)

theorem condJmpImm8_ne_self (cc a imm : Byte) (target : Word) : ∃ s, exec (.condJmpImm8 cc a imm target) s ≠ .next s := by
  obtain ⟨x, hx⟩ := comparison_holds cc (zext16 imm) (by
    have : (zext16 imm).toNat < 256 := by
      rw [zext16, BitVec.toNat_setWidth]
      omega
    rintro (⟨_, e⟩ | ⟨_, e⟩) <;> rw [e] at this <;> exact absurd this (by decide))
  exact condJump_ne_self (fun s => getVar s a) (fun _ => zext16 imm) (setVar { State.reset with pc := target + 1 } a x)
    (succ_ne target) rfl (by simpa using hx)

/-- A condition with a valid comparator that does not hold does nothing. -/
theorem condJump_self (s : State) (cc : Byte) (b a target : Word) (h6 : comparator cc < 6)
    (hc : ¬ compareSigned (comparator cc) b a = true) : (.next (condJump s cc b a target) : StepResult) = .next s := by
  rw [condJump_state, if_neg hc, if_pos h6]

/-- The instructions that change nothing in any state are those of `effectFree`, and no others. -/
theorem effectFree_iff (i : Instr) : effectFree i = true ↔ ∀ s, exec i s = .next s := by
  constructor
  · intro h s
    cases i <;> simp only [effectFree, Bool.false_eq_true, decide_eq_true_eq] at h
    case mov d src => simp [exec, execMov, h, setVar, getVar]
    case addi d imm => simp [exec, execAddi, h, setVar, getVar]
    case ori d mask => simp [exec, execOri, h, setVar, getVar]
    case copypage src dst => simp [exec, execCopypage, h]
    case condJmpVar cc a b target =>
      obtain ⟨rfl, h⟩ := h
      exact condJump_self s cc _ _ target (by omega) (by rw [compareSigned_iff]; omega)
    case condJmpImm16 cc a imm target =>
      refine condJump_self s cc _ _ target (by omega) ?_
      have hi := BitVec.toInt_lt (x := getVar s a)
      have lo := BitVec.le_toInt (x := getVar s a)
      rw [compareSigned_iff]
      obtain ⟨hc, rfl⟩ | ⟨hc, rfl⟩ := h
      · rw [show (0x7FFF : Word).toInt = 32767 from by decide]
        omega
      · rw [show (0x8000 : Word).toInt = -32768 from by decide]
        omega
    case thrctl first last mode =>
      have hl : (maskedLast last).toNat = last.toNat % 64 := maskedLast_toNat last
      simp only [exec, execThrctl]
      rw [if_neg (by omega)]
      split <;> first | omega | rfl
  · intro h
    by_contra hn
    obtain ⟨s, hs⟩ : ∃ s, exec i s ≠ .next s := by
      cases i <;> simp only [effectFree, decide_eq_true_eq] at hn
      case movi => exact movi_ne_self _ _
      case mov => exact mov_ne_self hn
      case addi => exact addi_ne_self _ hn
      case call => exact call_ne_self _
      case ret => exact ret_ne_self
      case pause => exact pause_ne_self
      case jmp => exact jmp_ne_self _
      case setvec => exact setvec_ne_self _ _
      case jnz => exact jnz_ne_self _ _
      case condJmpVar => exact condJmpVar_ne_self _ hn
      case condJmpImm16 => exact condJmpImm16_ne_self _ _ hn
      case condJmpImm8 => exact condJmpImm8_ne_self _ _ _ _
      case setpal => exact setpal_ne_self _
      case thrctl => exact thrctl_ne_self hn
      case selpage => exact selpage_ne_self _
      case fillpage => exact fillpage_ne_self _ _
      case copypage => exact copypage_ne_self hn
      case blit => exact blit_ne_self _
      case kill => exact kill_ne_self
      case ori => exact ori_ne_self _ hn
      case update => exact update_ne_self _
      case spoly => exact spoly_ne_self _ _ _ _
      case bpoly => exact bpoly_ne_self _ _ _
      case illegal => exact illegal_ne_self _
    exact hs (h s)

/-- Behind each opcode byte, operands with which it is an instruction that is not free of effects. -/
theorem opcode_has_effect : ∀ op : Byte,
    (match decode (op :: [0, 1, 2, 3, 4, 5, 6]) with
      | .instr i _ => !effectFree i
      | .truncated _ _ => false) = true := by
  decide +kernel

/-- No opcode byte is a nop: each begins an instruction that changes some state (R114). -/
theorem no_opcode_is_a_nop (op : Byte) :
    ∃ operands i n, decode (op :: operands) = .instr i n ∧ ∃ s, exec i s ≠ .next s := by
  have h := opcode_has_effect op
  split at h
  · rename_i i n hd
    refine ⟨_, i, n, hd, ?_⟩
    by_contra hs
    have he := (effectFree_iff i).2 fun s => by_contra fun hn => hs ⟨s, hn⟩
    simp [he] at h
  · cases h

end Sys2Proof.Machine
end

