-- ==== Sys2Proof/Laws/PerInstr.lean ====
section
/-! SUPPORT. The family of statements made per instruction: an instruction is one opcode byte and 0 to 7 operand bytes
(30_encoding.md R91). -/

namespace Sys2Proof.Laws

/-- The encoding is an opcode byte followed by at most seven operand bytes. -/
def EncodeLength.Statement (i : Instr) : Prop :=
  ∃ (op : Byte) (operands : List Byte), encode i = op :: operands ∧ operands.length ≤ 7

namespace EncodeLength

theorem movi (d : Byte) (imm : Word) : Statement (.movi d imm) :=
  ⟨_, _, rfl, by simp⟩

theorem mov (d s : Byte) : Statement (.mov d s) :=
  ⟨_, _, rfl, by simp⟩

theorem addi (d : Byte) (imm : Word) : Statement (.addi d imm) :=
  ⟨_, _, rfl, by simp⟩

theorem call (target : Word) : Statement (.call target) :=
  ⟨_, _, rfl, by simp⟩

theorem ret : Statement .ret :=
  ⟨_, _, rfl, by simp⟩

theorem pause : Statement .pause :=
  ⟨_, _, rfl, by simp⟩

theorem jmp (target : Word) : Statement (.jmp target) :=
  ⟨_, _, rfl, by simp⟩

theorem setvec (t : Byte) (off : Word) : Statement (.setvec t off) :=
  ⟨_, _, rfl, by simp⟩

theorem jnz (d : Byte) (target : Word) : Statement (.jnz d target) :=
  ⟨_, _, rfl, by simp⟩

theorem condJmpVar (cc a b : Byte) (target : Word) : Statement (.condJmpVar cc a b target) :=
  ⟨_, _, rfl, by simp⟩

theorem condJmpImm16 (cc a : Byte) (imm target : Word) : Statement (.condJmpImm16 cc a imm target) :=
  ⟨_, _, rfl, by simp⟩

theorem condJmpImm8 (cc a imm : Byte) (target : Word) : Statement (.condJmpImm8 cc a imm target) :=
  ⟨_, _, rfl, by simp⟩

theorem setpal (w : Word) : Statement (.setpal w) :=
  ⟨_, _, rfl, by simp⟩

theorem thrctl (first last mode : Byte) : Statement (.thrctl first last mode) :=
  ⟨_, _, rfl, by simp⟩

theorem selpage (page : Byte) : Statement (.selpage page) :=
  ⟨_, _, rfl, by simp⟩

theorem fillpage (page colour : Byte) : Statement (.fillpage page colour) :=
  ⟨_, _, rfl, by simp⟩

theorem copypage (src dst : Byte) : Statement (.copypage src dst) :=
  ⟨_, _, rfl, by simp⟩

theorem blit (page : Byte) : Statement (.blit page) :=
  ⟨_, _, rfl, by simp⟩

theorem kill : Statement .kill :=
  ⟨_, _, rfl, by simp⟩

theorem ori (d : Byte) (mask : Word) : Statement (.ori d mask) :=
  ⟨_, _, rfl, by simp⟩

theorem update (id : Word) : Statement (.update id) :=
  ⟨_, _, rfl, by simp⟩

theorem spoly (off : Word) (x : XField) (y : YField) (zoom : ZoomField) : Statement (.spoly off x y zoom) := by
  refine ⟨_, _, rfl, ?_⟩
  cases x <;> cases y <;> cases zoom <;> simp [XField.encode, YField.encode, ZoomField.encode]

theorem bpoly (off : BitVec 15) (x y : Byte) : Statement (.bpoly off x y) :=
  ⟨_, _, rfl, by simp⟩

theorem illegal (op : Byte) : Statement (.illegal op) :=
  ⟨_, _, rfl, by simp⟩

end EncodeLength
end Sys2Proof.Laws
end

