-- ==== Sys2Proof/Laws/Scheduler.lean ====
section
/-! SUPPORT. What the search for the next thread can answer, and the thread table after a commit and a part switch. -/

namespace Sys2Proof.Machine

/-- Some thread: it is the least, from `next` on, that gets a slice (47_scheduler.md R246). -/
theorem firstReady_some {s : State} {next : Nat} {t : Fin 64} (h : firstReady s next = some t) :
    next ≤ t.val ∧ getsSlice s t = true ∧ ∀ u : Fin 64, next ≤ u.val → u.val < t.val → getsSlice s u = false := by
  rw [firstReady, List.find?_eq_some_iff_getElem] at h
  obtain ⟨hp, i, hi, he, hlt⟩ := h
  simp only [Bool.and_eq_true, decide_eq_true_eq] at hp
  refine ⟨hp.1, hp.2, fun u hu hut => ?_⟩
  simp only [List.getElem_finRange] at he
  have hiv : i = t.val := by
    have := congrArg Fin.val he
    simpa using this
  have hw := hlt u.val (by omega)
  simp only [List.getElem_finRange, Bool.not_eq_true', Bool.and_eq_false_iff, decide_eq_false_iff_not] at hw
  rcases hw with hw | hw
  · exact absurd hu (by simpa using hw)
  · simpa using hw

/-- None: no thread from `next` on gets a slice. -/
theorem firstReady_none {s : State} {next : Nat} (h : firstReady s next = none) :
    ∀ u : Fin 64, next ≤ u.val → getsSlice s u = false := by
  rw [firstReady, List.find?_eq_none] at h
  intro u hu
  have := h u (List.mem_finRange u)
  simpa [hu] using this

/-- A thread gets a slice exactly when it is neither held nor inactive (47_scheduler.md R252). -/
theorem getsSlice_iff (s : State) (t : Fin 64) :
    getsSlice s t = true ↔ s.pausedCur[t] = false ∧ s.thrPc[t] ≠ 0xFFFF := by
  simp [getsSlice]

theorem getsSlice_congr {s s' : State} (hp : s'.pausedCur = s.pausedCur) (ht : s'.thrPc = s.thrPc) (t : Fin 64) :
    getsSlice s' t = getsSlice s t := by
  simp only [getsSlice, hp, ht]

/-- The thread table after a commit (47_scheduler.md R251). -/
theorem applyPending_row (s : State) (t : Fin 64) :
    (applyPending s).thrPc[t] = commitPc s.thrPc[t] s.redir[t] ∧ (applyPending s).redir[t] = 0xFFFF ∧
      (applyPending s).pausedCur[t] = s.pausedReq[t] := by
  simp [applyPending]

/-- The thread table of a part just set up (47_scheduler.md R249). -/
theorem threadReset_row (s : State) (t : Fin 64) :
    (threadReset s).thrPc[t] = (if t = 0 then 0 else 0xFFFF) ∧ (threadReset s).redir[t] = 0xFFFF ∧
      (threadReset s).pausedCur[t] = false ∧ (threadReset s).pausedReq[t] = false := by
  have h : (0 = t.val) ↔ (t = 0) := by
    rw [Fin.ext_iff]
    exact eq_comm
  simp [threadReset, Vector.getElem_set, h]

end Sys2Proof.Machine
end

