-- ==== Sys2Proof/Tests/Slice0.lean ====
section
/-! SUPPORT. Tests: ill-formed terms the checks refuse; every constructor's decoding on a word written out from
30_encoding.md R92, R95 to R99; small one-step tests whose expected results are the spec's own vectors (named in each
docstring, 95_test_vectors.md); and for every statement with hypotheses a concrete state and operands that meet them. -/

open Sys2Proof Sys2Proof.Machine

namespace Sys2Proof.Tests

/-! ## Helpers -/

/-- The next state, or the reset state where there is none. -/
def nextOf : StepResult → State
  | .next s => s
  | .fault _ => State.reset
  | .refused _ => State.reset

def isNext : StepResult → Bool
  | .next _ => true
  | .fault _ => false
  | .refused _ => false

theorem eq_nextOf {r : StepResult} (h : isNext r = true) : r = .next (nextOf r) := by
  cases r with
  | next s => rfl
  | fault f => cases h
  | refused f => cases h

/-- The state a draw answers, fault or not. -/
def okOf : Except State State → State
  | .ok s => s
  | .error s => s

def isOk : Except State State → Bool
  | .ok _ => true
  | .error _ => false

theorem eq_okOf {r : Except State State} (h : isOk r = true) : r = .ok (okOf r) := by
  cases r with
  | ok s => rfl
  | error s => cases h

def bytes (l : List Nat) : List Byte := l.map (BitVec.ofNat 8)

/-- A slice of thread 0 at offset 0: bytecode at address 0, a cinematic segment at 0x100, a secondary one at 0x180, a
palette segment at 0x200. -/
def machine (code cinematic secondary palette : List Nat) : State :=
  { State.reset with
    phase := .slice
    seg := ⟨⟨0, code.length⟩, ⟨0x100, cinematic.length⟩, ⟨0x180, secondary.length⟩, ⟨0x200, palette.length⟩⟩
    mem := storeBytes (storeBytes (storeBytes (storeBytes [] 0 (bytes code)) 0x100 (bytes cinematic)) 0x180
      (bytes secondary)) 0x200 (bytes palette) }

def code (l : List Nat) : State := machine l [] [] []

/-- The state after one step. -/
def after (s : State) : State := nextOf (step s)

/-- The record of the rectangle of 46_polygon_rasterizer.md R229. -/
def rectangle : List Nat := [0xC5, 0x0A, 0x04, 0x04, 0x0A, 0x00, 0x0A, 0x04, 0x00, 0x04, 0x00, 0x00]

/-- A hierarchy whose only child is itself (95_test_vectors.md 2.11). -/
def selfReference : List Nat := [0x02, 0, 0, 0, 0, 0, 0, 0]

/-! ## Well-formedness -/

theorem test_condJmpVar_needs_bit7 : (Instr.condJmpVar 0x40 0 0 0).wellFormed = false := by decide
theorem test_condJmpImm16_needs_bit7_clear : (Instr.condJmpImm16 0xC0 0 0 0).wellFormed = false := by decide
theorem test_condJmpImm16_needs_bit6 : (Instr.condJmpImm16 0x00 0 0 0).wellFormed = false := by decide
theorem test_condJmpImm8_needs_bit7_clear : (Instr.condJmpImm8 0x80 0 0 0).wellFormed = false := by decide
theorem test_condJmpImm8_needs_bit6_clear : (Instr.condJmpImm8 0x40 0 0 0).wellFormed = false := by decide
theorem test_illegal_needs_illegal_opcode : (Instr.illegal 0x01).wellFormed = false := by decide
theorem test_illegal_is_below_spoly : (Instr.illegal 0x40).wellFormed = false := by decide

/-! ## Decoding, one word a constructor -/

theorem test_decode_movi : decode [0x00, 0x0A, 0xFF, 0xFE] = .instr (.movi 10 0xFFFE) 4 := by decide
theorem test_decode_mov : decode [0x01, 0x05, 0x02] = .instr (.mov 5 2) 3 := by decide
theorem test_decode_addi : decode [0x03, 0x01, 0xFF, 0x9C] = .instr (.addi 1 0xFF9C) 4 := by decide
theorem test_decode_call : decode [0x04, 0x01, 0x00] = .instr (.call 0x0100) 3 := by decide
theorem test_decode_ret : decode [0x05] = .instr .ret 1 := by decide
theorem test_decode_pause : decode [0x06] = .instr .pause 1 := by decide
theorem test_decode_jmp : decode [0x07, 0x00, 0x20] = .instr (.jmp 0x20) 3 := by decide
theorem test_decode_setvec : decode [0x08, 0x05, 0x01, 0x00] = .instr (.setvec 5 0x100) 4 := by decide
theorem test_decode_jnz : decode [0x09, 0x00, 0x00, 0x08] = .instr (.jnz 0 8) 4 := by decide
theorem test_decode_condJmpVar : decode [0x0A, 0xC1, 0x01, 0x02, 0x00, 0x40] = .instr (.condJmpVar 0xC1 1 2 0x40) 6 := by
  decide
theorem test_decode_condJmpImm16 :
    decode [0x0A, 0x44, 0x02, 0x12, 0x34, 0x00, 0x12] = .instr (.condJmpImm16 0x44 2 0x1234 0x12) 7 := by decide
theorem test_decode_condJmpImm8 : decode [0x0A, 0x38, 0x01, 0x05, 0x00, 0x40] = .instr (.condJmpImm8 0x38 1 5 0x40) 6 := by
  decide
theorem test_decode_setpal : decode [0x0B, 0x03, 0xFF] = .instr (.setpal 0x03FF) 3 := by decide
theorem test_decode_thrctl : decode [0x0C, 0x02, 0x04, 0x01] = .instr (.thrctl 2 4 1) 4 := by decide
theorem test_decode_selpage : decode [0x0D, 0xFF] = .instr (.selpage 0xFF) 2 := by decide
theorem test_decode_fillpage : decode [0x0E, 0x01, 0x06] = .instr (.fillpage 1 6) 3 := by decide
theorem test_decode_copypage : decode [0x0F, 0x00, 0x01] = .instr (.copypage 0 1) 3 := by decide
theorem test_decode_blit : decode [0x10, 0xFE] = .instr (.blit 0xFE) 2 := by decide
theorem test_decode_kill : decode [0x11] = .instr .kill 1 := by decide
theorem test_decode_ori : decode [0x15, 0x03, 0x80, 0x02] = .instr (.ori 3 0x8002) 4 := by decide
theorem test_decode_update : decode [0x19, 0x3E, 0x81] = .instr (.update 0x3E81) 3 := by decide
/-- G5: all three modes 00. -/
theorem test_decode_spoly_words : decode [0x40, 0x00, 0x10, 0xFF, 0xF6, 0xFF, 0xFB] =
    .instr (.spoly 0x10 (.imm16 0xFFF6) (.imm16 0xFFFB) .default) 7 := by decide
/-- G7: all three modes 01. -/
theorem test_decode_spoly_variables : decode [0x55, 0x00, 0x10, 0x01, 0x02, 0x03] =
    .instr (.spoly 0x10 (.var 1) (.var 2) (.var 3)) 6 := by decide
/-- G11: x and y modes 11, zoom mode 11. -/
theorem test_decode_spoly_high : decode [0x7F, 0x00, 0x10, 0x20, 0x64] =
    .instr (.spoly 0x10 (.imm8High 0x20) (.imm8Alt 0x64) .secondary) 5 := by decide
/-- G9: x and y modes 10, zoom mode 10. -/
theorem test_decode_spoly_bytes : decode [0x6A, 0x00, 0x00, 0x64, 0x32, 0x80] =
    .instr (.spoly 0 (.imm8 0x64) (.imm8 0x32) (.imm8 0x80)) 6 := by decide
/-- G2, G3. -/
theorem test_decode_bpoly : decode [0x81, 0x00, 0xFA, 0xD2] = .instr (.bpoly 0x100 0xFA 0xD2) 4 := by decide
theorem test_decode_bpoly_highest : decode [0xFF, 0xFF, 0x00, 0xC7] = .instr (.bpoly 0x7FFF 0 0xC7) 4 := by decide
theorem test_decode_illegal : decode [0x1A, 0x00, 0x00] = .instr (.illegal 0x1A) 1 := by decide
theorem test_decode_illegal_last : decode [0x3F] = .instr (.illegal 0x3F) 1 := by decide
theorem test_decode_truncated : decode [0x09, 0x07, 0x00] = .truncated 2 (some 7) := by decide
/-- The table numbering: the first byte is bits 7:0. -/
theorem test_decodeTableWord : decodeTableWord 32 0xFEFF0A00 = some (.movi 10 0xFFFE) := by decide

/-! ## One step, the spec's vectors -/

/-- A1. -/
theorem test_movi : getVar (after (code [0x00, 0x0A, 0xFF, 0xFE])) 10 = 0xFFFE ∧
    (after (code [0x00, 0x0A, 0xFF, 0xFE])).pc = 4 := by decide
/-- A3. -/
theorem test_mov : getVar (after (setVar (code [0x01, 0x05, 0x02]) 2 7)) 5 = 7 ∧
    getVar (after (setVar (code [0x01, 0x05, 0x02]) 2 7)) 2 = 7 := by decide
/-- A5. -/
theorem test_addi_wraps : (getVar (after (setVar (code [0x03, 0x01, 0x00, 0x01]) 1 0x7FFF)) 1).toInt = -32768 := by decide
/-- A7. -/
theorem test_addi_negative : getVar (after (setVar (code [0x03, 0x01, 0xFF, 0x9C]) 1 100)) 1 = 0 := by decide
/-- A9. -/
theorem test_ori : getVar (after (setVar (code [0x15, 0x03, 0x80, 0x02]) 3 5)) 3 = 0x8007 := by decide
/-- B1, with the call at offset 0: the offset after it is pushed. -/
theorem test_call : (after (code [0x04, 0x01, 0x00])).stack[0] = 3 ∧ (after (code [0x04, 0x01, 0x00])).sp = 1 ∧
    (after (code [0x04, 0x01, 0x00])).pc = 0x0100 := by decide
/-- E8: the 256th call. -/
theorem test_call_overflow : (after { code [0x04, 0x00, 0x00] with sp := 255 }).fault = some (.stackOverflow 0) ∧
    (after { code [0x04, 0x00, 0x00] with sp := 255 }).pc = 3 := by decide
/-- B2. -/
theorem test_ret : (after { code [0x05] with sp := 1, stack := Vector.replicate 255 0x13 }).pc = 0x13 ∧
    (after { code [0x05] with sp := 1, stack := Vector.replicate 255 0x13 }).sp = 0 := by decide
/-- E8. -/
theorem test_ret_underflow : (after (code [0x05])).fault = some (.stackUnderflow 0) ∧ (after (code [0x05])).pc = 1 := by
  decide
/-- B3. -/
theorem test_jmp : (after (code [0x07, 0x00, 0x20])).pc = 0x20 := by decide
/-- B4. -/
theorem test_jnz_falls_through : getVar (after (setVar (code [0x09, 0x00, 0x00, 0x40]) 0 1)) 0 = 0 ∧
    (after (setVar (code [0x09, 0x00, 0x00, 0x40]) 0 1)).pc = 4 := by decide
/-- B5. -/
theorem test_jnz_jumps : getVar (after (code [0x09, 0x00, 0x00, 0x40])) 0 = 0xFFFF ∧
    (after (code [0x09, 0x00, 0x00, 0x40])).pc = 0x40 := by decide
/-- X3: the target word is out of bounds, the decrement stays. -/
theorem test_jnz_truncated : getVar (after (code [0x09, 0x00, 0x00])) 0 = 0xFFFF ∧
    (after (code [0x09, 0x00, 0x00])).fault = some (.segmentBounds .bytecode 2) ∧ (after (code [0x09, 0x00, 0x00])).pc = 2 := by
  decide
/-- B10. -/
theorem test_condJmpImm8_signed : (after (setVar (code [0x0A, 0x04, 0x01, 0x00, 0x00, 0x40]) 1 0xFFFF)).pc = 0x40 := by
  decide
/-- B9. -/
theorem test_condJmpImm8_bad_comparator : (after (code [0x0A, 0x06, 0x01, 0x05, 0x00, 0x40])).pc = 6 ∧
    (after (code [0x0A, 0x06, 0x01, 0x05, 0x00, 0x40])).log = [⟨.soft (.badComparator 0 6), 0, 0⟩] := by decide
/-- B12. -/
theorem test_condJmpImm16 : (after (setVar (code [0x0A, 0x40, 0x01, 0xFF, 0xFF, 0x00, 0x40]) 1 0xFFFF)).pc = 0x40 := by
  decide
/-- B13: the operand is a variable. -/
theorem test_condJmpVar :
    (after (setVar (setVar (code [0x0A, 0x84, 0x01, 0x02, 0x00, 0x40]) 1 0x8000) 2 0x7FFF)).pc = 0x40 := by decide
/-- C1. -/
theorem test_setvec : (after (code [0x08, 0x05, 0x01, 0x00])).redir[5] = 0x100 ∧
    (after (code [0x08, 0x05, 0x01, 0x00])).thrPc[5] = 0xFFFF := by decide
/-- C4. -/
theorem test_setvec_range : (after (code [0x08, 0x40, 0x00, 0x00])).fault = some (.threadId 0 64) := by decide
/-- C5: pause, then the end of the slice. -/
theorem test_pause : (after (code [0x06])).yield = true ∧ (after (after (code [0x06]))).thrPc[0] = 1 := by decide
/-- C6. -/
theorem test_kill : (after (code [0x11])).yield = true ∧ (after (code [0x11])).pc = 0xFFFF := by decide
/-- C9: the last id is masked, the redirect is the deactivation sentinel. -/
theorem test_thrctl_deactivates : (after (code [0x0C, 0x3E, 0x7F, 0x02])).redir[62] = 0xFFFE ∧
    (after (code [0x0C, 0x3E, 0x7F, 0x02])).redir[63] = 0xFFFE ∧ (after (code [0x0C, 0x3E, 0x7F, 0x02])).redir[61] = 0xFFFF := by
  decide
/-- C10. -/
theorem test_thrctl_range : (after (code [0x0C, 0x05, 0x44, 0x00])).fault = some (.threadRange 0 5 4) := by decide
/-- D12. -/
theorem test_setpal : (after (code [0x0B, 0x03, 0xFF])).reqPal = 3 := by decide
/-- D14. -/
theorem test_setpal_bad : (after { code [0x0B, 0x20, 0x00] with reqPal := 3 }).reqPal = 3 ∧
    (after { code [0x0B, 0x20, 0x00] with reqPal := 3 }).log = [⟨.soft (.badPaletteId 0 32), 0, 0⟩] := by decide
/-- D1. -/
theorem test_selpage_alias : (after (code [0x0D, 0xFF])).ptr1 = 1 := by decide
/-- D3. -/
theorem test_selpage_bad : (after (code [0x0D, 0x07])).ptr1 = 0 ∧
    (after (code [0x0D, 0x07])).log = [⟨.soft (.badPageId 0 7), 0, 0⟩] := by decide
/-- D5: a colour of 16 or more. -/
theorem test_fillpage : (after (code [0x0E, 0x03, 0x12])).pages[3].byte 31999 = 0x32 ∧
    (after (code [0x0E, 0x03, 0x12])).pages[2].byte 0 = 0 := by decide
/-- D7, on a source page whose row 197 is marked: it lands on row 199. -/
theorem test_copypage_scroll :
    (after (setVar { code [0x0F, 0x00, 0x01] with
      pages := State.reset.pages.set 0 ((Page.filled 0).setPixel 10 197 9) } 0xF9 2)).pages[1].pixel 10 199 = 9 := by
  decide +kernel
/-- D10, equal ids; and D18, 0xFE with the page it stands for: a scroll copies no row. -/
theorem test_copypage_onto_itself : (after (code [0x0F, 0x09, 0x09])).log = [] ∧
    (after (setVar { code [0x0F, 0xFE, 0x02] with
      pages := State.reset.pages.set 2 ((Page.filled 0).setPixel 10 197 9) } 0xF9 2)).pages[2].pixel 10 199 = 0 := by
  decide +kernel
/-- D15: the aliases are swapped, the draw target is presented last. -/
theorem test_blit_swap : (after (code [0x10, 0xFF])).ptr2 = 1 ∧ (after (code [0x10, 0xFF])).ptr3 = 2 := by decide
/-- D20: the palette segment is too short; the first eight bytes are loaded. -/
theorem test_blit_palette_fault :
    (after { machine [0x10, 0xFE] [] [] (List.replicate 32 0 ++ [0, 1, 2, 3, 4, 5, 6, 7]) with reqPal := 1 }).fault =
        some (.segmentBounds .palette 40) ∧
      (after { machine [0x10, 0xFE] [] [] (List.replicate 32 0 ++ [0, 1, 2, 3, 4, 5, 6, 7]) with reqPal := 1 }).curPal[7] = 7 := by
  decide
/-- F3. -/
theorem test_update_part : (after (code [0x19, 0x3E, 0x80])).reqPart = 0x3E80 := by decide
/-- F2: a load that fails, the host's answer given. -/
theorem test_update_load_failure : (loadMemoryEntry ⟨false, []⟩ 0x12 (code [])).fault = some (.loadFailed 0 0x12) ∧
    (loadMemoryEntry ⟨false, []⟩ 0x12 (code [])).calls = [.loadMemoryEntry 0x12] := by decide
/-- K1. -/
theorem test_bpoly_rectangle :
    (after (machine [0x80, 0x00, 0x64, 0x32] rectangle [] [])).pages[2].pixel 95 48 = 5 ∧
      (after (machine [0x80, 0x00, 0x64, 0x32] rectangle [] [])).pages[2].pixel 105 51 = 5 ∧
      (after (machine [0x80, 0x00, 0x64, 0x32] rectangle [] [])).pages[2].pixel 106 51 = 0 ∧
      (after (machine [0x80, 0x00, 0x64, 0x32] rectangle [] [])).pages[2].pixel 105 52 = 0 := by
  decide +kernel
/-- 95_test_vectors.md 2.11: a hierarchy that names itself. -/
theorem test_bpoly_self_reference :
    (after (machine [0x80, 0x00, 0x64, 0x32] selfReference [] [])).fault = some (.hierDepth 0 1) := by
  decide +kernel
/-- K2: zoom 128, from the cinematic segment. -/
theorem test_spoly_zoom :
    (after (machine [0x6A, 0x00, 0x00, 0x64, 0x32, 0x80] rectangle [] [])).pages[2].pixel 90 46 = 5 ∧
      (after (machine [0x6A, 0x00, 0x00, 0x64, 0x32, 0x80] rectangle [] [])).pages[2].pixel 110 53 = 5 ∧
      (after (machine [0x6A, 0x00, 0x00, 0x64, 0x32, 0x80] rectangle [] [])).pages[2].pixel 111 53 = 0 := by
  decide +kernel
/-- H8, in the secondary segment: 50 is not below 50. -/
theorem test_spoly_bad_count :
    (after (machine [0x6B, 0x00, 0x00, 0xA0, 0x64] [] [0xC5, 0x0A, 0x04, 0x32] [])).fault = some (.badVertexCount 0 3 50) := by
  decide
/-- X5. -/
theorem test_illegal : (after (code [0x1A, 0x00, 0x00])).fault = some (.illegalOpcode 0 0x1A) ∧
    (after (code [0x1A, 0x00, 0x00])).pc = 1 := by decide
/-- `withFetchWord` places the word where the next step fetches. -/
theorem test_withFetchWord : getVar (after (State.reset.withFetchWord 32 0xFEFF0A00)) 10 = 0xFFFE := by decide

/-! ## Witnesses: each statement with hypotheses, on concrete states and operands that meet them -/

theorem witness_DecodeEncodeRoundTrip : (Instr.condJmpImm16 0x44 2 0x1234 0x12).wellFormed = true := by decide

theorem witness_DecodedBytesAreTheEncoding : decode [0x0E, 0x01, 0x06, 0x77] = .instr (.fillpage 1 6) 3 := by decide

theorem witness_DecodeReadsOnlyItsBytes :
    decode [0x0E, 0x01, 0x06, 0x77] = .instr (.fillpage 1 6) 3 ∧ (Instr.spoly 1 (.imm16 2) (.imm16 3) (.imm8 4)).wellFormed = true ∧
      0 < (encode (Instr.spoly 1 (.imm16 2) (.imm16 3) (.imm8 4))).length ∧
      7 < (encode (Instr.spoly 1 (.imm16 2) (.imm16 3) (.imm8 4))).length := by decide

theorem witness_DecodeFollowsTheOpcodeMap :
    (0x80 : Byte).getLsbD 7 = true ∧ ((0x7F : Byte).getLsbD 7 = false ∧ (0x7F : Byte).getLsbD 6 = true ∧
      decode [0x7F, 0x00, 0x10, 0x20, 0x64] = .instr (.spoly 0x10 (.imm8High 0x20) (.imm8Alt 0x64) .secondary) 5) ∧
      ((0x0102 : Word).toNat = 256 * (1 : Byte).toNat + (2 : Byte).toNat ∧ (0xC0 : Byte).getLsbD 7 = true ∧
        ((0x3F : Byte).getLsbD 7 = false ∧ (0x3F : Byte).getLsbD 6 = false) ∧
        ((0x7F : Byte).getLsbD 7 = false ∧ (0x7F : Byte).getLsbD 6 = true) ∧ illegalOpcode 0x3F = true ∧
        illegalOpcode 0x02 = true) := by decide

/-- The modes of `spoly`: 00, 01 and 10 in the opcode byte 0x46, and 11 in every field of 0x7F. -/
theorem witness_DecodeFollowsTheOpcodeMap_spoly :
    ((0x46 : Byte).toNat = 64 + 16 * 0 + 4 * 1 + 2 ∧ xFieldIs 0 [0x01, 0x02] (.imm16 0x0102) ∧ yFieldIs 1 [5] (.var 5) ∧
      zoomFieldIs 2 [0x80] (.imm8 0x80)) ∧
    ((0x7F : Byte).toNat = 64 + 16 * 3 + 4 * 3 + 3 ∧ xFieldIs 3 [0x20] (.imm8High 0x20) ∧ yFieldIs 3 [0x64] (.imm8Alt 0x64) ∧
      zoomFieldIs 3 [] .secondary) :=
  ⟨⟨by decide, .inl ⟨rfl, 1, 2, 0x0102, rfl, by decide, rfl⟩, .inr (.inl ⟨rfl, 5, rfl, rfl⟩),
      .inr (.inr (.inl ⟨rfl, 0x80, rfl, rfl⟩))⟩,
    ⟨by decide, .inr (.inr (.inr ⟨rfl, 0x20, rfl, rfl⟩)), .inr (.inr (.inr ⟨rfl, 0x64, rfl, rfl⟩)),
      .inr (.inr (.inr ⟨rfl, rfl, rfl⟩))⟩⟩

theorem witness_LengthFromFirstBytes :
    decode [0x41, 0, 0x10, 0, 0xA0, 0, 0x64, 5] = .instr (.spoly 0x10 (.imm16 0xA0) (.imm16 0x64) (.var 5)) 8 ∧
      decode [0x05] = .instr .ret 1 := by decide

theorem witness_StepRunsTheDecodedInstruction :
    (code [0x05]).fault = none ∧ (code [0x05]).phase = .slice ∧ (code [0x05]).yield = false ∧
      (code [0x05]).seg.bytecode.len ≤ 0xFFFF ∧ decode (fetchWindow (code [0x05])) = .instr .ret 1 := by decide

theorem witness_StepRunsTheEncodedBytes :
    (code [0x0E, 1, 6]).fault = none ∧ (code [0x0E, 1, 6]).phase = .slice ∧ (code [0x0E, 1, 6]).yield = false ∧
      (code [0x0E, 1, 6]).seg.bytecode.len ≤ 0xFFFF ∧ (Instr.fillpage 1 6).wellFormed = true ∧
      window (code [0x0E, 1, 6]) .bytecode (code [0x0E, 1, 6]).pc.toNat (encode (.fillpage 1 6)).length =
        encode (.fillpage 1 6) := by decide

theorem witness_IllegalOpcodeFaults :
    (code [0x3F]).fault = none ∧ (code [0x3F]).phase = .slice ∧ (code [0x3F]).yield = false ∧
      (code [0x3F]).seg.bytecode.len ≤ 0xFFFF ∧ window (code [0x3F]) .bytecode (code [0x3F]).pc.toNat 1 = [0x3F] ∧
      (0x1B ≤ (0x3F : Byte).toNat ∧ (0x3F : Byte).toNat ≤ 0x3F) := by decide

/-- No opcode byte; the last byte of a target word missing, of `jnz` and of `call`. -/
theorem witness_TruncatedFetchFaults :
    ((code []).fault = none ∧ (code []).phase = .slice ∧ (code []).yield = false ∧ (code []).seg.bytecode.len ≤ 0xFFFF ∧
      Instr.ret.wellFormed = true ∧ 0 < (encode .ret).length ∧ fetchWindow (code []) = (encode .ret).take 0 ∧
      0 = failingFetch 0 0 (fetchWidths .ret)) ∧
    ((code [9, 7, 0]).fault = none ∧ (code [9, 7, 0]).phase = .slice ∧ (code [9, 7, 0]).yield = false ∧
      (code [9, 7, 0]).seg.bytecode.len ≤ 0xFFFF ∧ (Instr.jnz 7 0).wellFormed = true ∧ 3 < (encode (.jnz 7 0)).length ∧
      fetchWindow (code [9, 7, 0]) = (encode (.jnz 7 0)).take 3 ∧ 2 = failingFetch 3 0 (fetchWidths (.jnz 7 0))) ∧
    ((code [4, 0]).fault = none ∧ (code [4, 0]).phase = .slice ∧ (code [4, 0]).yield = false ∧
      (code [4, 0]).seg.bytecode.len ≤ 0xFFFF ∧ (Instr.call 0).wellFormed = true ∧ 2 < (encode (.call 0)).length ∧
      fetchWindow (code [4, 0]) = (encode (.call 0)).take 2 ∧ 1 = failingFetch 2 0 (fetchWidths (.call 0))) := by decide

theorem witness_HaltedMachineStays : (after (code [0x1A])).fault ≠ none := by decide

theorem witness_CallCompletes : ({ code [] with sp := 254 } : State).sp.toNat < 255 ∧
    ({ code [] with sp := 255 } : State).sp.toNat = 255 := by decide

theorem witness_RetCompletes : ({ code [] with sp := 255 } : State).sp.toNat = (254 : Fin 255).val + 1 ∧
    ({ code [] with sp := 1 } : State).sp.toNat = (0 : Fin 255).val + 1 ∧ (code []).sp.toNat = 0 := by decide

/-- A `call` of the `ret` behind it: the run of each, and the empty body between them. -/
theorem witness_CallRetRoundTrip :
    Runs (code [4, 0, 3, 5]) (.call 3) 3 (after (code [4, 0, 3, 5])) ∧
      Balanced (after (code [4, 0, 3, 5])) (after (code [4, 0, 3, 5])) ∧
      Runs (after (code [4, 0, 3, 5])) .ret 1 (after (after (code [4, 0, 3, 5]))) :=
  ⟨⟨by decide, by decide, by decide, by decide, by decide, eq_nextOf (by decide), by decide⟩, .nothing _,
    ⟨by decide, by decide, by decide, by decide, by decide, eq_nextOf (by decide), by decide⟩⟩

theorem witness_CondJmpCompletes (s : State) :
    (∃ b, Instr.condJmpVar 0x85 1 2 0x40 = .condJmpVar 0x85 1 b 0x40 ∧ (getVar s 2).toInt = (getVar s b).toInt) ∧
      (∃ imm, Instr.condJmpImm16 0x46 1 0xFFFF 0x40 = .condJmpImm16 0x46 1 imm 0x40 ∧ (-1 : Int) = imm.toInt) ∧
      (∃ imm : Byte, Instr.condJmpImm8 0x00 1 0xFF 0x40 = .condJmpImm8 0x00 1 imm 0x40 ∧ (255 : Int) = (imm.toNat : Int)) :=
  ⟨⟨2, rfl, rfl⟩, ⟨0xFFFF, rfl, by decide⟩, ⟨0xFF, rfl, by decide⟩⟩

theorem witness_SetvecCompletes : (63 : Byte).toNat < 64 ∧ 64 ≤ (64 : Byte).toNat := by decide

theorem witness_ThrctlCompletes : (63 : Byte).toNat ≤ (0x7F : Byte).toNat % 64 ∧ (0x44 : Byte).toNat % 64 < (5 : Byte).toNat := by
  decide

theorem witness_ResolvePageTable : (3 : Byte).toNat = (3 : Fin 4).val ∧ 4 ≤ (4 : Byte).toNat ∧ (4 : Byte).toNat < 0xFE ∧
    4 ≤ (0xFD : Byte).toNat ∧ (0xFD : Byte).toNat < 0xFE := by decide

theorem witness_SetpalCompletes : (31 : Byte).toNat = (0x1FFF : Word).toNat / 256 ∧ (32 : Byte).toNat = (0x2000 : Word).toNat / 256 := by
  decide

theorem witness_FillpageCompletes : 31999 < 32000 ∧ (15 : Byte).toNat < 16 ∧ (3 : Fin 4) ≠ (resolvePage (code []) 1).1 := by decide

/-- Equal ids; two pages with a scroll of 1, whose first row has no source row and whose second has; a third page. -/
theorem witness_CopypageCompletes : (2 : Byte) = 2 ∧ (resolvePage (code []) 0).1 ≠ (resolvePage (code []) 1).1 ∧
    (getVar (setVar (code []) 0xF9 1) 0xF9).toInt = 1 ∧ (0 : Int) ≤ 1 - 1 ∧ ¬ (0 : Int) ≤ 0 - 1 ∧
    (3 : Fin 4) ≠ (resolvePage (code []) 1).1 := by decide

/-- Two different ids of one page: 0xFE and 2 after reset, and the invalid id 9 with page 0 it resolves to. -/
theorem witness_CopypageCompletes_one_page :
    (0xFE : Byte) ≠ 2 ∧ (resolvePage (code []) 0xFE).1 = (resolvePage (code []) 2).1 ∧
      (9 : Byte) ≠ 0 ∧ (resolvePage (code []) 9).1 = (resolvePage (code []) 0).1 := by decide

/-- D22 and D24: a clock gone backwards, and one that shows exactly the budget. -/
theorem witness_PaceRule :
    ((0 : Nat) = (if (1000 : Nat) ≤ 990 then 990 - 1000 else 0) ∧ (100 : Int) = (5 : Word).toInt * 20 ∧ ((0 : Nat) : Int) < 100) ∧
      ((100 : Nat) = (if (1000 : Nat) ≤ 1100 then 1100 - 1000 else 0) ∧ (100 : Int) ≤ ((100 : Nat) : Int)) := by decide

theorem witness_UpdateAliasesTable : (3 : Byte).toNat < 0xFE ∧ (0xFD : Byte).toNat < 0xFE := by decide

/-- No palette pending; palette 1 readable in full (D19); palette 1 with eight readable bytes (D20). -/
theorem witness_BlitCompletes :
    (code []).reqPal = 0xFF ∧
      (let s := { machine [] [] [] (List.replicate 64 7) with reqPal := 1 }; s.reqPal ≠ 0xFF ∧ window s .palette (32 * s.reqPal.toNat) 32 = (Vector.replicate 32 (7 : Byte)).toList) ∧
      (let s := { machine [] [] [] (List.replicate 40 7) with reqPal := 1 }; s.reqPal ≠ 0xFF ∧ (window s .palette (32 * s.reqPal.toNat) 32).length = 8) := by decide

theorem witness_UpdateCompletes : 0x3E80 ≤ (0x3E80 : Word).toNat ∧ (0x3E7F : Word) ≠ 0 ∧ (0x3E7F : Word).toNat < 0x3E80 := by decide

/-- An answer that writes the last byte of the arena twice and a byte of the bytecode segment: the first is allowed and
ends at the later value, the second is not. -/
theorem witness_UpdateCompletes_writes :
    let s := code [6]
    let ws : List Host.Cell := [(1048575, 7), (0, 9), (1048575, 8)]
    outsideSegments s.arenaSize s.seg 1048575 = true ∧ outsideSegments s.arenaSize s.seg 0 = false ∧ s.mem.wf = true ∧
      ws = [(1048575, 7), (0, 9)] ++ (1048575, 8) :: [] ∧ (loaderWrites (outsideSegments s.arenaSize s.seg) ws s.mem).read 1048575 = 8 := by
  decide

/-- The rectangle record drawn by `bpoly 0, 100, 50`, and by `spoly` from the secondary segment. -/
theorem witness_DirectRecordIsDrawn :
    drawCall (machine [] rectangle [] []) (.bpoly 0 100 50) = some ⟨.cinematic, 0, 64, 100, 50⟩ ∧
      window (machine [] rectangle [] []) .cinematic 0 (4 + 2 * (4 : Byte).toNat) =
        0xC5 :: 0x0A :: 0x04 :: 0x04 :: [0x0A, 0x00, 0x0A, 0x04, 0x00, 0x04, 0x00, 0x00] ∧
      drawCall (machine [] [] rectangle []) (.spoly 0 (.imm8 100) (.imm8Alt 50) .secondary) =
        some ⟨.secondary, 0, 64, 100, 50⟩ ∧
      window (machine [] [] rectangle []) .secondary 0 (4 + 2 * (4 : Byte).toNat) =
        0xC5 :: 0x0A :: 0x04 :: 0x04 :: [0x0A, 0x00, 0x0A, 0x04, 0x00, 0x04, 0x00, 0x00] ∧
      0xC0 ≤ (0xC5 : Byte).toNat ∧ (4 : Byte).toNat % 2 = 0 ∧ (4 : Byte).toNat < 50 := by decide

/-- H12. -/
theorem witness_BadDiscriminatorDrawsNothing :
    drawCall (machine [] [0xBF] [] []) (.bpoly 0 100 50) = some ⟨.cinematic, 0, 64, 100, 50⟩ ∧
      window (machine [] [0xBF] [] []) .cinematic 0 1 = [0xBF] ∧ (0xBF : Byte).toNat < 0xC0 ∧ (0xBF : Byte).toNat % 64 ≠ 2 := by
  decide

/-- H7 and H8. -/
theorem witness_BadVertexCountFaults :
    drawCall (machine [] [0xC5, 0x0A, 4, 3] [] []) (.bpoly 0 100 50) = some ⟨.cinematic, 0, 64, 100, 50⟩ ∧
      window (machine [] [0xC5, 0x0A, 4, 3] [] []) .cinematic 0 4 = [0xC5, 0x0A, 4, 3] ∧
      window (machine [] [0xC0, 0x0A, 4, 50] [] []) .cinematic 0 4 = [0xC0, 0x0A, 4, 50] ∧ 0xC0 ≤ (0xC0 : Byte).toNat ∧
      (3 : Byte).toNat % 2 = 1 ∧ 50 ≤ (50 : Byte).toNat := by decide

theorem witness_SelfReferentialHierarchyFaults :
    drawCall (machine [] selfReference [] []) (.bpoly 0 100 50) = some ⟨.cinematic, 0, 64, 100, 50⟩ ∧
      window (machine [] selfReference [] []) .cinematic 0 8 = [2, 0, 0, 0, 0, 0, 0, 0] ∧ (2 : Byte).toNat < 0xC0 ∧
      (2 : Byte).toNat % 64 = 2 ∧ 2 * ((0 : Byte).toNat * 256 + (0 : Byte).toNat) = 0 := by decide

/-- No readable byte; the discriminator alone; three bytes of a direct record, and its count alone, of the greatest legal
value; one point and a half; a hierarchy of which two bytes are readable. -/
theorem witness_DirectRecordIsDrawn_truncated :
    window (machine [] [] [] []) .cinematic 0 1 = [] ∧
      window (machine [] [0xC5] [] []) .cinematic 0 2 = [0xC5] ∧
      window (machine [] [0xC0, 10, 4] [] []) .cinematic 0 4 = [0xC0, 10, 4] ∧
      window (machine [] [0xC5, 10, 4, 48] [] []) .cinematic 0 5 = [0xC5, 10, 4, 48] ∧
      (48 : Byte).toNat % 2 = 0 ∧ (48 : Byte).toNat < 50 ∧ 4 < 4 + 2 * (48 : Byte).toNat ∧
      window (machine [] [0xC5, 10, 4, 4, 10, 0, 10] [] []) .cinematic 0 8 = [0xC5, 10, 4, 4, 10, 0, 10] ∧
      7 < 4 + 2 * (4 : Byte).toNat ∧
      window (machine [] [0x82, 5] [] []) .cinematic 0 3 = [0x82, 5] ∧ 1 ≤ (machine [] [0x82, 5] [] []).hierDepthMax := by
  decide

/-- 95_test_vectors.md 2.11: two children, the second with colour bytes. -/
def twoChildren : List ChildBytes := [⟨0x00, 0x08, 5, 5, []⟩, ⟨0x80, 0x08, 0x19, 5, [3, 0]⟩]

theorem twoChildren_fit : ∀ c ∈ twoChildren, c.fits := by
  intro c hc
  simp only [twoChildren, List.mem_cons, List.not_mem_nil, or_false] at hc
  rcases hc with rfl | rfl <;> rfl

def twoChildrenRecord : List Nat := [0x82, 5, 5, 1, 0x00, 0x08, 5, 5, 0x80, 0x08, 0x19, 5, 3, 0, 0, 0]

/-- The same, with a second child at offset 28. -/
def badSecond : List ChildBytes := [⟨0x00, 0x08, 5, 5, []⟩, ⟨0x80, 0x0E, 0x19, 5, [3, 0]⟩]

/-- The hierarchy of `badSecond`, the rectangle at offset 16, and at offset 28 a record with three points. -/
def badSecondMachine : State :=
  machine [] ([0x82, 5, 5, 1, 0x00, 0x08, 5, 5, 0x80, 0x0E, 0x19, 5, 3, 0, 0, 0] ++ rectangle ++ [0xC5, 0x0A, 4, 3]) [] []

/-- What drawing the first child of `badSecond` leaves. -/
def firstDrawn : Except State State := [⟨0x00, 0x08, 5, 5, []⟩].foldlM (drawChild .cinematic 64 95 45 0) badSecondMachine

/-- What drawing the first of `twoChildren` leaves, and what drawing both leaves. -/
def firstOfTwo : Except State State :=
  [⟨0x00, 0x08, 5, 5, []⟩].foldlM (drawChild .cinematic 64 95 45 0) (machine [] (twoChildrenRecord ++ rectangle) [] [])
def bothOfTwo : Except State State :=
  twoChildren.foldlM (drawChild .cinematic 64 95 45 0) (machine [] (twoChildrenRecord ++ rectangle) [] [])

/-- 95_test_vectors.md 2.11: both children are the readable rectangle at offset 16; the first, without colour bytes, is
painted in the record's own colour 5, the second in the colour 3 of its colour bytes. -/
theorem witness_HierarchyDrawsItsChildren_colours :
    window (okOf firstOfTwo) .cinematic 16 (4 + 2 * (4 : Byte).toNat) =
        0xC5 :: 0x0A :: 0x04 :: 0x04 :: [0x0A, 0x00, 0x0A, 0x04, 0x00, 0x04, 0x00, 0x00] ∧
      (ChildBytes.mk 0x00 0x08 5 5 []).target = 16 ∧ ¬ 128 ≤ (0x00 : Byte).toNat ∧
      (ChildBytes.mk 0x80 0x08 0x19 5 [3, 0]).target = 16 ∧ 128 ≤ (0x80 : Byte).toNat ∧
      firstOfTwo = .ok (okOf firstOfTwo) ∧ bothOfTwo = .ok (okOf bothOfTwo) ∧
      (okOf bothOfTwo).pages[2].pixel 95 48 = 5 ∧ (okOf bothOfTwo).pages[2].pixel 115 48 = 3 ∧
      (okOf bothOfTwo).pages[2].pixel 125 51 = 3 ∧ (okOf bothOfTwo).pages[2].pixel 126 51 = 0 :=
  ⟨by decide +kernel, by decide, by decide, by decide, by decide, eq_okOf (by decide +kernel), eq_okOf (by decide +kernel),
    by decide +kernel, by decide +kernel, by decide +kernel, by decide +kernel⟩

/-- The colours passed in at the boundary: 0x7F is passed on, 0x80 is the record's own; and the greatest legal count. -/
theorem witness_HierarchyDrawsItsChildren_direct :
    ¬ 128 ≤ (0x7F : Byte).toNat ∧ 128 ≤ (0x80 : Byte).toNat ∧
      window (machine [] rectangle [] []) .cinematic 0 (4 + 2 * (4 : Byte).toNat) =
        0xC5 :: 0x0A :: 0x04 :: 0x04 :: [0x0A, 0x00, 0x0A, 0x04, 0x00, 0x04, 0x00, 0x00] ∧
      (48 : Byte).toNat % 2 = 0 ∧ (48 : Byte).toNat < 50 := by decide

/-- Two children of which both are drawn; and a child that is neither direct nor a hierarchy. -/
theorem witness_HierarchyDrawsItsChildren :
    (0x82 : Byte).toNat < 0xC0 ∧ (0x82 : Byte).toNat % 64 = 2 ∧ (95 : Word) = 100 - scale 5 64 ∧
      twoChildren.length = (1 : Byte).toNat + 1 ∧
      window (machine [] (twoChildrenRecord ++ rectangle) [] []) .cinematic 0
          (4 + (twoChildren.flatMap ChildBytes.stored).length) =
        0x82 :: 5 :: 5 :: 1 :: twoChildren.flatMap ChildBytes.stored ∧
      window (machine [] (twoChildrenRecord ++ [0xBF]) [] []) .cinematic 16 1 = [0xBF] ∧ (0xBF : Byte).toNat % 64 ≠ 2 := by
  decide

/-- A second child with a bad vertex count after a first that is drawn (R234). -/
theorem witness_HierarchyDrawsItsChildren_fault :
    window badSecondMachine .cinematic 0 (4 + (badSecond.flatMap ChildBytes.stored).length) =
        0x82 :: 5 :: 5 :: 1 :: badSecond.flatMap ChildBytes.stored ∧
      badSecond = [⟨0x00, 0x08, 5, 5, []⟩] ++ [⟨0x80, 0x0E, 0x19, 5, [3, 0]⟩] ∧ firstDrawn = .ok (okOf firstDrawn) ∧
      (okOf firstDrawn).pages[2].pixel 95 48 = 5 ∧ window (okOf firstDrawn) .cinematic 28 4 = [0xC5, 0x0A, 4, 3] ∧
      (ChildBytes.mk 0x80 0x0E 0x19 5 [3, 0]).target = 28 ∧ 0xC0 ≤ (0xC5 : Byte).toNat ∧ (3 : Byte).toNat % 2 = 1 :=
  ⟨by decide, rfl, eq_okOf (by decide +kernel), by decide +kernel, by decide +kernel, by decide, by decide, by decide⟩

/-- A draw to be answered; a hierarchy with no record left to open; a first child running off the segment after none, one
and three of its bytes, and one with colour bytes after four. -/
theorem witness_HierarchyDrawsItsChildren_ends :
    drawCall (machine [] selfReference [] []) (.bpoly 0 100 50) = some ⟨.cinematic, 0, 64, 100, 50⟩ ∧
      window (machine [] selfReference [] []) .cinematic 0 1 = [2] ∧
      window (machine [] [0x82, 5, 5, 1] [] []) .cinematic 0 4 = [0x82, 5, 5, 1] ∧
      window (machine [] [0x82, 5, 5, 1] [] []) .cinematic 4 6 = [] ∧ 0 = failingFetch 0 0 [2, 1, 1, 1, 1] ∧
      window (machine [] [0x82, 5, 5, 1, 0] [] []) .cinematic 4 6 = [0] ∧ 0 = failingFetch 1 0 [2, 1, 1, 1, 1] ∧
      window (machine [] [0x82, 5, 5, 1, 0, 8, 5] [] []) .cinematic 4 6 = [0, 8, 5] ∧
      3 = failingFetch 3 0 [2, 1, 1, 1, 1] ∧
      window (machine [] [0x82, 5, 5, 1, 0x80, 8, 5, 5] [] []) .cinematic 4 6 = [0x80, 8, 5, 5] ∧
      128 ≤ (0x80 : Byte).toNat ∧ 4 = failingFetch 4 0 [2, 1, 1, 1, 1] := by
  decide

/-- A hierarchy at offset 2 whose first child, at offset 0, is logged and skipped, and whose second has no last byte. -/
def endsInChild : State := machine [] [0xBF, 0, 0x82, 5, 5, 1, 0, 0, 5, 5, 0x80, 8, 5, 5, 3] [] []

/-- What its first child leaves. -/
def firstSkipped : Except State State := [⟨0, 0, 5, 5, []⟩].foldlM (drawChild .cinematic 64 95 45 0) endsInChild

theorem witness_HierarchyDrawsItsChildren_later_end :
    window endsInChild .cinematic 2 8 = 0x82 :: 5 :: 5 :: 1 :: ([⟨0, 0, 5, 5, []⟩] : List ChildBytes).flatMap ChildBytes.stored ∧
      firstSkipped = .ok (okOf firstSkipped) ∧ window endsInChild .cinematic 10 6 = [0x80, 8, 5, 5, 3] ∧
      5 = failingFetch 5 0 [2, 1, 1, 1, 1] :=
  ⟨by decide, eq_okOf (by decide), by decide, by decide⟩

/-- Two machines that differ in a variable: they draw the same. -/
theorem witness_RasterizerTouchesOnlyTheTarget :
    let s := machine [] rectangle [] []
    let s' := setVar s 7 1
    let i := Instr.bpoly 0 100 50
    drawCall s i = some ⟨.cinematic, 0, 64, 100, 50⟩ ∧ drawCall s' i = some ⟨.cinematic, 0, 64, 100, 50⟩ ∧
      (∀ off, window s .cinematic off 1 = window s' .cinematic off 1) ∧ s.hierDepthMax = s'.hierDepthMax ∧ s.ptr1 = s'.ptr1 ∧
      s.pages[s.ptr1] = s'.pages[s'.ptr1] ∧ s.pages[(0 : Fin 4)] = s'.pages[(0 : Fin 4)] ∧
      exec i s = .next (nextOf (exec i s)) ∧ exec i s' = .next (nextOf (exec i s')) :=
  ⟨by decide, by decide, fun _ => (window_congr (s := machine [] rectangle [] []) (s' := setVar (machine [] rectangle [] []) 7 1) _
    rfl rfl rfl _ _).symm, rfl, rfl, rfl, rfl, eq_nextOf (by decide +kernel), eq_nextOf (by decide +kernel)⟩

/-- Every corner of a page is in range. -/
theorem witness_PixelWriteThenRead : 319 < 320 ∧ 199 < 200 ∧ 0 < 320 := by decide

theorem witness_PutPixelPaints : 319 < 320 ∧ 199 < 200 ∧ (0x0F : Byte).toNat < 0x10 ∧ (0x10 : Byte).toNat = 0x10 ∧
    0x10 < (0x11 : Byte).toNat := by decide

theorem witness_SpanPaintsItsRun : 199 < 200 ∧ 319 < 320 ∧ (319 : Int) ≤ 319 ∧ (0 : Int) ≤ 0 := by decide

theorem witness_RectangleRecordExample : window (machine [] rectangle [] []) .cinematic 0 12 =
    [0xC5, 0x0A, 0x04, 0x04, 0x0A, 0x00, 0x0A, 0x04, 0x00, 0x04, 0x00, 0x00] := by decide

/-- The least and the greatest box and anchor. -/
theorem witness_RectangleIsPainted :
    (0 < (1 : Word).toNat ∧ (1 : Word).toNat < 16384 ∧ -16384 ≤ (0xC000 : Word).toInt ∧ (0xC000 : Word).toInt < 16384) ∧
      (0 < (16383 : Word).toNat ∧ (16383 : Word).toNat < 16384 ∧ -16384 ≤ (16383 : Word).toInt ∧ (16383 : Word).toInt < 16384) := by
  decide

/-- The triangle K5 (rows 16 to 23), the line K6 (row 59) and the point K7, each at a pixel it paints. -/
theorem witness_FillPaintsThePolygon :
    polygonCovers ⟨8, 8, [(4, 0), (8, 8), (0, 8), (4, 0)]⟩ 20 20 24 23 ∧
      polygonCovers ⟨8, 2, [(8, 0), (0, 0)]⟩ 50 60 46 59 ∧ polygonCovers ⟨0, 5, []⟩ 50 60 50 60 ∧
      ¬ polygonCovers ⟨8, 2, []⟩ 50 60 50 59 := by
  refine ⟨.inr ⟨by decide, by decide, by decide, by decide, by decide, by decide, .inr ⟨by decide, by decide, 16, 24, by decide, ?_⟩⟩,
    .inr ⟨by decide, by decide, by decide, by decide, by decide, by decide, .inl ⟨rfl, by decide, ?_⟩⟩, .inl ⟨by decide, rfl, rfl⟩, ?_⟩
  · unfold spanCovers; decide
  · unfold spanCovers; decide
  · rintro (⟨h, _⟩ | ⟨_, _, _, _, _, _, ⟨h, _⟩ | ⟨h, _⟩⟩)
    · exact absurd h (by decide)
    · exact absurd h (by decide)
    · exact absurd h (by decide)

/-- A segment pair of no rows between two others: a step to the right of four pixels (R221). -/
theorem test_rowEnds_skips_empty_segment :
    rowEnds [⟨2, 0, 0⟩, ⟨0, 0, 262144⟩, ⟨2, 0, 0⟩] 0 655360 2 = some (0, 14) := by decide

theorem witness_ScaleValue : (8224 : Word).toNat ≤ 8224 ∧ 8224 < (8225 : Word).toNat := by decide

/-- The last byte of a segment, the offset after it, and a word that straddles the end. -/
theorem witness_SegmentReads :
    let s := code [1, 2]
    (1 < (segOf s.seg .bytecode).len ∧ (segOf s.seg .bytecode).base + 1 < s.arenaSize) ∧ (segOf s.seg .bytecode).len ≤ 2 ∧
      (0 + 1 < (segOf s.seg .bytecode).len ∧ (segOf s.seg .bytecode).base + 0 + 1 < s.arenaSize) ∧
      (segOf s.seg .bytecode).len ≤ 1 + 1 := by decide

theorem witness_MemoryReadAfterWrite : Memory.wf [(3, 7), (9, 1)] = true := by decide

/-- A part requested at the top of a frame; an answer with a legal mapping of the greatest length; a failure. -/
theorem witness_PartSwitchStep :
    let s := { State.reset with reqPart := 0x3E81 }
    s.fault = none ∧ s.phase = .frameTop ∧ s.reqPart ≠ 0 ∧
      legalMapping s.arenaSize ⟨⟨0, 0xFFFF⟩, ⟨0, 1048576⟩, ⟨0, 0⟩, ⟨1048576, 0⟩⟩ = true ∧
      (⟨false, default, []⟩ : SetupAnswer).ok = false ∧ s.mem.wf = true ∧ (1048575 : Nat) < s.arenaSize ∧
      ([(1048575, 7), (1048575, 8)] : List Host.Cell) = [(1048575, 7)] ++ (1048575, 8) :: [] := by decide

theorem witness_PartSwitchStep_nothing_requested : State.reset.fault = none ∧ State.reset.phase = .frameTop ∧ State.reset.reqPart = 0 := by
  decide

theorem witness_HostOutsideContractStops :
    legalMapping State.reset.arenaSize ⟨⟨0, 0x10000⟩, ⟨0, 0⟩, ⟨0, 0⟩, ⟨0, 0⟩⟩ = false ∧
      (let s := { code [] with seg := ⟨⟨0, 0x10000⟩, ⟨0, 0⟩, ⟨0, 0⟩, ⟨0, 0⟩⟩ }; s.fault = none ∧ s.phase = .slice ∧ s.yield = false ∧ 0xFFFF < s.seg.bytecode.len) := by decide

theorem witness_CommitAppliesRequests :
    let s := { State.reset with phase := .commit, redir := State.reset.redir.set 3 0x40 }
    s.fault = none ∧ s.phase = .commit := by decide

/-- Thread 0 from id 0 on; no thread from id 1 on; the other phases, and a machine that has faulted. -/
theorem witness_SelectStartsTheLeastReadyThread :
    (let s := { State.reset with phase := .select 0 }; s.fault = none ∧ s.phase = .select 0 ∧ 0 ≤ (0 : Fin 64).val ∧ s.pausedCur[(0 : Fin 64)] = false ∧
        s.thrPc[(0 : Fin 64)] ≠ 0xFFFF ∧
        ∀ u' : Fin 64, 0 ≤ u'.val → u'.val < (0 : Fin 64).val → s.pausedCur[u'] = true ∨ s.thrPc[u'] = 0xFFFF) ∧
      (let s := { State.reset with phase := .select 1 }; s.fault = none ∧ s.phase = .select 1 ∧ ∀ u : Fin 64, 1 ≤ u.val → s.pausedCur[u] = true ∨ s.thrPc[u] = 0xFFFF) ∧
      (State.reset.phase = .frameTop ∧ isNext (step State.reset) = true ∧ (nextOf (step State.reset)).fault = none) ∧
      (after (code [0x06])).yield = true ∧ ((code [0x06]).yield = false ∧ isNext (step (code [0x06])) = true) ∧
      (after (code [0x1A])).fault ≠ none := by decide

theorem witness_SliceEndSavesPc : (after (code [0x06])).fault = none ∧ (after (code [0x06])).phase = .slice ∧
    (after (code [0x06])).yield = true := by decide

/-- S7: every thread inactive. -/
theorem witness_EmptyFrameIdlesForEver :
    let s := { State.reset with thrPc := Vector.replicate 64 0xFFFF }
    s.fault = none ∧ s.phase = .frameTop ∧ s.reqPart = 0 ∧ ∀ th : Fin 64, getsSlice (applyPending s) th = false := by
  decide +kernel

/-- A preset list with a slot given twice: the last value stands. -/
theorem witness_ResetValues :
    let b := { Boot.bare with preset := [(9, 1), (9, 2)] }
    (9 : Byte) ≠ 0x3C ∧ b.preset = [(9, 1)] ++ (9, 2) :: [] ∧ ∀ p ∈ b.preset, p.1 ≠ 8 :=
  ⟨by decide, rfl, by simp⟩

theorem witness_RunningPartIsConstant : step (code [0x06]) = .next (after (code [0x06])) ∧
    ((code [0x06]).phase = .frameTop → (code [0x06]).reqPart = 0) ∧
    outsideSegments (code [0x06]).arenaSize (code [0x06]).seg 0 = false := ⟨eq_nextOf (by decide), by decide, by decide⟩

theorem witness_OnlyTheCommitChangesWhoRuns : (code [0x06]).phase = .slice ∧ step (code [0x06]) = .next (after (code [0x06])) ∧
    { code [0x06] with phase := .select 5 }.phase = .select 5 ∧
    step { code [0x06] with phase := .select 5 } = .next (after { code [0x06] with phase := .select 5 }) :=
  ⟨rfl, eq_nextOf (by decide), rfl, eq_nextOf (by decide)⟩

/-- A running machine in the middle of a slice is a legal state. -/
theorem witness_InvariantIsKept : LegalState (code [0x19, 0x3E, 0x81]) :=
  ⟨by decide, by decide, by decide, by decide, by decide, by decide, by decide, by decide, fun _ h => nomatch h⟩

theorem witness_InvariantHoldsAtReset :
    let b := { Boot.bare with arenaSize := 8, seg := ⟨⟨0, 8⟩, ⟨8, 0⟩, ⟨0, 0⟩, ⟨0, 0⟩⟩, mem := [(7, 1)], hierDepthMax := 1 }
    b.mem.wf = true ∧ (∀ c ∈ b.mem, c.1 < b.arenaSize) ∧ legalMapping b.arenaSize b.seg = true ∧ 1 ≤ b.hierDepthMax := by decide

end Sys2Proof.Tests
end

/-! Pixels of a page: where a nibble lies in its byte, and what a pixel write replaces (10_state.md R34, R35). -/

namespace Sys2Proof.Machine

/-! One byte. -/

/-- The even column is the high half of the byte, the odd column the low half (10_state.md R34). -/
theorem nibble_toNat (b : Byte) (x : Nat) :
    (nibble b x).toNat = if x % 2 = 0 then b.toNat / 16 else b.toNat % 16 := by
  unfold nibble
  split
  · have hb : b.toNat / 16 < 16 := by omega
    simpa [Nat.shiftRight_eq_div_pow] using hb
  · simp

/-- Two columns of one parity are the same half of a byte: a write to it is read back (10_state.md R35). -/
theorem nibble_setNibble_same (b : Byte) {x x' : Nat} (c : BitVec 4) (h : x' % 2 = x % 2) :
    nibble (setNibble b x c) x' = c := by
  unfold nibble setNibble
  rw [h]
  split <;> ext i hi
  · interval_cases i <;> simp
  · simp

/-- Two columns of different parity are the two halves of a byte: a write to one keeps the other (10_state.md R35). -/
theorem nibble_setNibble_other (b : Byte) {x x' : Nat} (c : BitVec 4) (h : x' % 2 ≠ x % 2) :
    nibble (setNibble b x c) x' = nibble b x' := by
  unfold nibble setNibble
  rcases Nat.mod_two_eq_zero_or_one x with hx | hx
  · have hx' : x' % 2 ≠ 0 := by omega
    rw [if_pos hx, if_neg hx', if_neg hx']
    ext i hi
    interval_cases i <;> simp
  · have hx' : x' % 2 = 0 := by omega
    rw [if_neg (by omega : x % 2 ≠ 0), if_pos hx', if_pos hx']
    ext i hi
    interval_cases i <;> simp

/-! One page. -/

/-- A pixel write touches one byte of its row and no other row (10_state.md R35). -/
theorem setPixel_getElem (p : Page) {x y : Nat} (c : BitVec 4) {k r : Nat} (hx : x < 320) (hy : y < 200) (hk : k < 160)
    (hr : r < 200) :
    ((p.setPixel x y c)[r]'hr)[k]'hk =
      if r = y ∧ k = x / 2 then setNibble ((p[r]'hr)[k]'hk) x c else (p[r]'hr)[k]'hk := by
  rw [Page.setPixel, dif_pos ⟨hx, hy⟩]
  by_cases hry : r = y
  · subst hry
    by_cases hkx : k = x / 2
    · subst hkx
      simp
    · simp [hkx, Ne.symm hkx]
  · simp [hry, Ne.symm hry]

/-- Reading after a pixel write: the colour written at its pixel, the old colour at every other (10_state.md R35). -/
theorem pixel_setPixel (p : Page) {x y x' y' : Nat} (c : BitVec 4) (hx : x < 320) (hy : y < 200) (hx' : x' < 320)
    (hy' : y' < 200) :
    (p.setPixel x y c).pixel x' y' = if x' = x ∧ y' = y then c else p.pixel x' y' := by
  rw [pixel_eq_nibble _ _ _ hx' hy', pixel_eq_nibble _ _ _ hx' hy', byte_row _ _ _ hy' (by omega),
    byte_row _ _ _ hy' (by omega), setPixel_getElem p c hx hy (by omega) hy']
  by_cases hbyte : y' = y ∧ x' / 2 = x / 2
  · rw [if_pos hbyte]
    by_cases hparity : x' % 2 = x % 2
    · rw [nibble_setNibble_same _ c hparity, if_pos (by omega)]
    · rw [nibble_setNibble_other _ c hparity, if_neg (by omega)]
  · have other_pixel : ¬ (x' = x ∧ y' = y) := by omega
    rw [if_neg hbyte, if_neg other_pixel]

/-- Settles O39: the position from `nibble_toNat` at the pixel's byte, the replacement from `pixel_setPixel`. -/
theorem pixelWriteThenRead : Obligations.PixelWriteThenRead := by
  intro p x y x' y' c hx hy hx' hy'
  exact ⟨by rw [pixel_eq_nibble p x y hx hy, nibble_toNat], pixel_setPixel p c hx hy hx' hy'⟩

end Sys2Proof.Machine

/-! Segment-relative reads: when a byte or a word is out of bounds, and what a read inside answers (20_memory.md R68,
R69). -/

namespace Sys2Proof.Machine

/-- The bounds test of the reads is the complement of `readable` (20_memory.md R68). -/
theorem not_readable_iff (s : State) (g : Segment) (off : Nat) :
    ¬ readable s g off ↔ (segOf s.seg g).len ≤ off ∨ s.arenaSize ≤ (segOf s.seg g).base + off := by
  simp only [readable]
  omega

/-- Settles O45: of the two outcomes of `segRead8_cases` and `segRead16_cases` the bounds leave one, and a word's value is
`bigEndian_toNat` of its bytes. A word is out of bounds when its second byte is, for the first lies below it. -/
theorem segmentReads : Obligations.SegmentReads := by
  rintro s g off _ _ rfl rfl
  refine ⟨fun outside => ?byteFaults, fun inSegment inArena => ?byteReads, fun outside => ?wordFaults,
    fun inSegment inArena => ?wordReads⟩
  case byteFaults =>
    rcases segRead8_cases s g off with ⟨inside, _⟩ | ⟨_, faults⟩
    · exact absurd inside ((not_readable_iff s g off).2 outside)
    · exact faults
  case byteReads =>
    rcases segRead8_cases s g off with ⟨_, reads⟩ | ⟨outside, _⟩
    · exact reads
    · exact absurd ⟨inSegment, inArena⟩ outside
  case wordFaults =>
    rcases segRead16_cases s g off with ⟨inside, _⟩ | ⟨_, faults⟩
    · exact absurd inside ((not_readable_iff s g (off + 1)).2 outside)
    · exact faults
  case wordReads =>
    rcases segRead16_cases s g off with ⟨_, reads⟩ | ⟨outside, _⟩
    · exact ⟨_, reads, by rw [bigEndian_toNat, Nat.mul_comm]⟩
    · exact absurd ⟨inSegment, inArena⟩ outside

end Sys2Proof.Machine

/-! The opcode map: which decoder an opcode byte's bits 7 and 6 pick, and what each makes of its bytes
(30_encoding.md R94 to R99). -/

namespace Sys2Proof

open Sys2Proof.Machine

/-- A word is fetched with its first byte the more significant (20_memory.md R66). -/
theorem eq_bigEndian_of_toNat {h l : Byte} {w : Word} (hw : w.toNat = 256 * h.toNat + l.toNat) :
    w = bigEndian h l := by
  apply BitVec.eq_of_toNat_eq
  rw [bigEndian_toNat, hw, Nat.mul_comm]

/-! The three parts of the map (R94). -/

theorem decode_of_bit7 {op : Byte} (h7 : op.getLsbD 7 = true) (r : List Byte) :
    decode (op :: r) = decodeBpoly op r := by
  simp only [decode, h7, if_true]

theorem decode_of_bit6 {op : Byte} (h7 : op.getLsbD 7 = false) (h6 : op.getLsbD 6 = true) (r : List Byte) :
    decode (op :: r) = decodeSpoly op r := by
  simp only [decode, h7, h6, Bool.false_eq_true, if_false, if_true]

theorem decode_of_bits_clear {op : Byte} (h7 : op.getLsbD 7 = false) (h6 : op.getLsbD 6 = false) (r : List Byte) :
    decode (op :: r) = decodeTable op r := by
  simp only [decode, h7, h6, Bool.false_eq_true, if_false]

/-! `spoly` (R99). -/

/-- The format of `spoly` holds no other instruction. -/
theorem decodeSpoly_instr {op : Byte} {r : List Byte} {i : Instr} {n : Nat} (h : decodeSpoly op r = .instr i n) :
    ∃ off x y z, i = .spoly off x y z := by
  simp only [decodeSpoly] at h
  split at h
  next =>
    split at h
    next => cases h
    next =>
      split at h
      next => cases h
      next =>
        split at h
        next => cases h
        next =>
          cases h
          exact ⟨_, _, _, _, rfl⟩
  next => cases h

theorem spolyOpcode_toNat (xm ym zm : BitVec 2) :
    (spolyOpcode xm ym zm).toNat = 64 + 16 * xm.toNat + 4 * ym.toNat + zm.toNat := by
  revert xm ym zm
  decide

/-- Behind the opcode byte of their modes and an offset word, encoded fields decode to themselves, in the order x, y,
zoom. -/
theorem decode_spoly (h l : Byte) (x : XField) (y : YField) (z : ZoomField) (r : List Byte) :
    decode (spolyOpcode x.encode.1 y.encode.1 z.encode.1 :: h :: l :: (x.encode.2 ++ y.encode.2 ++ z.encode.2 ++ r)) =
      .instr (.spoly (bigEndian h l) x y z) (3 + x.encode.2.length + y.encode.2.length + z.encode.2.length) := by
  rw [decode_of_bit6 (spolyOpcode_bit7 ..) (spolyOpcode_bit6 ..)]
  simp only [decodeSpoly, modeBits_spolyOpcode_x, modeBits_spolyOpcode_y, modeBits_spolyOpcode_z, List.append_assoc,
    decodeX_encode, decodeY_encode, decodeZoom_encode]

/-- The rows of the x modes are those of the encoder. -/
theorem encode_of_xFieldIs {mode : Nat} {bytes : List Byte} {x : XField} (h : xFieldIs mode bytes x) :
    x.encode = (BitVec.ofNat 2 mode, bytes) := by
  rcases h with ⟨rfl, b, c, w, rfl, hw, rfl⟩ | ⟨rfl, b, rfl, rfl⟩ | ⟨rfl, b, rfl, rfl⟩ | ⟨rfl, b, rfl, rfl⟩
  · simp [XField.encode, eq_bigEndian_of_toNat hw]
  all_goals rfl

/-- The rows of the y modes are those of the encoder. -/
theorem encode_of_yFieldIs {mode : Nat} {bytes : List Byte} {y : YField} (h : yFieldIs mode bytes y) :
    y.encode = (BitVec.ofNat 2 mode, bytes) := by
  rcases h with ⟨rfl, b, c, w, rfl, hw, rfl⟩ | ⟨rfl, b, rfl, rfl⟩ | ⟨rfl, b, rfl, rfl⟩ | ⟨rfl, b, rfl, rfl⟩
  · simp [YField.encode, eq_bigEndian_of_toNat hw]
  all_goals rfl

/-- The rows of the zoom modes are those of the encoder. -/
theorem encode_of_zoomFieldIs {mode : Nat} {bytes : List Byte} {z : ZoomField} (h : zoomFieldIs mode bytes z) :
    z.encode = (BitVec.ofNat 2 mode, bytes) := by
  rcases h with ⟨rfl, rfl, rfl⟩ | ⟨rfl, b, rfl, rfl⟩ | ⟨rfl, b, rfl, rfl⟩ | ⟨rfl, rfl, rfl⟩ <;> rfl

/-- Fields given by their modes and bytes: the modes are the opcode byte's bits 5:0. -/
theorem decode_spoly_of_modes {op h l : Byte} {xm ym zm : Nat} {xb yb zb : List Byte} {off : Word} {x : XField}
    {y : YField} {z : ZoomField} (r : List Byte) (hxm : xm < 4) (hym : ym < 4) (hzm : zm < 4)
    (hop : op.toNat = 64 + 16 * xm + 4 * ym + zm) (hoff : off.toNat = 256 * h.toNat + l.toNat)
    (hx : xFieldIs xm xb x) (hy : yFieldIs ym yb y) (hz : zoomFieldIs zm zb z) :
    decode (op :: h :: l :: (xb ++ yb ++ zb ++ r)) =
      .instr (.spoly off x y z) (3 + xb.length + yb.length + zb.length) := by
  have opcode : spolyOpcode (BitVec.ofNat 2 xm) (BitVec.ofNat 2 ym) (BitVec.ofNat 2 zm) = op := by
    apply BitVec.eq_of_toNat_eq
    rw [spolyOpcode_toNat, hop]
    simp only [BitVec.toNat_ofNat]
    omega
  have decoded := decode_spoly h l x y z r
  rwa [encode_of_xFieldIs hx, encode_of_yFieldIs hy, encode_of_zoomFieldIs hz, opcode,
    ← eq_bigEndian_of_toNat hoff] at decoded

/-! `cond_jmp`: bits 7 and 6 of the condition byte, bit 7 first (R97). -/

theorem decodeCond_var {cc : Byte} (h7 : cc.getLsbD 7 = true) (a b h l : Byte) (r : List Byte) :
    decodeCond (cc :: a :: b :: h :: l :: r) = .instr (.condJmpVar cc a b (bigEndian h l)) 6 := by
  simp only [decodeCond, h7, if_true, decodeTarget]

theorem decodeCond_imm16 {cc : Byte} (h7 : cc.getLsbD 7 = false) (h6 : cc.getLsbD 6 = true) (a b c h l : Byte)
    (r : List Byte) :
    decodeCond (cc :: a :: b :: c :: h :: l :: r) =
      .instr (.condJmpImm16 cc a (bigEndian b c) (bigEndian h l)) 7 := by
  simp only [decodeCond, h7, h6, Bool.false_eq_true, if_false, if_true, decodeTarget]

theorem decodeCond_imm8 {cc : Byte} (h7 : cc.getLsbD 7 = false) (h6 : cc.getLsbD 6 = false) (a b h l : Byte)
    (r : List Byte) :
    decodeCond (cc :: a :: b :: h :: l :: r) = .instr (.condJmpImm8 cc a b (bigEndian h l)) 6 := by
  simp only [decodeCond, h7, h6, Bool.false_eq_true, if_false, decodeTarget]

/-- The row 0x0A of the table. -/
theorem decode_condJmp (r : List Byte) : decode (0x0A :: r) = decodeCond r :=
  decode_of_bits_clear rfl rfl r

/-- Settles O4: bit 7 and bit 6 pick `decodeBpoly` and `decodeSpoly`; a row of the table, its words written as their two
bytes, is its arm of `decodeTable` evaluated, except `cond_jmp`, whose form is a bit test, and the illegal bytes. -/
theorem decodeFollowsTheOpcodeMap : Obligations.DecodeFollowsTheOpcodeMap := by
  refine ⟨fun op lo x y r h7 => ?bpoly, fun op r i n h7 h6 h => ?spolyOnly,
    fun _ _ _ _ _ _ _ _ _ r _ _ _ _ => decode_spoly_of_modes r, fun a b c d e f r w w' w'' hw hw' hw'' => ?table⟩
  case bpoly => exact ⟨bpolyField op lo, bpolyField_toNat op lo, by rw [decode_of_bit7 h7, decodeBpoly]⟩
  case spolyOnly => exact decodeSpoly_instr (by rwa [decode_of_bit6 h7 h6] at h)
  case table =>
    obtain rfl := eq_bigEndian_of_toNat hw
    obtain rfl := eq_bigEndian_of_toNat hw'
    obtain rfl := eq_bigEndian_of_toNat hw''
    refine ⟨rfl, rfl, rfl, rfl, rfl, rfl, rfl, rfl, rfl, fun h7 => ?var, fun h7 h6 => ?imm8, fun h7 h6 imm himm => ?imm16,
      rfl, rfl, rfl, rfl, rfl, rfl, rfl, rfl, rfl, decode_illegal a r⟩
    case var => rw [decode_condJmp, decodeCond_var h7]
    case imm8 => rw [decode_condJmp, decodeCond_imm8 h7 h6]
    case imm16 => rw [decode_condJmp, decodeCond_imm16 h7 h6, eq_bigEndian_of_toNat himm]

end Sys2Proof

/-! One step of a slice on a decoded instruction, and the illegal opcode bytes (47_scheduler.md R255; 30_encoding.md
R110; 60_exceptions.md R269). -/

namespace Sys2Proof.Machine

/-- A slice in progress, with nothing to end it, goes on with the instruction at `pc` (R254). -/
theorem step_slice {s : State} (hfault : s.fault = none) (hphase : s.phase = .slice) (hyield : s.yield = false) :
    step s = executeOne s := by
  simp only [step, hfault, hphase, hyield, Option.isSome_none, Bool.false_eq_true, if_false]

/-- The instruction the readable bytes begin with is executed, `pc` past its bytes (R255). -/
theorem executeOne_of_decode {s : State} {i : Instr} {n : Nat} (hlen : s.seg.bytecode.len ≤ 0xFFFF)
    (hdecode : decode (fetchWindow s) = .instr i n) : executeOne s = exec i (fetched s n) := by
  have hshort : ¬ bytecodeTooLong s = true := by simpa only [bytecodeTooLong, decide_eq_true_eq, not_lt] using hlen
  simp only [executeOne, if_neg hshort, hdecode]

/-- A readable opcode byte is the first byte that the fetch of an instruction reads. -/
theorem fetchWindow_of_opcode {s : State} {op : Byte} (h : window s .bytecode s.pc.toNat 1 = [op]) :
    ∃ r, fetchWindow s = op :: r := by
  have hfirst : (fetchWindow s).take 1 = [op] := by
    rw [fetchWindow, ← window_take s .bytecode s.pc.toNat (by decide : 1 ≤ maxLength), h]
  have hsplit := List.take_append_drop 1 (fetchWindow s)
  rw [hfirst] at hsplit
  exact ⟨_, hsplit.symm⟩

/-- The meaning of an illegal opcode byte is the entry of its fault (60_exceptions.md R269, R275). -/
theorem exec_illegal (op : Byte) (s : State) :
    exec (.illegal op) s = .next (raise s (.illegalOpcode s.insnPc op)) := rfl

theorem illegalOpcode_iff (op : Byte) : illegalOpcode op = true ↔
    op = 0x02 ∨ op = 0x12 ∨ op = 0x13 ∨ op = 0x14 ∨ op = 0x16 ∨ op = 0x17 ∨ op = 0x18 ∨ op = 0x1A ∨
      (0x1B ≤ op.toNat ∧ op.toNat ≤ 0x3F) := by
  simp only [illegalOpcode, Bool.or_eq_true, Bool.and_eq_true, decide_eq_true_eq, or_assoc]

theorem illegalOpcode_count : ((List.range 256).filter fun n => illegalOpcode (BitVec.ofNat 8 n)).length = 45 := by
  decide

/-- Settles O9: the byte decodes to `illegal` alone, whatever is readable after it, so the step is `exec_illegal` in the
state fetched past one byte. -/
theorem illegalOpcodeFaults : Obligations.IllegalOpcodeFaults := by
  refine ⟨illegalOpcode_count, exec_illegal, fun s op hfault hphase hyield hlen hopcode hop => ⟨?_, rfl⟩⟩
  obtain ⟨r, hwindow⟩ := fetchWindow_of_opcode hopcode
  have hdecode : decode (fetchWindow s) = .instr (.illegal op) 1 := by
    rw [hwindow, decode_illegal op r ((illegalOpcode_iff op).2 hop)]
  rw [step_slice hfault hphase hyield, executeOne_of_decode hlen hdecode, exec_illegal]
  rfl

end Sys2Proof.Machine

/-! The call stack over a run: which instructions leave it alone, what a `call` and a `ret` that run do to it, and what a
balanced run keeps (41_control_transfer.md R131, R133, R134). -/

namespace Sys2Proof.Machine

/-! The instructions that are neither `call` nor `ret`. -/

/-- The call stack, its entries and `SP`, is the same in both states (10_state.md R32). -/
def StackSame (s t : State) : Prop := t.sp = s.sp ∧ t.stack = s.stack

theorem condJump_stackSame (s : State) (cc : Byte) (b a target : Word) : StackSame s (condJump s cc b a target) := by
  rw [condJump_state]
  exact ⟨rfl, rfl⟩

theorem loadMemoryEntry_stackSame (a : LoadAnswer) (id : Word) (s : State) : StackSame s (loadMemoryEntry a id s) := by
  unfold loadMemoryEntry
  split <;> exact ⟨rfl, rfl⟩

theorem blitWith_stackSame {clock : Nat → Nat} {page : Byte} {s t : State} (h : settle (blitWith clock page s) = .next t) :
    StackSame s t := by
  have beforePalette : StackSame s (updateAliases page (pace clock s)) := by simp [StackSame]
  rcases blitWith_result clock page s _ rfl with ⟨_, e⟩ | ⟨_, _, e⟩ | ⟨_, _, _, e⟩ <;>
    · rw [e] at h
      cases h
      exact beforePalette

theorem drawShape_stackSame {s t : State} {g : Segment} {off : Nat} {colour : Byte} {zoom x y : Word}
    (h : settle (drawShape s g off colour zoom x y) = .next t) : StackSame s t := by
  have painted : ∀ {u new}, Painted s u new → StackSame s u := fun hp => by
    rw [hp.rest]
    exact ⟨rfl, rfl⟩
  have result := drawShape_result s g off colour zoom x y
  cases e : drawShape s g off colour zoom x y with
  | ok u =>
    rw [e] at h result
    cases h
    obtain ⟨_, hp⟩ := result
    exact painted hp
  | error u =>
    rw [e] at h result
    cases h
    obtain ⟨_, _, _, hp, rfl, _⟩ := result
    simpa only [StackSame, raise_sp, raise_stack] using painted hp

/-- Only `call` and `ret` touch the call stack: any other instruction leaves it alone, a fault taken or not. -/
theorem exec_stackSame {i : Instr} {s t : State} (keeps : keepsStack i) (h : exec i s = .next t) : StackSame s t := by
  cases i with
  | call target => exact absurd rfl (keeps.1 target)
  | ret => exact absurd rfl keeps.2
  | movi | mov | addi | ori | jmp | pause | kill | illegal =>
    cases h
    exact ⟨rfl, rfl⟩
  | jnz d target =>
    cases h
    split <;> exact ⟨rfl, rfl⟩
  | condJmpVar | condJmpImm16 | condJmpImm8 =>
    cases h
    exact condJump_stackSame ..
  | setvec id off =>
    simp only [exec, execSetvec] at h
    split at h <;> cases h <;> exact ⟨rfl, rfl⟩
  | thrctl first last mode =>
    simp only [exec, execThrctl] at h
    split at h
    · cases h
      exact ⟨rfl, rfl⟩
    · split at h <;> cases h <;> exact ⟨rfl, rfl⟩
  | setpal w =>
    simp only [exec, execSetpal] at h
    split at h <;> cases h <;> exact ⟨rfl, rfl⟩
  | selpage | fillpage =>
    cases h
    simp [StackSame]
  | copypage src dst =>
    simp only [exec, execCopypage] at h
    split at h
    · cases h
      exact ⟨rfl, rfl⟩
    · split at h <;> cases h <;> simp [StackSame]
  | blit page => exact blitWith_stackSame h
  | update id =>
    simp only [exec, execUpdate] at h
    split at h
    · cases h
      exact ⟨rfl, rfl⟩
    · split at h <;> cases h
      · exact ⟨rfl, rfl⟩
      · exact loadMemoryEntry_stackSame ..
  | spoly | bpoly => exact drawShape_stackSame h

/-! `call` and `ret` that take no fault. -/

theorem exec_call_of_noFault {target : Word} {s t : State} (h : exec (.call target) s = .next t) (noFault : t.fault = none) :
    ∃ room : s.sp.toNat < 255, t = { s with stack := s.stack.set s.sp.toNat s.pc room, sp := s.sp + 1, pc := target } := by
  simp only [exec, execCall] at h
  split at h
  next room =>
    cases h
    exact ⟨room, rfl⟩
  next =>
    cases h
    cases noFault

theorem exec_ret_of_noFault {s t : State} (h : exec .ret s = .next t) (noFault : t.fault = none) :
    ∃ top : Fin 255, s.sp.toNat = top.val + 1 ∧ t = { s with sp := s.sp - 1, pc := s.stack[top] } := by
  simp only [exec, execRet] at h
  split at h
  next =>
    cases h
    cases noFault
  next held =>
    cases h
    have := s.sp.isLt
    exact ⟨⟨s.sp.toNat - 1, by omega⟩, by simp only; omega, rfl⟩

/-! Runs. -/

/-- A run is the meaning of its instruction in the state past the instruction's bytes (47_scheduler.md R255). -/
theorem Runs.exec_fetched {s t : State} {i : Instr} {n : Nat} (run : Runs s i n t) : exec i (fetched s n) = .next t := by
  have hlen : s.seg.bytecode.len ≤ 0xFFFF := by simpa [bytecodeTooLong] using run.fits
  rw [← executeOne_of_decode hlen run.decodes, ← step_slice run.running run.inSlice run.noYield, run.next]

/-- A `call` that runs pushes the offset after itself (R131). -/
theorem Runs.call_pushes {s u : State} {target : Word} {m : Nat} (enter : Runs s (.call target) m u) :
    ∃ room : s.sp.toNat < 255,
      u.sp = s.sp + 1 ∧ u.stack = s.stack.set s.sp.toNat (s.pc + BitVec.ofNat 16 m) room := by
  obtain ⟨room, rfl⟩ := exec_call_of_noFault enter.exec_fetched enter.noFault
  exact ⟨room, rfl, rfl⟩

/-- A `ret` that runs takes the last entry off the stack and goes there (R133). -/
theorem Runs.ret_pops {w x : State} {n : Nat} (leave : Runs w .ret n x) :
    ∃ top : Fin 255, w.sp.toNat = top.val + 1 ∧ x.pc = w.stack[top] ∧ x.sp = w.sp - 1 ∧ x.stack = w.stack := by
  obtain ⟨top, htop, rfl⟩ := exec_ret_of_noFault leave.exec_fetched leave.noFault
  exact ⟨top, htop, rfl, rfl, rfl⟩

/-- What a balanced run keeps of the stack: `SP`, and the entries held where it starts. The entries above them are those
that its own subroutines push. -/
def HeldSame (s t : State) : Prop := t.sp = s.sp ∧ ∀ j : Fin 255, j.val < s.sp.toNat → t.stack[j] = s.stack[j]

theorem HeldSame.refl (s : State) : HeldSame s s := ⟨rfl, fun _ _ => rfl⟩

theorem HeldSame.trans {s t u : State} (h : HeldSame s t) (k : HeldSame t u) : HeldSame s u := by
  obtain ⟨hsp, hstack⟩ := h
  obtain ⟨ksp, kstack⟩ := k
  exact ⟨ksp.trans hsp, fun j hj => (kstack j (hsp ▸ hj)).trans (hstack j hj)⟩

theorem Runs.heldSame {s t : State} {i : Instr} {n : Nat} (run : Runs s i n t) (keeps : keepsStack i) : HeldSame s t := by
  obtain ⟨hsp, hstack⟩ := exec_stackSame keeps run.exec_fetched
  exact ⟨hsp, fun j _ => by rw [hstack, fetched_stack]⟩

/-- The entry that a `call` pushes is among those held in its body, so the `ret` finds there the offset after the `call`,
and leaves held what was held before the `call`. -/
theorem subroutine_returns {s u w x : State} {target : Word} {m n : Nat} (enter : Runs s (.call target) m u)
    (body : HeldSame u w) (leave : Runs w .ret n x) : x.pc = s.pc + BitVec.ofNat 16 m ∧ HeldSame s x := by
  obtain ⟨room, enterSp, enterStack⟩ := enter.call_pushes
  obtain ⟨top, atTop, leavePc, leaveSp, leaveStack⟩ := leave.ret_pops
  obtain ⟨bodySp, bodyStack⟩ := body
  have pushed : u.sp.toNat = s.sp.toNat + 1 := by bv_omega
  have returnsTo : top.val = s.sp.toNat := by bv_omega
  refine ⟨?returnAddress, ?sp, fun j hj => ?entries⟩
  case returnAddress =>
    rw [leavePc, bodyStack top (by omega)]
    simp [enterStack, returnsTo]
  case sp => simp [leaveSp, bodySp, enterSp]
  case entries =>
    rw [leaveStack, bodyStack j (by omega)]
    simp [enterStack, show s.sp.toNat ≠ j.val by omega]

theorem Balanced.heldSame {s t : State} (h : Balanced s t) : HeldSame s t := by
  induction h with
  | nothing s => exact .refl s
  | plain _ run keeps before => exact before.trans (run.heldSame keeps)
  | subroutine _ enter _ leave before body => exact before.trans (subroutine_returns enter body leave).2

/-- Settles O17: the body is balanced, so it keeps the entry that the `call` has pushed (`Balanced.heldSame`). -/
theorem callRetRoundTrip : Obligations.CallRetRoundTrip := by
  intro s u w x target m n enter body leave
  obtain ⟨hpc, hsp, _⟩ := subroutine_returns enter body.heldSame leave
  exact ⟨hpc, hsp⟩

end Sys2Proof.Machine

/-! `cond_jmp`: the operand of each form as a signed integer (41_control_transfer.md R139, R140). -/

namespace Sys2Proof.Machine

/-- The 8-bit immediate is an operand from 0 to 255 (R139). -/
theorem zext16_toInt (b : Byte) : (zext16 b).toInt = (b.toNat : Int) := by
  have := b.isLt
  rw [BitVec.toInt_eq_toNat_of_lt] <;> simp [zext16] <;> omega

/-- Settles O20: each form is `condJump` on an operand word, whose comparison `compareSigned_iff` reads in integers. -/
theorem condJmpCompletes : Obligations.CondJmpCompletes := by
  intro i cc a target s operand form
  obtain ⟨w, rfl, hexec⟩ : ∃ w : Word, operand = w.toInt ∧ exec i s = .next (condJump s cc (getVar s a) w target) := by
    rcases form with ⟨b, rfl, rfl⟩ | ⟨imm, rfl, rfl⟩ | ⟨imm, rfl, rfl⟩
    case inl => exact ⟨getVar s b, rfl, rfl⟩
    case inr.inl => exact ⟨imm, rfl, rfl⟩
    case inr.inr => exact ⟨zext16 imm, (zext16_toInt imm).symm, rfl⟩
  refine ⟨_, hexec, ?_, fun _ => by rw [condJump_state]⟩
  simp only [condJump_state, compareSigned_iff, comparator_eq]

end Sys2Proof.Machine

/-! Page ids: what each of the four ranges of `ResolvePage` answers (43_video_page.md R161). -/

namespace Sys2Proof.Machine

theorem resolvePage_of_page (s : State) {id : Byte} {p : Fin 4} (h : id.toNat = p.val) : resolvePage s id = (p, s) := by
  have hlt : id.toNat < 4 := h ▸ p.isLt
  rw [resolvePage, dif_pos hlt]
  simp only [h]

theorem resolvePage_alias2 (s : State) : resolvePage s 0xFE = (s.ptr2, s) := rfl

theorem resolvePage_alias3 (s : State) : resolvePage s 0xFF = (s.ptr3, s) := rfl

theorem resolvePage_of_invalid (s : State) {id : Byte} (hpages : 4 ≤ id.toNat) (haliases : id.toNat < 0xFE) :
    resolvePage s id = (0, logSoft s (.badPageId s.insnPc id)) := by
  have hpage : ¬ id.toNat < 4 := by omega
  have h2 : id ≠ Config.pageAlias2 := by rintro rfl; exact absurd haliases (by decide)
  have h3 : id ≠ Config.pageAlias3 := by rintro rfl; exact absurd haliases (by decide)
  simp only [resolvePage, dif_neg hpage, if_neg h2, if_neg h3]

/-- Settles O24: one equation of `resolvePage` for each range of ids. -/
theorem resolvePageTable : Obligations.ResolvePageTable := by
  intro s id
  refine ⟨fun p => resolvePage_of_page s, ?alias2, ?alias3, resolvePage_of_invalid s⟩
  case alias2 => rintro rfl; exact resolvePage_alias2 s
  case alias3 => rintro rfl; exact resolvePage_alias3 s

end Sys2Proof.Machine

/-! `Pace()`: the host calls of a frame that comes early and of one that does not (43_video_page.md R177). -/

namespace Sys2Proof.Machine

/-- The sleep asked for is what the budget leaves over, in whole numbers: a clock gone backwards has none elapsed. -/
theorem sleepTime_eq (s : State) (now : Nat) :
    sleepTime s now =
      ((getVar s 0xFF).toInt * 20 - ((if s.lastTs ≤ now then now - s.lastTs else 0 : Nat) : Int)).toNat := by
  have helapsed : now - s.lastTs = if s.lastTs ≤ now then now - s.lastTs else 0 := by split <;> omega
  rw [← helapsed]
  rfl

theorem paceCalls_of_sleep {clock : Nat → Nat} {s : State} (h : 0 < sleepTime s (clock s.hostTick)) :
    paceCalls clock s = [.getTimestamp, .sleep (sleepTime s (clock s.hostTick)), .getTimestamp] := by
  simp only [paceCalls, if_pos h, List.cons_append, List.nil_append]

theorem paceCalls_of_no_sleep {clock : Nat → Nat} {s : State} (h : sleepTime s (clock s.hostTick) = 0) :
    paceCalls clock s = [.getTimestamp, .getTimestamp] := by
  simp only [paceCalls, h, Nat.lt_irrefl, if_false, List.nil_append]

/-- Settles O29: the sleep time of `sleepTime_eq` is positive exactly when the budget is above the time elapsed. -/
theorem paceRule : Obligations.PaceRule := by
  rintro clock s now elapsed budget rfl helapsed hbudget
  have hsleep : sleepTime s (clock s.hostTick) = (budget - (elapsed : Int)).toNat := by
    rw [sleepTime_eq, helapsed, hbudget]
  refine ⟨fun early => ?early, fun late => ?late⟩
  case early =>
    have hpos : 0 < sleepTime s (clock s.hostTick) := by omega
    exact ⟨sleepTime s (clock s.hostTick), hpos, by omega, by rw [pace_state, paceCalls_of_sleep hpos]⟩
  case late => rw [pace_state, paceCalls_of_no_sleep (by omega)]

end Sys2Proof.Machine

/-! `blit`: the palette a load leaves behind, as the readable bytes laid over the palette before it, and the steps of the
instruction (43_video_page.md R176, R178). -/

namespace Sys2Proof.Machine

/-- The palette `pal` with the bytes `bs` laid over it from index `i` on. -/
def overlay (pal : Vector Byte 32) (i : Nat) (bs : List Byte) : Vector Byte 32 :=
  Vector.ofFn fun j => if i ≤ j.val ∧ j.val < i + bs.length then bs.getD (j.val - i) 0 else pal[j]

theorem overlay_getElem (pal : Vector Byte 32) (i : Nat) (bs : List Byte) {j : Nat} (hj : j < 32) :
    (overlay pal i bs)[j] = if i ≤ j ∧ j < i + bs.length then bs.getD (j - i) 0 else pal[j] := by
  rw [overlay, Vector.getElem_ofFn]
  rfl

theorem overlay_nil (pal : Vector Byte 32) (i : Nat) : overlay pal i [] = pal := by
  refine Vector.ext fun j hj => ?_
  rw [overlay_getElem, if_neg (by simp)]

/-- Writing the first byte and then laying the others over is laying all of them over: one turn of the loop (R178). -/
theorem overlay_set (pal : Vector Byte 32) {i : Nat} (hi : i < 32) (b : Byte) (bs : List Byte) :
    overlay (pal.set i b) (i + 1) bs = overlay pal i (b :: bs) := by
  refine Vector.ext fun j hj => ?_
  rw [overlay_getElem, overlay_getElem, List.length_cons, Vector.getElem_set]
  rcases lt_trichotomy j i with before | rfl | after
  · rw [if_neg (by omega), if_neg (by omega), if_neg (by omega)]
  · rw [if_neg (by omega), if_pos rfl, if_pos (by omega), Nat.sub_self, List.getD_cons_zero]
  · have hsub : j - i = j - (i + 1) + 1 := by omega
    rw [if_neg (by omega : ¬ i = j), hsub, List.getD_cons_succ]
    exact if_congr (by omega) rfl rfl

/-- A whole palette laid over is that palette. -/
theorem overlay_toList (old pal : Vector Byte 32) : overlay old 0 pal.toList = pal := by
  refine Vector.ext fun j hj => ?_
  rw [overlay_getElem, if_pos (by simpa using hj)]
  simp [hj]

/-- The state in which the readable ones of the `n` palette bytes from index `i` on are written to `CUR_PAL`. -/
def paletteRead (s : State) (i n : Nat) : State :=
  { s with curPal := overlay s.curPal i (window s .palette (32 * s.reqPal.toNat + i) n) }

@[simp] theorem paletteRead_mem (s : State) (i n : Nat) : (paletteRead s i n).mem = s.mem := by simp only [paletteRead]
@[simp] theorem paletteRead_curPal (s : State) (i n : Nat) :
    (paletteRead s i n).curPal = overlay s.curPal i (window s .palette (32 * s.reqPal.toNat + i) n) := rfl

/-- The bytes a segment shows do not depend on `CUR_PAL`. -/
theorem window_curPal (s : State) (pal : Vector Byte 32) (g : Segment) (off n : Nat) :
    window { s with curPal := pal } g off n = window s g off n :=
  window_congr (s := s) (s' := { s with curPal := pal }) g rfl rfl rfl off n

/-- One turn of the loop with its byte readable, in terms of what the loop has read at its end. -/
theorem paletteRead_succ {s : State} {i n : Nat} {b : Byte} (hi : i < 32)
    (hread : segRead8 s .palette (32 * s.reqPal.toNat + i) = .ok b) :
    paletteRead { s with curPal := s.curPal.set i b } (i + 1) n = paletteRead s i (n + 1) := by
  simp only [paletteRead, window_curPal, window, hread, ← overlay_set _ hi, Nat.add_assoc]

/-- The loop of `ApplyPalette()` writes the readable bytes and takes `SEGMENT_BOUNDS` at the first that is not (R178). -/
theorem loadPalette_eq (s : State) {i n : Nat} (hin : i + n = 32) :
    loadPalette s n =
      if (window s .palette (32 * s.reqPal.toNat + i) n).length = n then .ok (paletteRead s i n)
      else .error (raise (paletteRead s i n)
        (.segmentBounds .palette
          (32 * s.reqPal.toNat + i + (window s .palette (32 * s.reqPal.toNat + i) n).length))) := by
  induction n generalizing s i with
  | zero => simp [loadPalette, paletteRead, overlay_nil]
  | succ n ih =>
    obtain rfl : i = 31 - n := by omega
    rcases segRead8_cases s .palette (32 * s.reqPal.toNat + (31 - n)) with ⟨_, hread⟩ | ⟨_, hread⟩
    case inl =>
      simp only [loadPalette, hread]
      rw [ih _ (i := 31 - n + 1) (by omega), paletteRead_succ (by omega) hread]
      simp only [window_curPal, window, hread, List.length_cons, Nat.add_right_cancel_iff, ← Nat.add_assoc,
        Nat.add_right_comm _ 1]
    case inr => simp [loadPalette, paletteRead, overlay_nil, window, hread]

theorem applyPalette_of_none {s : State} (h : s.reqPal = 0xFF) : applyPalette s = .ok s := by
  rw [applyPalette, if_pos h]

/-- A pending palette all of whose bytes are readable is loaded, handed over, and no longer pending. -/
theorem applyPalette_of_window {s : State} {pal : Vector Byte 32} (h : s.reqPal ≠ 0xFF)
    (hpal : window s .palette (32 * s.reqPal.toNat) 32 = pal.toList) :
    applyPalette s = .ok { s with curPal := pal, reqPal := 0xFF, calls := s.calls ++ [.setPalette pal] } := by
  have hload : loadPalette s 32 = .ok { s with curPal := pal } := by
    rw [loadPalette_eq s (Nat.zero_add 32), paletteRead, Nat.add_zero, hpal, overlay_toList, if_pos (by simp)]
  rw [applyPalette, if_neg h, hload]
  rfl

/-- A pending palette cut short is loaded as far as it is readable, and the first byte out of bounds faults. -/
theorem applyPalette_of_short_window {s : State} (h : s.reqPal ≠ 0xFF)
    (hshort : (window s .palette (32 * s.reqPal.toNat) 32).length < 32) :
    applyPalette s = .error (raise (paletteRead s 0 32)
      (.segmentBounds .palette (32 * s.reqPal.toNat + (window s .palette (32 * s.reqPal.toNat) 32).length))) := by
  rw [applyPalette, if_neg h, loadPalette_eq s (Nat.zero_add 32), Nat.add_zero, if_neg (by omega)]

/-- The first two steps of `blit` change `LAST_TS`, the aliases, the log and the record of host calls alone. -/
theorem updateAliases_pace_state (clock : Nat → Nat) (id : Byte) {s a : State}
    (ha : a = updateAliases id (pace clock s)) :
    a = { s with
      lastTs := a.lastTs, hostTick := a.hostTick, calls := a.calls, ptr2 := a.ptr2, ptr3 := a.ptr3, log := a.log } := by
  rw [ha, updateAliases_state]
  rfl

/-- Without a fault the draw target is presented (R176). -/
theorem exec_blit_of_ok {id : Byte} {s a t : State} (ha : a = updateAliases id (pace Config.timestamp s))
    (h : applyPalette a = .ok t) : exec (.blit id) s = .next (presentPage t) := by
  simp only [exec, execBlit, blitWith, ← ha, h, settle]

/-- A fault in the palette load ends `blit` (60_exceptions.md R275). -/
theorem exec_blit_of_error {id : Byte} {s a t : State} (ha : a = updateAliases id (pace Config.timestamp s))
    (h : applyPalette a = .error t) : exec (.blit id) s = .next t := by
  simp only [exec, execBlit, blitWith, ← ha, h, settle]

/-- Settles O31: the palette bytes readable after pacing and the aliases are those readable before, and decide which of
the three outcomes of `applyPalette` the instruction ends in. -/
theorem blitCompletes : Obligations.BlitCompletes := by
  intro id s a ha
  have hframe := updateAliases_pace_state Config.timestamp id ha
  have hreq : a.reqPal = s.reqPal := by rw [hframe]
  have hmem : a.mem = s.mem := by rw [hframe]
  have hwindow : window a .palette (32 * a.reqPal.toNat) 32 = window s .palette (32 * s.reqPal.toNat) 32 := by
    rw [hreq]
    exact window_congr .palette hmem (by rw [hframe]) (by rw [hframe]) _ _
  refine ⟨hframe, fun hnone => ?nonePending, fun hpending pal hpal => ?loaded, fun hpending k hk hlen => ?cutShort⟩
  case nonePending =>
    exact ⟨_, exec_blit_of_ok ha (applyPalette_of_none (hreq.trans hnone)), by simp only [presentPage, output],
      fun _ => by rw [presentPage_mem, hmem]⟩
  case loaded =>
    refine ⟨_, exec_blit_of_ok ha (applyPalette_of_window (hreq ▸ hpending) (hwindow.trans hpal)), ?_,
      fun _ => by rw [presentPage_mem, hmem]⟩
    simp only [presentPage, output, List.append_assoc, List.cons_append, List.nil_append]
  case cutShort =>
    have hfault := applyPalette_of_short_window (hreq ▸ hpending) (by rw [hwindow, hlen]; exact hk)
    rw [hwindow, hlen, hreq] at hfault
    refine ⟨_, exec_blit_of_error ha hfault, ?state, fun j => ?palette, fun _ => ?arena⟩
    case state =>
      have hinsn : a.insnPc = s.insnPc := by rw [hframe]
      have hthread : a.curThr = s.curThr := by rw [hframe]
      simp only [raise, paletteRead, hinsn, hthread]
    case palette =>
      have hold : a.curPal = s.curPal := by rw [hframe]
      simp only [raise_curPal, paletteRead_curPal, Nat.add_zero, hwindow, hold, Fin.getElem_fin, overlay_getElem, hlen,
        Nat.zero_le, true_and, Nat.zero_add, Nat.sub_zero]
    case arena => rw [raise_mem, paletteRead_mem, hmem]

end Sys2Proof.Machine

/-! Scaling of a record's bytes (46_polygon_rasterizer.md R214). -/

namespace Sys2Proof.Machine

theorem scale_toNat (b : Byte) (zoom : Word) : (scale b zoom).toNat = b.toNat * zoom.toNat / 64 % 65536 := rfl

/-- Zoom 64 is 1:1 (R214). -/
theorem scale_zoomUnit (b : Byte) : (scale b 64).toNat = b.toNat := by
  have one : b.toNat * (64 : Word).toNat / 64 = b.toNat := Nat.mul_div_cancel _ (by decide)
  rw [scale_toNat, one]
  exact Nat.mod_eq_of_lt (by omega)

/-- Settles O44: `scale_toNat` at the zooms named. Zoom 8224 is the greatest at which 255, the greatest byte, stays below
32768. -/
theorem scaleValue : Obligations.ScaleValue := by
  intro b zoom
  refine ⟨scale_toNat b zoom, ?identity, ?zero, fun small => ?small, fun large => ⟨255, ?large⟩⟩
  case identity =>
    rintro rfl
    exact scale_zoomUnit b
  case zero =>
    rintro rfl
    exact BitVec.eq_of_toNat_eq (by simp [scale_toNat])
  case small =>
    have product : b.toNat * zoom.toNat ≤ 255 * 8224 := Nat.mul_le_mul (by omega) small
    rw [scale_toNat]
    omega
  case large =>
    have greatest : (255 : Byte).toNat = 255 := rfl
    rw [greatest]
    omega

end Sys2Proof.Machine

/-! Painting a set of pixels: the effect that pixels, runs, spans and rows of the edge walk have in common, and what a
pixel and a span paint (46_polygon_rasterizer.md R225, R226). -/

namespace Sys2Proof.Machine

/-- From `a` to `b` by painting the pixels `S` of the page `dst` in `colour`; every other pixel of every page is kept. -/
def Paints (dst : Fin 4) (colour : Byte) (S : Nat → Nat → Prop) (a b : Pages) : Prop :=
  ∀ (q : Fin 4) (x y : Nat), x < 320 → y < 200 →
    (q = dst ∧ S x y → b[q].pixel x y = paint colour (a[dst].pixel x y) (a[(0 : Fin 4)].pixel x y)) ∧
    (¬ (q = dst ∧ S x y) → b[q].pixel x y = a[q].pixel x y)

/-- The effect as one equation, in the form of the statements about pixels. -/
theorem Paints.pixel_eq {dst : Fin 4} {colour : Byte} {S : Nat → Nat → Prop} {a b : Pages} (h : Paints dst colour S a b)
    (q : Fin 4) {x y : Nat} (hx : x < 320) (hy : y < 200) {p : Prop} [Decidable p] (hp : p ↔ q = dst ∧ S x y) :
    b[q].pixel x y =
      if p then paint colour (a[dst].pixel x y) (a[(0 : Fin 4)].pixel x y) else a[q].pixel x y := by
  by_cases painted : p
  · rw [if_pos painted, (h q x y hx hy).1 (hp.1 painted)]
  · rw [if_neg painted, (h q x y hx hy).2 (mt hp.2 painted)]

/-- Only the pixels on the page count. -/
theorem Paints.congr {dst : Fin 4} {colour : Byte} {S T : Nat → Nat → Prop} {a b : Pages} (h : Paints dst colour S a b)
    (hST : ∀ x y, x < 320 → y < 200 → (S x y ↔ T x y)) : Paints dst colour T a b := by
  intro q x y hx hy
  rw [← hST x y hx hy]
  exact h q x y hx hy

theorem Paints.none {dst : Fin 4} {colour : Byte} {S : Nat → Nat → Prop} (a : Pages)
    (empty : ∀ x y, x < 320 → y < 200 → ¬ S x y) : Paints dst colour S a a :=
  fun _ x y hx hy => ⟨fun h => absurd h.2 (empty x y hx hy), fun _ => rfl⟩

/-- Painting a pixel a second time leaves it as it is, also where the page painted on is page 0 (R226). -/
theorem paint_paint (colour : Byte) (old page0 : BitVec 4) {page0' : BitVec 4}
    (h : page0' = page0 ∨ page0' = paint colour old page0) :
    paint colour (paint colour old page0) page0' = paint colour old page0 := by
  unfold paint at h ⊢
  split_ifs at h ⊢
  case pos => rfl
  case pos => rw [BitVec.or_assoc, BitVec.or_self]
  case neg => exact h.elim id id

/-- Painting twice is painting all of it; where the two overlap, `paint_paint`. -/
theorem Paints.trans {dst : Fin 4} {colour : Byte} {S T : Nat → Nat → Prop} {a b c : Pages} (h : Paints dst colour S a b)
    (k : Paints dst colour T b c) : Paints dst colour (fun x y => S x y ∨ T x y) a c := by
  intro q x y hx hy
  obtain ⟨again, kept⟩ := k q x y hx hy
  refine ⟨fun ⟨target, covered⟩ => ?painted, fun uncovered => ?other⟩
  case painted =>
    subst target
    by_cases first : S x y
    · have old := (h q x y hx hy).1 ⟨rfl, first⟩
      by_cases second : T x y
      · have page0 : b[(0 : Fin 4)].pixel x y = a[(0 : Fin 4)].pixel x y ∨
            b[(0 : Fin 4)].pixel x y = paint colour (a[q].pixel x y) (a[(0 : Fin 4)].pixel x y) := by
          by_cases zero : 0 = q
          · exact .inr ((h 0 x y hx hy).1 ⟨zero, first⟩)
          · exact .inl ((h 0 x y hx hy).2 fun e => zero e.1)
        rw [again ⟨rfl, second⟩, old, paint_paint _ _ _ page0]
      · rw [kept fun e => second e.2, old]
    · have same : ∀ p : Fin 4, b[p].pixel x y = a[p].pixel x y := fun p => (h p x y hx hy).2 fun e => first e.2
      rw [again ⟨rfl, covered.resolve_left first⟩, same, same]
  case other =>
    rw [kept fun e => uncovered ⟨e.1, .inr e.2⟩, (h q x y hx hy).2 fun e => uncovered ⟨e.1, .inl e.2⟩]

/-- `PutPixel` is one pixel write on the draw target (R226). -/
theorem putPixel_target (pages : Pages) (dst : Fin 4) (x y : Nat) (colour : Byte) :
    (putPixel pages dst x y colour)[dst] =
      pages[dst].setPixel x y (paint colour (pages[dst].pixel x y) (pages[(0 : Fin 4)].pixel x y)) := by
  simp only [putPixel, paint, Fin.getElem_fin, Vector.getElem_set_self]

theorem putPixel_paints (pages : Pages) (dst : Fin 4) (colour : Byte) {x y : Nat} (hx : x < 320) (hy : y < 200) :
    Paints dst colour (fun x' y' => x' = x ∧ y' = y) pages (putPixel pages dst x y colour) := by
  intro q x' y' hx' hy'
  by_cases target : q = dst
  · subst target
    rw [putPixel_target, pixel_setPixel _ _ hx hy hx' hy']
    refine ⟨fun ⟨_, hx, hy⟩ => ?_, fun other => if_neg fun here => other ⟨rfl, here⟩⟩
    subst hx hy
    exact if_pos ⟨rfl, rfl⟩
  · exact ⟨fun here => absurd here.1 target, fun _ => by rw [putPixel_others pages dst x y colour q target]⟩

/-- Settles O40: the three rows of R226 are those of `paint`. -/
theorem putPixelPaints : Obligations.PutPixelPaints := by
  intro pages dst q x y x' y' colour hx hy hx' hy'
  by_cases here : x' = x ∧ y' = y
  · obtain ⟨rfl, rfl⟩ := here
    exact (putPixel_paints pages dst colour hx hy).pixel_eq q hx' hy' Iff.rfl
  · rw [if_neg fun h => here h.2, ((putPixel_paints pages dst colour hx hy) q x' y' hx' hy').2 fun h => here h.2]

theorem putRun_paints (pages : Pages) (dst : Fin 4) (colour : Byte) {x0 row n : Nat} (hrun : x0 + n ≤ 320)
    (hrow : row < 200) :
    Paints dst colour (fun x y => y = row ∧ x0 ≤ x ∧ x < x0 + n) pages (putRun pages dst x0 row colour n) := by
  induction n generalizing pages x0 with
  | zero => exact .none pages (by omega)
  | succ n ih =>
    exact ((putPixel_paints pages dst colour (by omega) hrow).trans (ih _ (by omega))).congr (by omega)

theorem span_paints (pages : Pages) (dst : Fin 4) (colour : Byte) (x1 x2 : Int) {row : Nat} (hrow : row < 200) :
    Paints dst colour (fun x y => y = row ∧ spanCovers x1 x2 x) pages (span pages dst row x1 x2 colour) := by
  unfold spanCovers
  by_cases drawn : x1 ≤ 319 ∧ 0 ≤ x2
  · have left : (if x1 < 0 then 0 else x1) = max x1 0 := by omega
    have right : (if x2 > 319 then 319 else x2) = min x2 319 := by omega
    simp only [span, if_pos drawn, left, right]
    exact (putRun_paints pages dst colour (by omega) hrow).congr (by omega)
  · rw [span, if_neg drawn]
    exact .none pages fun x y _ _ ⟨_, hl, hr, _⟩ => drawn ⟨hl, hr⟩

/-- Settles O41: `span_paints` with `spanCovers` written out. -/
theorem spanPaintsItsRun : Obligations.SpanPaintsItsRun := by
  intro pages dst q row x y x1 x2 colour hrow hx hy
  exact (span_paints pages dst colour x1 x2 hrow).pixel_eq q hx hy Iff.rfl

end Sys2Proof.Machine

/-! The rectangle property (46_polygon_rasterizer.md R229): what a readable direct record draws, and what the edge walk
paints between two vertical edges. -/

namespace Sys2Proof.Machine

theorem readVertices_of_window {s : State} {g : Segment} (zoom : Word) {dp : Nat} {w h n : Byte} {body : List Byte}
    (hrec : window s g dp (3 + 2 * n.toNat) = w :: h :: n :: body) (hbody : body.length = 2 * n.toNat)
    (heven : n.toNat % 2 = 0) (hmax : n.toNat < 50) :
    readVertices s g zoom dp =
      .ok { bbw := scale w zoom, bbh := scale h zoom, pts := recordPoints zoom n.toNat body } := by
  obtain ⟨hw, afterWidth⟩ := polyByte_of_window hrec
  obtain ⟨hh, afterHeight⟩ := polyByte_of_window afterWidth
  obtain ⟨hn, afterCount⟩ := polyByte_of_window afterHeight
  have legal : ¬ (n.toNat % 2 = 1 ∨ Config.maxPoints ≤ n.toNat) := by
    simp only [Config.maxPoints]
    omega
  have points : readPoints s g zoom (dp + 1 + 1 + 1) n.toNat = .ok (recordPoints zoom n.toNat body) :=
    readPoints_of_window zoom (by rw [← afterCount]; congr 1; omega) hbody
  simp only [readVertices, hw, hh, hn, bind, Except.bind, legal, if_false, points, pure, Except.pure]

/-- A readable direct record is filled on the draw target, whatever hierarchies are open (R212, R215). -/
theorem readAndDraw_of_direct {s : State} {g : Segment} (zoom x y : Word) (depth : Nat) (colour : Byte) {dp : Nat}
    {disc w h n : Byte} {body : List Byte} (hrec : window s g dp (4 + 2 * n.toNat) = disc :: w :: h :: n :: body)
    (hbody : body.length = 2 * n.toNat) (hdirect : 0xC0 ≤ disc.toNat) (heven : n.toNat % 2 = 0) (hmax : n.toNat < 50) :
    readAndDraw g zoom depth s colour x y dp = .ok { s with
      pages := fillPolygon s.pages s.ptr1
        { bbw := scale w zoom, bbh := scale h zoom, pts := recordPoints zoom n.toNat body } (recordColour colour disc) x y } := by
  obtain ⟨hdisc, afterDisc⟩ := polyByte_of_window hrec
  have vertices := readVertices_of_window (s := s) (g := g) (dp := dp + 1) zoom
    (by rw [← afterDisc]; congr 1; omega) hbody heven hmax
  have direct : Config.polyDirectMin.toNat ≤ disc.toNat := hdirect
  rw [readAndDraw]
  simp only [hdisc, direct, if_true, vertices]

/-- The walk after one row (R221): its span is painted where the row lies on the page, not where it lies above. -/
def Walk.advance (dst : Fin 4) (colour : Byte) (stepl stepr : Acc) (w : Walk) : Walk :=
  { pages := if 0 ≤ w.row then span w.pages dst w.row.toNat (accX w.cl) (accX w.cr) colour else w.pages
    row := w.row + 1
    cl := w.cl + stepl
    cr := w.cr + stepr }

@[simp] theorem advance_row (dst : Fin 4) (colour : Byte) (stepl stepr : Acc) (w : Walk) :
    (w.advance dst colour stepl stepr).row = w.row + 1 := rfl
@[simp] theorem advance_cl (dst : Fin 4) (colour : Byte) (stepl stepr : Acc) (w : Walk) :
    (w.advance dst colour stepl stepr).cl = w.cl + stepl := rfl
@[simp] theorem advance_cr (dst : Fin 4) (colour : Byte) (stepl stepr : Acc) (w : Walk) :
    (w.advance dst colour stepl stepr).cr = w.cr + stepr := rfl

/-- The walk stops as soon as the row passes the bottom of the page (R221). -/
theorem walkRows_succ (dst : Fin 4) (colour : Byte) (stepl stepr : Acc) (n : Nat) (w : Walk) :
    walkRows dst colour stepl stepr (n + 1) w =
      if 199 < w.row + 1 then (w.advance dst colour stepl stepr, true)
      else walkRows dst colour stepl stepr n (w.advance dst colour stepl stepr) := rfl

theorem advance_paints (dst : Fin 4) (colour : Byte) (stepl stepr : Acc) {w : Walk} (hrow : w.row ≤ 199) :
    Paints dst colour (fun x y => (y : Int) = w.row ∧ spanCovers (accX w.cl) (accX w.cr) x) w.pages
      (w.advance dst colour stepl stepr).pages := by
  rw [Walk.advance]
  dsimp only
  split
  next onPage =>
    refine (span_paints w.pages dst colour _ _ (by omega)).congr fun x y _ _ => ?_
    exact and_congr_left' (by omega)
  next above => exact .none _ fun x y _ _ covered => above (by omega)

/-- Between two vertical edges every row of the walk that lies on the page is one and the same span (R221). -/
theorem walkRows_vertical_paints (dst : Fin 4) (colour : Byte) (n : Nat) {w : Walk} {l r : Int} (hl : accX w.cl = l)
    (hr : accX w.cr = r) (hrow : w.row ≤ 199) :
    Paints dst colour (fun x y => w.row ≤ (y : Int) ∧ (y : Int) < w.row + n ∧ spanCovers l r x) w.pages
      (walkRows dst colour 0 0 n w).1.pages := by
  induction n generalizing w with
  | zero => exact .none _ (by omega)
  | succ n ih =>
    have left : accX (w.advance dst colour 0 0).cl = l := by rw [advance_cl, add_zero, hl]
    have right : accX (w.advance dst colour 0 0).cr = r := by rw [advance_cr, add_zero, hr]
    have first := advance_paints dst colour 0 0 hrow
    rw [hl, hr] at first
    rw [walkRows_succ]
    split
    next bottom => exact first.congr fun x y _ _ => by grind
    next more =>
      have rest := ih left right (by rw [advance_row]; omega)
      rw [advance_row] at rest
      exact (first.trans rest).congr fun x y _ _ => by grind

/-- The walk with the fractions that every segment reloads, so that the two edges round outwards (R221, R223). -/
def Walk.reload (w : Walk) : Walk :=
  { w with cl := (w.cl &&& 0xFFFF0000) ||| 0x7FFF, cr := (w.cr &&& 0xFFFF0000) ||| 0x8000 }

/-- The rows of one segment pair, from `here` to `next` on the two edges (R221). -/
def walkSegment (dst : Fin 4) (colour : Byte) (here next : Point × Point) (w : Walk) : Walk × Bool :=
  walkRows dst colour (edgeStep here.2 next.2) (edgeStep here.1 next.1) (next.1.2 - here.1.2).toNat w.reload

/-- One segment pair of the edge walk, then the rest, unless the bottom of the page has been passed (R221). -/
theorem edgeWalk_cons (dst : Fin 4) (colour : Byte) (here next : Point × Point) (rest : List (Point × Point)) (w : Walk) :
    edgeWalk dst colour here (next :: rest) w =
      if next.1.2 - here.1.2 = 0 then
        edgeWalk dst colour next rest { w.reload with
          cl := w.reload.cl + edgeStep here.2 next.2, cr := w.reload.cr + edgeStep here.1 next.1 }
      else if (walkSegment dst colour here next w).2 then (walkSegment dst colour here next w).1.pages
      else edgeWalk dst colour next rest (walkSegment dst colour here next w).1 := by
  rw [edgeWalk]
  refine if_congr Iff.rfl rfl ?_
  split <;> next rows =>
    simp only [walkSegment, Walk.reload, rows, if_true, Bool.false_eq_true, if_false]

/-- An edge walk of one segment pair paints the rows of that pair alone (R221). -/
theorem edgeWalk_single (dst : Fin 4) (colour : Byte) (here next : Point × Point) (w : Walk)
    (h : next.1.2 - here.1.2 ≠ 0) :
    edgeWalk dst colour here [next] w = (walkSegment dst colour here next w).1.pages := by
  rw [edgeWalk_cons, if_neg h]
  exact ite_self _

/-- A polygon of four points or more whose box reaches the page is filled by the edge walk (R218). -/
theorem fillPolygon_of_pairs (pages : Pages) (dst : Fin 4) (colour : Byte) {p : Polygon} {ax ay : Word}
    {first next : Point × Point} {rest : List (Point × Point)} (area : ¬ (p.bbw = 0 ∨ p.bbh = 0))
    (reaches : ¬ ((319 : Int) < (ax - p.bbw >>> 1).toInt ∨ (ax + p.bbw >>> 1).toInt < 0 ∨
      (199 : Int) < (ay - p.bbh >>> 1).toInt ∨ (ay + p.bbh >>> 1).toInt < 0)) (pairs : edgePairs p.pts = first :: next :: rest) :
    fillPolygon pages dst p colour ax ay = edgeWalk dst colour first (next :: rest)
      { pages := pages
        row := (ay - p.bbh >>> 1).toInt
        cl := accOf (first.2.1 + (ax - p.bbw >>> 1))
        cr := accOf (first.1.1 + (ax - p.bbw >>> 1)) } := by
  simp only [fillPolygon, if_neg area, if_neg reaches, pairs]

/-- A coordinate put into an accumulator is its pixel, whatever fraction is loaded beside it (R221). -/
theorem accX_accOf (v : Word) {fraction : Acc} (hf : fraction >>> 16 = 0#32) :
    accX ((accOf v &&& 0xFFFF0000) ||| fraction) = v.toInt := by
  have whole : (((accOf v &&& 0xFFFF0000) ||| fraction) >>> 16).setWidth 16 = v := by
    rw [BitVec.ushiftRight_or_distrib, hf, BitVec.or_zero]
    ext i hi
    interval_cases i <;> simp [accOf]
  rw [accX, whole]

/-- A segment of an edge with no x difference has step 0 (R223). -/
theorem edgeStep_vertical {p q : Point} (h : q.1 = p.1) : edgeStep p q = 0 := by
  simp [edgeStep, h]

/-- A box whose corners are its points is painted one column wider than it is, on as many rows as it is high, where it
reaches the page (R225, R229). -/
theorem fillPolygon_rectangle_paints (pages : Pages) (dst : Fin 4) (colour : Byte) {w h ax ay : Word}
    {left right top : Int} (hw : w ≠ 0) (hh : h ≠ 0)
    (hleft : (ax - w >>> 1).toInt = left) (hright : (w + (ax - w >>> 1)).toInt = right) (htop : (ay - h >>> 1).toInt = top)
    (reaches : ¬ (319 < left ∨ (ax + w >>> 1).toInt < 0 ∨ 199 < top ∨ (ay + h >>> 1).toInt < 0)) :
    Paints dst colour (fun x y => top ≤ (y : Int) ∧ (y : Int) < top + h.toNat ∧ spanCovers left right x) pages
      (fillPolygon pages dst { bbw := w, bbh := h, pts := [(w, 0), (w, h), (0, h), (0, 0)] } colour ax ay) := by
  have pairs : edgePairs [(w, 0), (w, h), (0, h), (0, 0)] = [((w, 0), (0, 0)), ((w, h), (0, h))] := by
    simp [edgePairs]
  have first : edgeStep (w, 0) (w, h) = 0 := edgeStep_vertical rfl
  have second : edgeStep (0, 0) (0, h) = 0 := edgeStep_vertical rfl
  subst hleft htop
  have onPage : (ay - h >>> 1).toInt ≤ 199 := by omega
  rw [fillPolygon_of_pairs (p := ⟨w, h, _⟩) pages dst colour (fun e => e.elim hw hh) reaches pairs,
    edgeWalk_single dst colour ((w, 0), (0, 0)) ((w, h), (0, h)) _ (by rwa [sub_zero]), walkSegment]
  simp only [first, second, sub_zero, zero_add]
  exact walkRows_vertical_paints dst colour h.toNat (w := ⟨pages, _, _, _⟩) (accX_accOf _ (by decide))
    ((accX_accOf _ (by decide)).trans hright) onPage

/-- The record of R229 is drawn at 1:1 as a rectangle of 10 by 4 in colour 5. -/
theorem drawShape_rectangleRecord {s : State} {g : Segment} {off : Nat} (x y : Word)
    (hrec : window s g off 12 = [0xC5, 0x0A, 0x04, 0x04, 0x0A, 0x00, 0x0A, 0x04, 0x00, 0x04, 0x00, 0x00]) :
    drawShape s g off 0xFF 64 x y = .ok { s with
      pages := fillPolygon s.pages s.ptr1 { bbw := 10, bbh := 4, pts := [(10, 0), (10, 4), (0, 4), (0, 0)] } 5 x y } :=
  readAndDraw_of_direct (disc := 0xC5) (w := 0x0A) (h := 0x04) (n := 0x04)
    (body := [0x0A, 0x00, 0x0A, 0x04, 0x00, 0x04, 0x00, 0x00]) 64 x y s.hierDepthMax 0xFF hrec (by decide) (by decide)
    (by decide) (by decide)

/-- Settles O42: `fillPolygon_rectangle_paints` at the two anchors; at (2, 50) the span begins at -3 and is truncated. -/
theorem rectangleRecordExample : Obligations.RectangleRecordExample := by
  intro s g off q x y hrec hx hy
  refine ⟨⟨_, drawShape_rectangleRecord 100 50 hrec, ?whole⟩, ⟨_, drawShape_rectangleRecord 2 50 hrec, ?clipped⟩⟩
  case whole =>
    refine (fillPolygon_rectangle_paints s.pages s.ptr1 5 (left := 95) (right := 105) (top := 48) (by decide) (by decide)
      (by decide) (by decide) (by decide) (by decide)).pixel_eq q hx hy ?_
    have height : (4 : Word).toNat = 4 := rfl
    rw [height, spanCovers]
    omega
  case clipped =>
    refine (fillPolygon_rectangle_paints s.pages s.ptr1 5 (left := -3) (right := 7) (top := 48) (by decide) (by decide)
      (by decide) (by decide) (by decide) (by decide)).pixel_eq q hx hy ?_
    have height : (4 : Word).toNat = 4 := rfl
    rw [height, spanCovers]
    omega

end Sys2Proof.Machine

/-! What a fill reads (46_polygon_rasterizer.md R235): from pages that agree on the draw target and on page 0, it makes
pages that agree on the draw target and on page 0. -/

namespace Sys2Proof.Machine

/-- Two sets of pages that agree on the page `dst` and on page 0. -/
structure SamePages (dst : Fin 4) (a b : Pages) : Prop where
  target : a[dst] = b[dst]
  page0 : a[(0 : Fin 4)] = b[(0 : Fin 4)]

theorem putPixel_same {dst : Fin 4} {a b : Pages} (h : SamePages dst a b) (x y : Nat) (colour : Byte) :
    SamePages dst (putPixel a dst x y colour) (putPixel b dst x y colour) := by
  have target : (putPixel a dst x y colour)[dst] = (putPixel b dst x y colour)[dst] := by
    rw [putPixel_target, putPixel_target, h.target, h.page0]
  refine ⟨target, ?_⟩
  by_cases zero : 0 = dst
  · exact zero ▸ target
  · rw [putPixel_others a dst x y colour 0 zero, putPixel_others b dst x y colour 0 zero, h.page0]

theorem putRun_same {dst : Fin 4} {a b : Pages} (h : SamePages dst a b) (x y : Nat) (colour : Byte) (n : Nat) :
    SamePages dst (putRun a dst x y colour n) (putRun b dst x y colour n) := by
  induction n generalizing a b x with
  | zero => exact h
  | succ n ih => exact ih (putPixel_same h x y colour) (x + 1)

theorem span_same {dst : Fin 4} {a b : Pages} (h : SamePages dst a b) (row : Nat) (x1 x2 : Int) (colour : Byte) :
    SamePages dst (span a dst row x1 x2 colour) (span b dst row x1 x2 colour) := by
  unfold span
  split
  · exact putRun_same h ..
  · exact h

theorem drawPoint_same {dst : Fin 4} {a b : Pages} (h : SamePages dst a b) (x y : Int) (colour : Byte) :
    SamePages dst (drawPoint a dst x y colour) (drawPoint b dst x y colour) := by
  unfold drawPoint
  split
  · exact putPixel_same h ..
  · exact h

/-- Two walks at the same place, on pages that agree. -/
structure SameWalk (dst : Fin 4) (w w' : Walk) : Prop where
  pages : SamePages dst w.pages w'.pages
  row : w.row = w'.row
  cl : w.cl = w'.cl
  cr : w.cr = w'.cr

theorem SameWalk.advance {dst : Fin 4} {w w' : Walk} (h : SameWalk dst w w') (colour : Byte) (stepl stepr : Acc) :
    SameWalk dst (w.advance dst colour stepl stepr) (w'.advance dst colour stepl stepr) := by
  refine ⟨?pages, by rw [advance_row, advance_row, h.row], by rw [advance_cl, advance_cl, h.cl],
    by rw [advance_cr, advance_cr, h.cr]⟩
  simp only [Walk.advance, h.row, h.cl, h.cr]
  split
  · exact span_same h.pages ..
  · exact h.pages

theorem SameWalk.reload {dst : Fin 4} {w w' : Walk} (h : SameWalk dst w w') : SameWalk dst w.reload w'.reload :=
  ⟨h.pages, h.row, by simp only [Walk.reload, h.cl], by simp only [Walk.reload, h.cr]⟩

/-- The rows walked, and whether the bottom of the page is passed, do not depend on the pages. -/
theorem walkRows_same {dst : Fin 4} {w w' : Walk} (h : SameWalk dst w w') (colour : Byte) (stepl stepr : Acc) (n : Nat) :
    SameWalk dst (walkRows dst colour stepl stepr n w).1 (walkRows dst colour stepl stepr n w').1 ∧
      (walkRows dst colour stepl stepr n w).2 = (walkRows dst colour stepl stepr n w').2 := by
  induction n generalizing w w' with
  | zero => exact ⟨h, rfl⟩
  | succ n ih =>
    rw [walkRows_succ, walkRows_succ, h.row]
    split
    · exact ⟨h.advance colour stepl stepr, rfl⟩
    · exact ih (h.advance colour stepl stepr)

theorem edgeWalk_same {dst : Fin 4} {w w' : Walk} (h : SameWalk dst w w') (colour : Byte) (here : Point × Point)
    (rest : List (Point × Point)) :
    SamePages dst (edgeWalk dst colour here rest w) (edgeWalk dst colour here rest w') := by
  induction rest generalizing here w w' with
  | nil => exact h.pages
  | cons next rest ih =>
    obtain ⟨walks, ends⟩ : SameWalk dst (walkSegment dst colour here next w).1 (walkSegment dst colour here next w').1 ∧
        (walkSegment dst colour here next w).2 = (walkSegment dst colour here next w').2 := walkRows_same h.reload ..
    rw [edgeWalk_cons, edgeWalk_cons, ends]
    split
    · refine ih ?_ next
      exact ⟨h.pages, h.row, congrArg (· + _) h.reload.cl, congrArg (· + _) h.reload.cr⟩
    · split
      · exact walks.pages
      · exact ih walks next

theorem fillPolygon_same {dst : Fin 4} {a b : Pages} (h : SamePages dst a b) (p : Polygon) (colour : Byte) (x y : Word) :
    SamePages dst (fillPolygon a dst p colour x y) (fillPolygon b dst p colour x y) := by
  unfold fillPolygon
  split
  next noArea => exact drawPoint_same h ..
  next area =>
    dsimp only
    split
    next off => exact h
    next reaches =>
      rcases edgePairs p.pts with _ | ⟨first, _ | ⟨next, rest⟩⟩
      · exact h
      · dsimp only
        split
        · exact span_same h ..
        · exact h
      · refine edgeWalk_same ?_ ..
        exact ⟨h, rfl, rfl, rfl⟩

end Sys2Proof.Machine

/-! What a draw reads (46_polygon_rasterizer.md R235): from two states that agree on the bytes of the segment, the draw
target and page 0, a draw makes two states that agree on them. -/

namespace Sys2Proof.Machine

/-- Two states with the draw target `dst` that agree on all that drawing from the segment `g` reads. -/
structure DrawsAlike (g : Segment) (dst : Fin 4) (s s' : State) : Prop where
  bytes : ∀ off, window s g off 1 = window s' g off 1
  ptr1 : s.ptr1 = dst
  ptr1' : s'.ptr1 = dst
  pages : SamePages dst s.pages s'.pages

/-- Two outcomes that agree: values related by `R`, or faulted states that draw alike. -/
inductive SameOutcome (g : Segment) (dst : Fin 4) {α : Type} (R : α → α → Prop) : Except State α → Except State α → Prop
  | ok {a b : α} (h : R a b) : SameOutcome g dst R (.ok a) (.ok b)
  | error {e e' : State} (h : DrawsAlike g dst e e') : SameOutcome g dst R (.error e) (.error e')

section
variable {g : Segment} {dst : Fin 4} {s s' : State}

theorem SameOutcome.bind {α β : Type} {R : α → α → Prop} {Q : β → β → Prop} {r r' : Except State α}
    {k k' : α → Except State β} (h : SameOutcome g dst R r r') (hk : ∀ a b, R a b → SameOutcome g dst Q (k a) (k' b)) :
    SameOutcome g dst Q (r >>= k) (r' >>= k') := by
  cases h with
  | ok h => exact hk _ _ h
  | error h => exact .error h

/-- After a read, which answers the same value in both states. -/
theorem SameOutcome.bind_read {α β : Type} {Q : β → β → Prop} {r r' : Except State α} {k k' : α → Except State β}
    (h : SameOutcome g dst Eq r r') (hk : ∀ a, SameOutcome g dst Q (k a) (k' a)) :
    SameOutcome g dst Q (r >>= k) (r' >>= k') :=
  h.bind fun a _ e => e ▸ hk a

theorem DrawsAlike.symm (h : DrawsAlike g dst s s') : DrawsAlike g dst s' s :=
  ⟨fun off => (h.bytes off).symm, h.ptr1', h.ptr1, h.pages.target.symm, h.pages.page0.symm⟩

theorem DrawsAlike.raise (h : DrawsAlike g dst s s') (f f' : FatalFault) :
    DrawsAlike g dst (raise s f) (raise s' f') :=
  ⟨fun off => by
    rw [window_congr (s := s) g (raise_mem ..) (raise_seg ..) (raise_arenaSize ..),
      window_congr (s := s') g (raise_mem ..) (raise_seg ..) (raise_arenaSize ..), h.bytes], h.ptr1, h.ptr1', h.pages⟩

theorem DrawsAlike.logSoft (h : DrawsAlike g dst s s') (c c' : SoftCondition) :
    DrawsAlike g dst (logSoft s c) (logSoft s' c') :=
  ⟨fun off => by
    rw [window_congr (s := s) g (logSoft_mem ..) (logSoft_seg ..) (logSoft_arenaSize ..),
      window_congr (s := s') g (logSoft_mem ..) (logSoft_seg ..) (logSoft_arenaSize ..), h.bytes], h.ptr1, h.ptr1', h.pages⟩

/-- The bytes a segment shows do not depend on the pages. -/
theorem window_pages (s : State) (p : Pages) (g : Segment) (off n : Nat) :
    window { s with pages := p } g off n = window s g off n :=
  window_congr (s := s) (s' := { s with pages := p }) g rfl rfl rfl off n

theorem DrawsAlike.fill (h : DrawsAlike g dst s s') (p : Polygon) (colour : Byte) (x y : Word) :
    DrawsAlike g dst { s with pages := fillPolygon s.pages s.ptr1 p colour x y }
      { s' with pages := fillPolygon s'.pages s'.ptr1 p colour x y } where
  bytes off := by rw [window_pages s, window_pages s', h.bytes]
  ptr1 := h.ptr1
  ptr1' := h.ptr1'
  pages := by
    rw [h.ptr1, h.ptr1']
    exact fillPolygon_same h.pages ..

/-! Reads. -/

/-- A byte that is readable in one state is readable in the other, and is the same there. -/
theorem DrawsAlike.byte (h : DrawsAlike g dst s s') {off : Nat} (hr : readable s g off) :
    readable s' g off ∧
      s.mem.read ((segOf s.seg g).base + off) = s'.mem.read ((segOf s'.seg g).base + off) := by
  have same := h.bytes off
  rcases segRead8_cases s g off with ⟨_, e⟩ | ⟨hn, _⟩
  · rcases segRead8_cases s' g off with ⟨hr', e'⟩ | ⟨_, e'⟩ <;> simp only [window, e, e'] at same
    · exact ⟨hr', List.head_eq_of_cons_eq same⟩
    · cases same
  · exact absurd hr hn

theorem segRead8_alike (h : DrawsAlike g dst s s') (off : Nat) :
    SameOutcome g dst Eq (segRead8 s g off) (segRead8 s' g off) := by
  rcases segRead8_cases s g off with ⟨hr, e⟩ | ⟨hn, e⟩ <;>
    rcases segRead8_cases s' g off with ⟨hr', e'⟩ | ⟨hn', e'⟩ <;> rw [e, e']
  · exact .ok (h.byte hr).2
  · exact absurd (h.byte hr).1 hn'
  · exact absurd (h.symm.byte hr').1 hn
  · exact .error (h.raise ..)

theorem segRead16_alike (h : DrawsAlike g dst s s') (off : Nat) :
    SameOutcome g dst Eq (segRead16 s g off) (segRead16 s' g off) := by
  rcases segRead16_cases s g off with ⟨hr, e⟩ | ⟨hn, e⟩ <;>
    rcases segRead16_cases s' g off with ⟨hr', e'⟩ | ⟨hn', e'⟩ <;> rw [e, e']
  · have first : readable s g off := ⟨by have := hr.1; omega, by have := hr.2; omega⟩
    exact .ok (by rw [(h.byte first).2, Nat.add_assoc, (h.byte hr).2, Nat.add_assoc])
  · exact absurd (h.byte hr).1 hn'
  · exact absurd (h.symm.byte hr').1 hn
  · exact .error (h.raise ..)

theorem polyByte_eq (s : State) (g : Segment) (dp : Nat) :
    polyByte s g dp = segRead8 s g dp >>= fun b => .ok (b, dp + 1) := by
  unfold polyByte
  cases segRead8 s g dp <;> rfl

theorem polyWord_eq (s : State) (g : Segment) (dp : Nat) :
    polyWord s g dp = segRead16 s g dp >>= fun w => .ok (w, dp + 2) := by
  unfold polyWord
  cases segRead16 s g dp <;> rfl

theorem polyByte_alike (h : DrawsAlike g dst s s') (dp : Nat) :
    SameOutcome g dst Eq (polyByte s g dp) (polyByte s' g dp) := by
  rw [polyByte_eq, polyByte_eq]
  exact (segRead8_alike h dp).bind_read fun _ => .ok rfl

theorem polyWord_alike (h : DrawsAlike g dst s s') (dp : Nat) :
    SameOutcome g dst Eq (polyWord s g dp) (polyWord s' g dp) := by
  rw [polyWord_eq, polyWord_eq]
  exact (segRead16_alike h dp).bind_read fun _ => .ok rfl

theorem readPoints_alike (h : DrawsAlike g dst s s') (zoom : Word) (dp n : Nat) :
    SameOutcome g dst Eq (readPoints s g zoom dp n) (readPoints s' g zoom dp n) := by
  induction n generalizing dp with
  | zero => exact .ok rfl
  | succ n ih =>
    exact (polyByte_alike h _).bind_read fun _ => (polyByte_alike h _).bind_read fun _ => (ih _).bind_read fun _ => .ok rfl

theorem readVertices_alike (h : DrawsAlike g dst s s') (zoom : Word) (dp : Nat) :
    SameOutcome g dst Eq (readVertices s g zoom dp) (readVertices s' g zoom dp) := by
  refine (polyByte_alike h _).bind_read fun _ => (polyByte_alike h _).bind_read fun _ =>
    (polyByte_alike h _).bind_read fun _ => ?_
  dsimp only
  split
  · exact .error (h.raise ..)
  · exact (readPoints_alike h ..).bind_read fun _ => .ok rfl

theorem readChild_alike (h : DrawsAlike g dst s s') (zoom x y : Word) (dp : Nat) :
    SameOutcome g dst Eq (readChild s g zoom x y dp) (readChild s' g zoom x y dp) := by
  refine (polyWord_alike h _).bind_read fun _ => (polyByte_alike h _).bind_read fun _ =>
    (polyByte_alike h _).bind_read fun _ => ?_
  dsimp only
  split
  · exact (polyByte_alike h _).bind_read fun _ => (polyByte_alike h _).bind_read fun _ => .ok rfl
  · exact .ok rfl

/-! Records. -/

/-- Opening a hierarchy record with `depth` of them still to be opened (R212, R232). -/
def openHierarchy (g : Segment) (zoom : Word) (depth : Nat) (s : State) (x y : Word) (dp : Nat) : Except State State :=
  match depth with
  | 0 => .error (raise s (.hierDepth s.insnPc dp))
  | d + 1 => drawHierarchy (readAndDraw g zoom d) g zoom s x y dp

/-- `ReadAndDraw` in the order R212 has it: the discriminator byte, then the record it announces. -/
theorem readAndDraw_eq (g : Segment) (zoom : Word) (depth : Nat) (s : State) (colour : Byte) (x y : Word) (dp : Nat) :
    readAndDraw g zoom depth s colour x y dp = polyByte s g dp >>= fun i =>
      if 0xC0 ≤ i.1.toNat then readVertices s g zoom i.2 >>= fun p =>
        .ok { s with pages := fillPolygon s.pages s.ptr1 p (recordColour colour i.1) x y }
      else if i.1 &&& 0x3F = 2 then openHierarchy g zoom depth s x y i.2
      else .ok (logSoft s (.badPolyDiscriminator s.insnPc (i.2 - 1) (i.1 &&& 0x3F))) := by
  cases depth <;> rw [readAndDraw] <;> rcases polyByte s g dp with _ | ⟨i, dp'⟩
  case zero.error | succ.error => rfl
  case zero.ok | succ.ok =>
    refine if_congr Iff.rfl ?_ rfl
    cases readVertices s g zoom dp' <;> rfl

/-- What holds of drawing every record, for a way to draw records: states that draw alike before it do so after it. -/
def KeepsAlike (g : Segment) (dst : Fin 4) (draw : DrawRecord) : Prop :=
  ∀ (s s' : State) (colour : Byte) (x y : Word) (dp : Nat), DrawsAlike g dst s s' →
    SameOutcome g dst (DrawsAlike g dst) (draw s colour x y dp) (draw s' colour x y dp)

theorem drawChildren_alike {draw : DrawRecord} (hd : KeepsAlike g dst draw) (h : DrawsAlike g dst s s') (zoom x y : Word)
    (n dp : Nat) :
    SameOutcome g dst (DrawsAlike g dst) (drawChildren draw g zoom x y n s dp) (drawChildren draw g zoom x y n s' dp) := by
  induction n generalizing s s' dp with
  | zero => exact .ok h
  | succ n ih =>
    exact (readChild_alike h ..).bind_read fun _ => (hd _ _ _ _ _ _ h).bind fun _ _ drawn => ih drawn _

theorem drawHierarchy_alike {draw : DrawRecord} (hd : KeepsAlike g dst draw) (h : DrawsAlike g dst s s') (zoom x y : Word)
    (dp : Nat) :
    SameOutcome g dst (DrawsAlike g dst) (drawHierarchy draw g zoom s x y dp) (drawHierarchy draw g zoom s' x y dp) :=
  (polyByte_alike h _).bind_read fun _ => (polyByte_alike h _).bind_read fun _ => (polyByte_alike h _).bind_read fun _ =>
    drawChildren_alike hd h ..

theorem readAndDraw_alike (g : Segment) (dst : Fin 4) (zoom : Word) (depth : Nat) :
    KeepsAlike g dst (readAndDraw g zoom depth) := by
  have record : ∀ depth : Nat,
      (∀ (s s' : State) (x y : Word) (dp : Nat), DrawsAlike g dst s s' →
        SameOutcome g dst (DrawsAlike g dst) (openHierarchy g zoom depth s x y dp) (openHierarchy g zoom depth s' x y dp)) →
      KeepsAlike g dst (readAndDraw g zoom depth) := by
    intro depth opened s s' colour x y dp h
    rw [readAndDraw_eq, readAndDraw_eq]
    refine (polyByte_alike h dp).bind_read fun i => ?_
    split
    next direct => exact (readVertices_alike h ..).bind_read fun p => .ok (h.fill ..)
    next other =>
      split
      next hierarchy => exact opened _ _ _ _ _ h
      next bad => exact .ok (h.logSoft ..)
  induction depth with
  | zero => exact record 0 fun _ _ _ _ _ h => .error (h.raise ..)
  | succ d ih => exact record (d + 1) fun _ _ _ _ _ h => drawHierarchy_alike ih h ..

end

/-! The instructions. -/

theorem zext16_eq (b : Byte) : zext16 b = BitVec.ofNat 16 b.toNat :=
  BitVec.eq_of_toNat_eq (by simp [zext16])

theorem bpolyX_eq (x y : Byte) :
    bpolyX x y = BitVec.ofNat 16 (if 199 < y.toNat then x.toNat + (y.toNat - 199) else x.toNat) := by
  rw [bpolyX, zext16_eq, ← BitVec.ofNat_add]
  split
  next above => rfl
  next inside => rw [Nat.sub_eq_zero_of_le (by omega), Nat.add_zero]

theorem bpolyY_eq (y : Byte) : bpolyY y = BitVec.ofNat 16 (min y.toNat 199) := by
  rw [bpolyY]
  split
  next above =>
    rw [Nat.min_eq_right (by omega)]
    rfl
  next inside => rw [Nat.min_eq_left (by omega), zext16_eq]

/-- The fields of `bpoly` in the model are those of `drawCall` (45_polygon_draw.md R196). -/
theorem drawCall_bpoly (s : State) (off : BitVec 15) (x y : Byte) :
    drawCall s (.bpoly off x y) = some ⟨.cinematic, bpolyOffset off, Config.defaultZoom, bpolyX x y, bpolyY y⟩ := by
  rw [drawCall, bpolyX_eq, bpolyY_eq, bpolyOffset, Nat.mul_comm]

/-- The fields of `spoly` in the model are those of `drawCall` (45_polygon_draw.md R198). -/
theorem drawCall_spoly (s : State) (off : Word) (x : XField) (y : YField) (zoom : ZoomField) :
    drawCall s (.spoly off x y zoom) =
      some ⟨zoomSegment zoom, spolyOffset off, zoomValue s zoom, xValue s x, yValue s y⟩ := by
  simp only [drawCall, Option.some.injEq, DrawCall.mk.injEq]
  refine ⟨?seg, ?off, ?zoom, ?x, ?y⟩
  case seg => cases zoom <;> rfl
  case off => rw [spolyOffset, Nat.mul_comm]
  case zoom => cases zoom <;> simp only [zoomValue, zext16_eq]
  case x =>
    cases x with
    | imm8High b =>
      simp only [xValue, zext16_eq, BitVec.ofNat_add]
      rfl
    | _ => simp only [xValue, zext16_eq]
  case y => cases y <;> simp only [yValue, zext16_eq]

/-- The instructions that draw are `DrawShape` of their `drawCall`, in the record's own colour (45_polygon_draw.md R195). -/
theorem exec_of_drawCall {i : Instr} {s : State} {c : DrawCall} (h : drawCall s i = some c) :
    exec i s = settle (drawShape s c.seg c.off 0xFF c.zoom c.x c.y) := by
  cases i with
  | bpoly off x y =>
    rw [drawCall_bpoly] at h
    cases h
    rfl
  | spoly off x y zoom =>
    rw [drawCall_spoly] at h
    cases h
    rfl
  | _ => cases h

/-- A draw writes the pages, the log and the fault register alone, and of the pages the draw target (R235). -/
theorem settle_drawShape_frame {s t : State} {g : Segment} {off : Nat} {colour : Byte} {zoom x y : Word}
    (h : settle (drawShape s g off colour zoom x y) = .next t) :
    t = { s with pages := t.pages, log := t.log, fault := t.fault } ∧ OthersKept s.ptr1 s.pages t.pages := by
  have result := drawShape_result s g off colour zoom x y
  cases drawn : drawShape s g off colour zoom x y with
  | ok u =>
    rw [drawn] at h result
    cases h
    obtain ⟨_, painted⟩ := result
    exact ⟨by rw [painted.rest], painted.others⟩
  | error u =>
    rw [drawn] at h result
    cases h
    obtain ⟨_, _, _, painted, rfl, _⟩ := result
    exact ⟨by rw [raise, painted.rest], painted.others⟩

theorem SameOutcome.settle {g : Segment} {dst : Fin 4} {r r' : Except State State} {t t' : State}
    (h : SameOutcome g dst (DrawsAlike g dst) r r') (ht : settle r = .next t) (ht' : settle r' = .next t') :
    DrawsAlike g dst t t' := by
  cases h <;> cases ht <;> cases ht' <;> assumption

/-- Settles O38: the frame from `drawShape_result`, the noninterference from `readAndDraw_alike`. -/
theorem rasterizerTouchesOnlyTheTarget : Obligations.RasterizerTouchesOnlyTheTarget := by
  refine ⟨fun i s t c hc ht => ?frame, fun i s s' t t' c hc hc' bytes depth ptr target page0 ht ht' => ?reads⟩
  case frame =>
    rw [exec_of_drawCall hc] at ht
    exact settle_drawShape_frame ht
  case reads =>
    rw [exec_of_drawCall hc, drawShape] at ht
    rw [exec_of_drawCall hc', drawShape, ← depth] at ht'
    simp only [← ptr] at target ⊢
    have before : DrawsAlike c.seg s.ptr1 s s' := ⟨bytes, rfl, ptr.symm, target, page0⟩
    exact ((readAndDraw_alike c.seg s.ptr1 c.zoom s.hierDepthMax _ _ _ _ _ _ before).settle ht ht').pages.target

end Sys2Proof.Machine

/-! What no instruction writes: the thread table's current half, `CUR_THR`, and the finer step that comes next
(47_scheduler.md R248, R252; 42_thread_control.md R145). -/

namespace Sys2Proof.Machine

/-- What the scheduler alone writes: the finer step that comes next, the running thread, and the current half of the
thread table. -/
def schedule (s : State) : Phase × Fin 64 × Vector Word 64 × Vector Bool 64 :=
  (s.phase, s.curThr, s.thrPc, s.pausedCur)

theorem phase_of_schedule {s t : State} (h : schedule t = schedule s) : t.phase = s.phase := congrArg Prod.fst h

theorem condJump_schedule (s : State) (cc : Byte) (b a target : Word) :
    schedule (condJump s cc b a target) = schedule s := by
  rw [condJump_state]
  rfl

theorem loadMemoryEntry_schedule (a : LoadAnswer) (id : Word) (s : State) :
    schedule (loadMemoryEntry a id s) = schedule s := by
  unfold loadMemoryEntry
  split <;> rfl

theorem blitWith_schedule {clock : Nat → Nat} {page : Byte} {s t : State}
    (h : settle (blitWith clock page s) = .next t) : schedule t = schedule s := by
  have beforePalette : schedule (updateAliases page (pace clock s)) = schedule s := by simp [schedule]
  rcases blitWith_result clock page s _ rfl with ⟨_, e⟩ | ⟨_, _, e⟩ | ⟨_, _, _, e⟩ <;>
    · rw [e] at h
      cases h
      exact beforePalette

theorem drawShape_schedule {s t : State} {g : Segment} {off : Nat} {colour : Byte} {zoom x y : Word}
    (h : settle (drawShape s g off colour zoom x y) = .next t) : schedule t = schedule s := by
  obtain ⟨rest, _⟩ := settle_drawShape_frame h
  rw [rest]
  rfl

/-- No instruction touches what the scheduler writes: threads are held, released and redirected by requests alone
(42_thread_control.md R145). -/
theorem exec_schedule {i : Instr} {s t : State} (h : exec i s = .next t) : schedule t = schedule s := by
  cases i with
  | movi | mov | addi | ori | jmp | pause | kill | illegal =>
    cases h
    rfl
  | jnz d target =>
    cases h
    split <;> rfl
  | condJmpVar | condJmpImm16 | condJmpImm8 =>
    cases h
    exact condJump_schedule ..
  | call target =>
    simp only [exec, execCall] at h
    split at h <;> cases h <;> rfl
  | ret =>
    simp only [exec, execRet] at h
    split at h <;> cases h <;> rfl
  | setvec id off =>
    simp only [exec, execSetvec] at h
    split at h <;> cases h <;> rfl
  | thrctl first last mode =>
    simp only [exec, execThrctl] at h
    split at h
    · cases h
      rfl
    · split at h <;> cases h <;> simp only [schedule]
  | setpal w =>
    simp only [exec, execSetpal] at h
    split at h <;> cases h <;> rfl
  | selpage | fillpage =>
    cases h
    simp [schedule]
  | copypage src dst =>
    simp only [exec, execCopypage] at h
    split at h
    · cases h
      rfl
    · split at h <;> cases h <;> simp [schedule]
  | blit page => exact blitWith_schedule h
  | update id =>
    simp only [exec, execUpdate] at h
    split at h
    · cases h
      rfl
    · split at h <;> cases h
      · rfl
      · exact loadMemoryEntry_schedule ..
  | spoly | bpoly => exact drawShape_schedule h

theorem fetchFault_schedule (s : State) (used : Nat) (decremented : Option Byte) :
    schedule (fetchFault s used decremented) = schedule s := by
  cases decremented <;> rfl

/-- An instruction of a slice, run or cut short, leaves the scheduler's state as it is. -/
theorem executeOne_schedule {s t : State} (h : executeOne s = .next t) : schedule t = schedule s := by
  unfold executeOne at h
  split at h
  · cases h
  · split at h
    next => exact exec_schedule (s := fetched s _) h
    next =>
      cases h
      exact fetchFault_schedule ..

end Sys2Proof.Machine

/-! The finer steps of a frame (47_scheduler.md R246): which of them comes in each phase, and which phase it leaves. -/

namespace Sys2Proof.Machine

section
variable {s : State}

theorem step_halted (hfault : s.fault ≠ none) : step s = .next s := by
  simp only [step, Option.isSome_iff_ne_none.2 hfault, if_true, haltedStep]

theorem step_frameTop (hfault : s.fault = none) (hphase : s.phase = .frameTop) : step s = partSwitchStep s := by
  simp [step, hfault, hphase]

theorem step_commit (hfault : s.fault = none) (hphase : s.phase = .commit) : step s = .next (commitStep s) := by
  simp [step, hfault, hphase]

theorem step_select {n : Nat} (hfault : s.fault = none) (hphase : s.phase = .select n) :
    step s = .next (selectStep s n) := by
  simp [step, hfault, hphase]

theorem step_slice_end (hfault : s.fault = none) (hphase : s.phase = .slice) (hyield : s.yield = true) :
    step s = .next (endSlice s) := by
  simp [step, hfault, hphase, hyield]

/-- The part-switch step that takes no fault leaves the commit to come (R249). -/
theorem partSwitchStep_phase {t : State} (h : partSwitchStep s = .next t) (noFault : t.fault = none) :
    t.phase = .commit := by
  simp only [partSwitchStep, switchPart] at h
  split at h
  next nothingRequested =>
    cases h
    rfl
  next requested =>
    split at h
    next mapped =>
      split at h <;> cases h
      rfl
    next failed =>
      cases h
      cases noFault

end

/-! The commit. -/

@[simp] theorem commitStep_fault (s : State) : (commitStep s).fault = s.fault := by
  simp only [commitStep, applyPending_fault]
@[simp] theorem commitStep_phase (s : State) : (commitStep s).phase = .select 0 := by simp only [commitStep]

theorem commitStep_phase_irrelevant (s : State) (p : Phase) : commitStep { s with phase := p } = commitStep s := by
  simp only [commitStep, applyPending]

theorem commitStep_getsSlice (s : State) (t : Fin 64) : getsSlice (commitStep s) t = getsSlice (applyPending s) t :=
  getsSlice_congr (by simp only [commitStep]) (by simp only [commitStep]) t

/-- Settles O50: the thread table after a commit is `applyPending_row`. -/
theorem commitAppliesRequests : Obligations.CommitAppliesRequests := by
  intro s hfault hphase
  refine ⟨commitStep s, step_commit hfault hphase, ?frame, fun u => ?rows, fun addr => ?arena⟩
  case frame => simp only [commitStep, applyPending]
  case arena => simp only [commitStep, applyPending_mem]
  case rows =>
    obtain ⟨hpc, hredir, hpaused⟩ := applyPending_row s u
    exact ⟨hpaused, hredir, hpc⟩

/-! The search for the next thread. -/

/-- A thread gets no slice exactly when it is held or inactive (R252). -/
theorem getsSlice_eq_false_iff (s : State) (t : Fin 64) :
    getsSlice s t = false ↔ s.pausedCur[t] = true ∨ s.thrPc[t] = 0xFFFF := by
  rw [← Bool.not_eq_true, getsSlice_iff, not_and_or, Bool.not_eq_false, not_not]

/-- The least thread, from `n` on, that gets a slice is the one that the search finds. -/
theorem firstReady_eq_some {s : State} {n : Nat} {u : Fin 64} (from_n : n ≤ u.val) (ready : getsSlice s u = true)
    (least : ∀ u' : Fin 64, n ≤ u'.val → u'.val < u.val → getsSlice s u' = false) : firstReady s n = some u := by
  cases found : firstReady s n with
  | none => simp [firstReady_none found u from_n] at ready
  | some t =>
    obtain ⟨t_from_n, t_ready, t_least⟩ := firstReady_some found
    rcases lt_trichotomy t.val u.val with below | same | above
    · simp [least t t_from_n below] at t_ready
    · rw [Fin.ext same]
    · simp [t_least u from_n above] at ready

theorem firstReady_eq_none {s : State} {n : Nat} (h : ∀ u : Fin 64, n ≤ u.val → getsSlice s u = false) :
    firstReady s n = none := by
  cases found : firstReady s n with
  | none => rfl
  | some t =>
    obtain ⟨from_n, ready, _⟩ := firstReady_some found
    simp [h t from_n] at ready

theorem selectStep_of_firstReady {s : State} {n : Nat} {u : Fin 64} (h : firstReady s n = some u) :
    selectStep s n = startSlice s u := by
  rw [selectStep, h]

/-- Where no thread from `n` on gets a slice, the frame is over (R246). -/
theorem selectStep_of_none_ready {s : State} {n : Nat} (h : ∀ u : Fin 64, n ≤ u.val → getsSlice s u = false) :
    selectStep s n = { s with phase := .frameTop } := by
  rw [selectStep, firstReady_eq_none h]

/-- Settles O51: one step lemma per phase, and inside a slice `executeOne_schedule`. -/
theorem selectStartsTheLeastReadyThread : Obligations.SelectStartsTheLeastReadyThread := by
  intro s n hfault
  refine ⟨fun hphase u from_n free active least => ?starts, fun hphase none_ready => ?ends,
    fun t hphase hstep noFault => ?switched, fun hphase => ?committed, fun hphase hyield => ?ended,
    fun t hphase hyield hstep => ?running, fun _ => step_halted⟩
  case starts =>
    have ready : getsSlice s u = true := (getsSlice_iff s u).2 ⟨free, active⟩
    have found : firstReady s n = some u :=
      firstReady_eq_some from_n ready fun u' h below => (getsSlice_eq_false_iff s u').2 (least u' h below)
    rw [step_select hfault hphase, selectStep_of_firstReady found]
    rfl
  case ends =>
    rw [step_select hfault hphase,
      selectStep_of_none_ready fun u h => (getsSlice_eq_false_iff s u).2 (none_ready u h)]
  case switched =>
    rw [step_frameTop hfault hphase] at hstep
    exact partSwitchStep_phase hstep noFault
  case committed => exact ⟨commitStep s, step_commit hfault hphase, commitStep_phase s⟩
  case ended => exact ⟨endSlice s, step_slice_end hfault hphase hyield, endSlice_phase s⟩
  case running =>
    rw [step_slice hfault hphase hyield] at hstep
    rw [phase_of_schedule (executeOne_schedule hstep), hphase]

end Sys2Proof.Machine

/-! Frames in which no thread runs (47_scheduler.md R259). -/

namespace Sys2Proof.Machine

theorem run_of_step {s t : State} (k : Nat) (h : step s = .next t) :
    Sys2Proof.core.run (k + 1) s = Sys2Proof.core.run k t := by
  have hcore : Sys2Proof.core.step s = .next t := h
  simp only [Host.Core.run, hcore]

/-- A commit with no redirect staged and every requested hold already current changes nothing (R251). -/
theorem applyPending_of_nothing_requested {s : State} (noRedirect : ∀ t : Fin 64, s.redir[t] = 0xFFFF)
    (holdsCurrent : s.pausedCur = s.pausedReq) : applyPending s = s := by
  have pcsKept : (applyPending s).thrPc = s.thrPc := by
    ext i hi : 1
    obtain ⟨committed, _, _⟩ := applyPending_row s ⟨i, hi⟩
    exact committed.trans (if_pos (noRedirect ⟨i, hi⟩))
  have redirsKept : (applyPending s).redir = s.redir := by
    ext i hi : 1
    obtain ⟨_, cleared, _⟩ := applyPending_row s ⟨i, hi⟩
    exact cleared.trans (noRedirect ⟨i, hi⟩).symm
  exact State.fields_ext _ _
    (by simp [-applyPending_thrPc, -applyPending_redir, pcsKept, redirsKept, holdsCurrent])

/-- The top of a frame with no part switch requested, in which no thread gets a slice after the commit. -/
structure Idles (s : State) : Prop where
  noFault : s.fault = none
  atTop : s.phase = .frameTop
  noSwitch : s.reqPart = 0
  noneReady : ∀ th : Fin 64, getsSlice (applyPending s) th = false

/-- The committed state at the top of the next frame. -/
def afterIdleFrame (s : State) : State := { applyPending s with phase := .frameTop }

@[simp] theorem afterIdleFrame_thrPc (s : State) : (afterIdleFrame s).thrPc = (applyPending s).thrPc := by
  simp only [afterIdleFrame]
@[simp] theorem afterIdleFrame_redir (s : State) : (afterIdleFrame s).redir = (applyPending s).redir := by
  simp only [afterIdleFrame]
@[simp] theorem afterIdleFrame_pausedCur (s : State) : (afterIdleFrame s).pausedCur = s.pausedReq := by
  simp only [afterIdleFrame, applyPending_pausedCur]
@[simp] theorem afterIdleFrame_pausedReq (s : State) : (afterIdleFrame s).pausedReq = s.pausedReq := by
  simp only [afterIdleFrame, applyPending_pausedReq]
@[simp] theorem afterIdleFrame_reqPart (s : State) : (afterIdleFrame s).reqPart = s.reqPart := by
  simp only [afterIdleFrame, applyPending_reqPart]
@[simp] theorem afterIdleFrame_fault (s : State) : (afterIdleFrame s).fault = s.fault := by
  simp only [afterIdleFrame, applyPending_fault]
@[simp] theorem afterIdleFrame_phase (s : State) : (afterIdleFrame s).phase = .frameTop := by
  simp only [afterIdleFrame]

/-- The commit of the next frame finds nothing requested. -/
theorem applyPending_afterIdleFrame (s : State) : applyPending (afterIdleFrame s) = afterIdleFrame s := by
  apply applyPending_of_nothing_requested
  case noRedirect =>
    intro t
    rw [afterIdleFrame_redir]
    exact (applyPending_row s t).2.1
  case holdsCurrent => rw [afterIdleFrame_pausedCur, afterIdleFrame_pausedReq]

theorem afterIdleFrame_afterIdleFrame (s : State) : afterIdleFrame (afterIdleFrame s) = afterIdleFrame s := by
  rw [afterIdleFrame, applyPending_afterIdleFrame, ← afterIdleFrame_phase s]

/-- An idle frame leaves the next one idle. -/
theorem Idles.next_frame {s : State} (h : Idles s) : Idles (afterIdleFrame s) where
  noFault := by rw [afterIdleFrame_fault, h.noFault]
  atTop := afterIdleFrame_phase s
  noSwitch := by rw [afterIdleFrame_reqPart, h.noSwitch]
  noneReady th := by
    rw [applyPending_afterIdleFrame, ← h.noneReady th]
    exact getsSlice_congr (by simp) (afterIdleFrame_thrPc s) th

/-- An idle frame is three steps: no part switch, the commit, and a search that finds no thread. -/
theorem Idles.run_frame {s : State} (h : Idles s) (k : Nat) :
    Sys2Proof.core.run (k + 3) s = Sys2Proof.core.run k (afterIdleFrame s) := by
  have skips : step s = .next { s with phase := .commit } := by
    rw [step_frameTop h.noFault h.atTop, partSwitchStep, if_pos h.noSwitch]
  have commits : step { s with phase := .commit } = .next (commitStep s) := by
    rw [step_commit (s := { s with phase := .commit }) h.noFault rfl, commitStep_phase_irrelevant]
  have noneReady : ∀ u : Fin 64, 0 ≤ u.val → getsSlice (commitStep s) u = false := fun u _ => by
    rw [commitStep_getsSlice, h.noneReady u]
  have selects : step (commitStep s) = .next (afterIdleFrame s) := by
    rw [step_select ((commitStep_fault s).trans h.noFault) (commitStep_phase s), selectStep_of_none_ready noneReady]
    simp only [commitStep, afterIdleFrame]
  rw [run_of_step (k + 2) skips, run_of_step (k + 1) commits, run_of_step k selects]

/-- However many frames an idle machine runs, it ends in the state that the first of them leaves. -/
theorem Idles.run_frames {s : State} (h : Idles s) (k : Nat) :
    Sys2Proof.core.run (3 * (k + 1)) s = .next (afterIdleFrame s) := by
  induction k generalizing s with
  | zero => exact h.run_frame 0
  | succ k ih => rw [Nat.mul_succ, h.run_frame, ih h.next_frame, afterIdleFrame_afterIdleFrame]

/-- Settles O53: `Idles.run_frames`. -/
theorem emptyFrameIdlesForEver : Obligations.EmptyFrameIdlesForEver := by
  rintro s _ noFault atTop noSwitch rfl noneReady k
  exact Idles.run_frames ⟨noFault, atTop, noSwitch, noneReady⟩ k

end Sys2Proof.Machine

/-! The log is write-only (60_exceptions.md R285): a machine whose log starts with some earlier records does what it does
without them, and keeps them. -/

namespace Sys2Proof.Machine

/-- The state with the records `p` in its log before those it holds. -/
def State.withEarlier (p : List LogRecord) (s : State) : State := { s with log := p ++ s.log }

/-- An answer with the records `p` put first in the log of its state; `value` is what becomes of the value answered. -/
def answerWithEarlier (p : List LogRecord) {α : Type} (value : α → α) : Except State α → Except State α
  | .ok a => .ok (value a)
  | .error e => .error (e.withEarlier p)

/-- An outcome with the records `p` put first in the log of its state. -/
def outcomeWithEarlier (p : List LogRecord) : StepResult → StepResult
  | .next t => .next (t.withEarlier p)
  | .fault f => .fault f
  | .refused r => .refused r

theorem withEarlier_clearedLog (s : State) (l : List LogRecord) :
    State.withEarlier l { s with log := [] } = { s with log := l } := by
  simp [State.withEarlier]

section
variable (p : List LogRecord) (s : State)

/-! Registers, logging and the host interface. -/

theorem raise_withEarlier (f : FatalFault) : raise (s.withEarlier p) f = (raise s f).withEarlier p := by
  simp [raise, State.withEarlier]

theorem logSoft_withEarlier (c : SoftCondition) : logSoft (s.withEarlier p) c = (logSoft s c).withEarlier p := by
  simp [logSoft, State.withEarlier]

theorem resolvePage_withEarlier (id : Byte) :
    resolvePage (s.withEarlier p) id = ((resolvePage s id).1, (resolvePage s id).2.withEarlier p) := by
  unfold resolvePage
  split
  next page => rfl
  next noPage =>
    split
    next pointer2 => rfl
    next other =>
      split
      next pointer3 => rfl
      next invalid => exact congrArg (Prod.mk 0) (logSoft_withEarlier ..)

theorem condJump_withEarlier (cc : Byte) (b a target : Word) :
    condJump (s.withEarlier p) cc b a target = (condJump s cc b a target).withEarlier p := by
  rw [condJump_state, condJump_state]
  by_cases h : comparator cc < 6 <;> simp [State.withEarlier, h]

theorem fetchFault_withEarlier (used : Nat) (decremented : Option Byte) :
    fetchFault (s.withEarlier p) used decremented = (fetchFault s used decremented).withEarlier p := by
  cases decremented with
  | none => exact raise_withEarlier p (fetched s used) _
  | some d => exact raise_withEarlier p (setVar (fetched s used) d _) _

theorem loadMemoryEntry_withEarlier (a : LoadAnswer) (id : Word) :
    loadMemoryEntry a id (s.withEarlier p) = (loadMemoryEntry a id s).withEarlier p := by
  unfold loadMemoryEntry
  dsimp only
  split
  next loaded => rfl
  next failed => exact raise_withEarlier p { ask s (.loadMemoryEntry id) with mem := _ } _

/-! Reads. -/

theorem segRead8_withEarlier (g : Segment) (off : Nat) :
    segRead8 (s.withEarlier p) g off = answerWithEarlier p id (segRead8 s g off) := by
  unfold segRead8
  rw [raise_withEarlier, apply_ite (answerWithEarlier p id)]
  rfl

theorem segRead16_withEarlier (g : Segment) (off : Nat) :
    segRead16 (s.withEarlier p) g off = answerWithEarlier p id (segRead16 s g off) := by
  unfold segRead16
  rw [raise_withEarlier, apply_ite (answerWithEarlier p id)]
  rfl

theorem fetchWindow_withEarlier : fetchWindow (s.withEarlier p) = fetchWindow s :=
  window_congr (s := s) (s' := s.withEarlier p) .bytecode rfl rfl rfl ..

variable {p s}

theorem answerWithEarlier_bind {α β : Type} {r r' : Except State α} {k k' : α → Except State β} {f : α → α} {g : β → β}
    (first : r' = answerWithEarlier p f r) (rest : ∀ a, k' (f a) = answerWithEarlier p g (k a)) :
    r' >>= k' = answerWithEarlier p g (r >>= k) := by
  subst first
  cases r with
  | error e => rfl
  | ok a => exact rest a

/-- After a read, which answers the same value under both logs. -/
theorem answerWithEarlier_bind_read {α β : Type} {r r' : Except State α} {k k' : α → Except State β} {g : β → β}
    (read : r' = answerWithEarlier p id r) (rest : ∀ a, k' a = answerWithEarlier p g (k a)) :
    r' >>= k' = answerWithEarlier p g (r >>= k) :=
  answerWithEarlier_bind read rest

variable (p s)

theorem polyByte_withEarlier (g : Segment) (dp : Nat) :
    polyByte (s.withEarlier p) g dp = answerWithEarlier p id (polyByte s g dp) := by
  rw [polyByte_eq, polyByte_eq]
  exact answerWithEarlier_bind_read (segRead8_withEarlier ..) fun _ => rfl

theorem polyWord_withEarlier (g : Segment) (dp : Nat) :
    polyWord (s.withEarlier p) g dp = answerWithEarlier p id (polyWord s g dp) := by
  rw [polyWord_eq, polyWord_eq]
  exact answerWithEarlier_bind_read (segRead16_withEarlier ..) fun _ => rfl

theorem readPoints_withEarlier (g : Segment) (zoom : Word) (dp n : Nat) :
    readPoints (s.withEarlier p) g zoom dp n = answerWithEarlier p id (readPoints s g zoom dp n) := by
  induction n generalizing dp with
  | zero => rfl
  | succ n ih =>
    exact answerWithEarlier_bind_read (polyByte_withEarlier ..) fun _ =>
      answerWithEarlier_bind_read (polyByte_withEarlier ..) fun _ => answerWithEarlier_bind_read (ih _) fun _ => rfl

theorem readVertices_withEarlier (g : Segment) (zoom : Word) (dp : Nat) :
    readVertices (s.withEarlier p) g zoom dp = answerWithEarlier p id (readVertices s g zoom dp) := by
  refine answerWithEarlier_bind_read (polyByte_withEarlier ..) fun _ =>
    answerWithEarlier_bind_read (polyByte_withEarlier ..) fun _ =>
    answerWithEarlier_bind_read (polyByte_withEarlier ..) fun _ => ?_
  dsimp only
  split
  next badCount => exact congrArg Except.error (raise_withEarlier ..)
  next goodCount => exact answerWithEarlier_bind_read (readPoints_withEarlier ..) fun _ => rfl

theorem readChild_withEarlier (g : Segment) (zoom x y : Word) (dp : Nat) :
    readChild (s.withEarlier p) g zoom x y dp = answerWithEarlier p id (readChild s g zoom x y dp) := by
  refine answerWithEarlier_bind_read (polyWord_withEarlier ..) fun _ =>
    answerWithEarlier_bind_read (polyByte_withEarlier ..) fun _ =>
    answerWithEarlier_bind_read (polyByte_withEarlier ..) fun _ => ?_
  dsimp only
  split
  · exact answerWithEarlier_bind_read (polyByte_withEarlier ..) fun _ =>
      answerWithEarlier_bind_read (polyByte_withEarlier ..) fun _ => rfl
  · rfl

end

/-! Draws. -/

/-- A way to draw records does with earlier records in the log what it does without them. -/
def DrawsUnderEarlier (p : List LogRecord) (draw : DrawRecord) : Prop :=
  ∀ (s : State) (colour : Byte) (x y : Word) (dp : Nat),
    draw (s.withEarlier p) colour x y dp = answerWithEarlier p (State.withEarlier p) (draw s colour x y dp)

section
variable {p : List LogRecord} {draw : DrawRecord}

theorem drawChildren_withEarlier (hd : DrawsUnderEarlier p draw) (g : Segment) (zoom x y : Word) (n : Nat) (s : State)
    (dp : Nat) :
    drawChildren draw g zoom x y n (s.withEarlier p) dp =
      answerWithEarlier p (State.withEarlier p) (drawChildren draw g zoom x y n s dp) := by
  induction n generalizing s dp with
  | zero => rfl
  | succ n ih =>
    exact answerWithEarlier_bind_read (readChild_withEarlier ..) fun c =>
      answerWithEarlier_bind (hd s c.colour c.x c.y c.off) fun t => ih t c.dp

theorem drawHierarchy_withEarlier (hd : DrawsUnderEarlier p draw) (g : Segment) (zoom : Word) (s : State) (x y : Word)
    (dp : Nat) :
    drawHierarchy draw g zoom (s.withEarlier p) x y dp =
      answerWithEarlier p (State.withEarlier p) (drawHierarchy draw g zoom s x y dp) :=
  answerWithEarlier_bind_read (polyByte_withEarlier ..) fun _ =>
    answerWithEarlier_bind_read (polyByte_withEarlier ..) fun _ =>
    answerWithEarlier_bind_read (polyByte_withEarlier ..) fun _ => drawChildren_withEarlier hd ..

theorem readAndDraw_withEarlier (p : List LogRecord) (g : Segment) (zoom : Word) (depth : Nat) :
    DrawsUnderEarlier p (readAndDraw g zoom depth) := by
  have record : ∀ depth : Nat,
      (∀ (s : State) (x y : Word) (dp : Nat), openHierarchy g zoom depth (s.withEarlier p) x y dp =
        answerWithEarlier p (State.withEarlier p) (openHierarchy g zoom depth s x y dp)) →
      DrawsUnderEarlier p (readAndDraw g zoom depth) := by
    intro depth opened s colour x y dp
    rw [readAndDraw_eq, readAndDraw_eq]
    refine answerWithEarlier_bind_read (polyByte_withEarlier ..) fun i => ?_
    split
    next direct => exact answerWithEarlier_bind_read (readVertices_withEarlier ..) fun _ => rfl
    next other =>
      split
      next hierarchy => exact opened ..
      next bad => exact congrArg Except.ok (logSoft_withEarlier ..)
  induction depth with
  | zero => exact record 0 fun _ _ _ _ => congrArg Except.error (raise_withEarlier ..)
  | succ d ih => exact record (d + 1) fun _ _ _ _ => drawHierarchy_withEarlier ih ..

end

section
variable (p : List LogRecord) (s : State)

theorem settle_withEarlier {r r' : Except State State} (h : r' = answerWithEarlier p (State.withEarlier p) r) :
    settle r' = outcomeWithEarlier p (settle r) := by
  subst h
  cases r <;> rfl

/-! The steps of `blit`. -/

theorem updateAliases_withEarlier (id : Byte) :
    updateAliases id (s.withEarlier p) = (updateAliases id s).withEarlier p := by
  unfold updateAliases
  rw [resolvePage_withEarlier]
  split
  · rfl
  · split <;> rfl

/-- One turn of the loop of `ApplyPalette()` (43_video_page.md R178). -/
theorem loadPalette_succ (n : Nat) :
    loadPalette s (n + 1) = segRead8 s .palette (32 * s.reqPal.toNat + (31 - n)) >>= fun b =>
      loadPalette { s with curPal := s.curPal.set (31 - n) b } n := by
  rw [loadPalette]
  cases segRead8 s .palette (32 * s.reqPal.toNat + (31 - n)) <;> rfl

theorem loadPalette_withEarlier (n : Nat) :
    loadPalette (s.withEarlier p) n = answerWithEarlier p (State.withEarlier p) (loadPalette s n) := by
  induction n generalizing s with
  | zero => rfl
  | succ n ih =>
    rw [loadPalette_succ, loadPalette_succ]
    exact answerWithEarlier_bind_read (segRead8_withEarlier ..) fun b =>
      ih { s with curPal := s.curPal.set (31 - n) b }

theorem applyPalette_withEarlier :
    applyPalette (s.withEarlier p) = answerWithEarlier p (State.withEarlier p) (applyPalette s) := by
  unfold applyPalette
  rw [loadPalette_withEarlier, apply_ite (answerWithEarlier p _)]
  refine if_congr Iff.rfl rfl ?_
  cases loadPalette s 32 <;> rfl

theorem blitWith_withEarlier (clock : Nat → Nat) (page : Byte) :
    blitWith clock page (s.withEarlier p) = answerWithEarlier p (State.withEarlier p) (blitWith clock page s) := by
  have beforePalette : updateAliases page (pace clock (s.withEarlier p)) =
      (updateAliases page (pace clock s)).withEarlier p := updateAliases_withEarlier p (pace clock s) page
  unfold blitWith
  rw [beforePalette, applyPalette_withEarlier]
  cases applyPalette (updateAliases page (pace clock s)) <;> rfl

/-! Instructions and steps. -/

/-- No instruction reads the log. -/
theorem exec_withEarlier (i : Instr) : exec i (s.withEarlier p) = outcomeWithEarlier p (exec i s) := by
  cases i with
  | movi | mov | addi | ori | jmp | pause | kill => rfl
  | illegal op => exact congrArg _ (raise_withEarlier ..)
  | jnz d target =>
    simp only [exec, execJnz, outcomeWithEarlier, apply_ite (State.withEarlier p)]
    rfl
  | condJmpVar | condJmpImm16 | condJmpImm8 => exact congrArg _ (condJump_withEarlier ..)
  | call target =>
    simp only [exec, execCall, raise_withEarlier, apply_dite (outcomeWithEarlier p)]
    rfl
  | ret =>
    simp only [exec, execRet, raise_withEarlier, apply_dite (outcomeWithEarlier p)]
    rfl
  | setvec id off =>
    simp only [exec, execSetvec, raise_withEarlier, apply_dite (outcomeWithEarlier p)]
    rfl
  | thrctl first last mode =>
    simp only [exec, execThrctl, raise_withEarlier, apply_ite (outcomeWithEarlier p)]
    refine if_congr Iff.rfl rfl ?_
    split <;> rfl
  | setpal w =>
    simp only [exec, execSetpal, logSoft_withEarlier, apply_ite (outcomeWithEarlier p)]
    rfl
  | selpage page =>
    simp only [exec, execSelpage, resolvePage_withEarlier]
    rfl
  | fillpage page colour =>
    simp only [exec, execFillpage, resolvePage_withEarlier]
    rfl
  | copypage src dst =>
    simp only [exec, execCopypage, resolvePage_withEarlier, apply_ite (outcomeWithEarlier p)]
    rfl
  | blit page => exact settle_withEarlier p (blitWith_withEarlier ..)
  | update id =>
    simp only [exec, execUpdate, loadMemoryEntry_withEarlier, apply_ite (outcomeWithEarlier p)]
    rfl
  | spoly | bpoly => exact settle_withEarlier p (readAndDraw_withEarlier ..)

theorem executeOne_withEarlier : executeOne (s.withEarlier p) = outcomeWithEarlier p (executeOne s) := by
  unfold executeOne
  rw [fetchWindow_withEarlier, apply_ite (outcomeWithEarlier p)]
  refine if_congr Iff.rfl rfl ?_
  cases decode (fetchWindow s) with
  | instr i n => exact exec_withEarlier p (fetched s n) i
  | truncated used decremented => exact congrArg _ (fetchFault_withEarlier ..)

theorem switchPart_withEarlier (a : SetupAnswer) :
    switchPart a (s.withEarlier p) = outcomeWithEarlier p (switchPart a s) := by
  unfold switchPart
  split
  next mapped =>
    rw [apply_ite (outcomeWithEarlier p)]
    rfl
  next failed => exact congrArg _ (raise_withEarlier p (mapPart a s) _)

theorem partSwitchStep_withEarlier : partSwitchStep (s.withEarlier p) = outcomeWithEarlier p (partSwitchStep s) := by
  unfold partSwitchStep
  rw [apply_ite (outcomeWithEarlier p), switchPart_withEarlier]
  rfl

theorem commitStep_withEarlier : commitStep (s.withEarlier p) = (commitStep s).withEarlier p := by
  simp only [commitStep, applyPending, State.withEarlier]

theorem selectStep_withEarlier (n : Nat) : selectStep (s.withEarlier p) n = (selectStep s n).withEarlier p := by
  have same : firstReady (s.withEarlier p) n = firstReady s n := rfl
  unfold selectStep
  rw [same]
  cases firstReady s n <;> rfl

/-- No step reads the log: with earlier records in it, a step does the same and keeps them. -/
theorem step_withEarlier : step (s.withEarlier p) = outcomeWithEarlier p (step s) := by
  by_cases noFault : s.fault = none
  case neg => rw [step_halted noFault, step_halted (s := s.withEarlier p) noFault, outcomeWithEarlier]
  cases phase : s.phase with
  | frameTop =>
    rw [step_frameTop noFault phase, step_frameTop (s := s.withEarlier p) noFault phase, partSwitchStep_withEarlier]
  | commit =>
    rw [step_commit noFault phase, step_commit (s := s.withEarlier p) noFault phase, commitStep_withEarlier]
    rfl
  | select n =>
    rw [step_select noFault phase, step_select (s := s.withEarlier p) noFault phase, selectStep_withEarlier]
    rfl
  | slice =>
    cases yield : s.yield with
    | true =>
      rw [step_slice_end noFault phase yield, step_slice_end (s := s.withEarlier p) noFault phase yield]
      rfl
    | false =>
      rw [step_slice noFault phase yield, step_slice (s := s.withEarlier p) noFault phase yield, executeOne_withEarlier]

end

/-- Settles O47: by `step_withEarlier`, a step from any log is the step from the empty log, and what the latter logs is
appended. -/
theorem logIsWriteOnly : Obligations.LogIsWriteOnly := by
  refine ⟨fun _ _ => rfl, fun s l => ?_⟩
  have fromEmpty : ∀ log, step { s with log := log } = outcomeWithEarlier log (step { s with log := [] }) := fun log => by
    rw [← withEarlier_clearedLog s log, step_withEarlier]
  rw [fromEmpty l, show step s = _ from fromEmpty s.log]
  cases step { s with log := [] } with
  | next t => exact ⟨t.log, rfl, rfl⟩
  | fault f => rfl
  | refused r => rfl

end Sys2Proof.Machine

/-! Encoding and decoding: what decodes is the encoding it was read from, an encoding decodes to its instruction, and one
cut short fails at the fetch it is cut in (30_encoding.md R91 to R100, R110 to R112). -/

namespace Sys2Proof

open Sys2Proof.Machine

/-! An encoding decodes to its instruction. -/

/-- Decoding an encoding, whatever follows it: the format of each opcode byte takes its fields apart again. -/
theorem decode_encode (i : Instr) (rest : List Byte) (wf : i.wellFormed = true) :
    decode (encode i ++ rest) = .instr i (encode i).length := by
  cases i with
  | movi | addi | ori | call | jmp | setvec | jnz | setpal | update =>
    rw [encode, List.cons_append, decode_of_bits_clear rfl rfl]
    simp [decodeTable, decodeBW, decodeW]
  | mov | ret | pause | thrctl | selpage | fillpage | copypage | blit | kill => rfl
  | condJmpVar cc a b target =>
    exact (decode_condJmp _).trans (by simp [decodeCond_var wf, encode])
  | condJmpImm16 cc a imm target =>
    simp only [Instr.wellFormed, Bool.and_eq_true, Bool.not_eq_true'] at wf
    exact (decode_condJmp _).trans (by simp [decodeCond_imm16 wf.1 wf.2, encode])
  | condJmpImm8 cc a imm target =>
    simp only [Instr.wellFormed, Bool.and_eq_true, Bool.not_eq_true'] at wf
    exact (decode_condJmp _).trans (by simp [decodeCond_imm8 wf.1 wf.2, encode])
  | spoly off x y zoom =>
    refine (decode_spoly (highByte off) (lowByte off) x y zoom rest).trans ?_
    rw [bigEndian_highByte_lowByte, encode]
    simp only [List.length_cons, List.length_append]
    congr 1
    omega
  | bpoly off x y =>
    rw [encode, List.cons_append, decode_of_bit7 (bpolyOpcode_bit7 off)]
    simp [decodeBpoly]
  | illegal op => exact decode_illegal op rest wf

/-- Settles O1, by `decode_encode`. -/
theorem decodeEncodeRoundTrip : Obligations.DecodeEncodeRoundTrip := decode_encode

/-! What decodes is the encoding it was read from. -/

/-- The answer of a decoder on `bytes`: an instruction is well formed, takes as many bytes as its encoding has, and they
are the first of `bytes`. -/
def Decoded.ReadFrom (bytes : List Byte) : Decoded → Prop
  | .instr i n => i.wellFormed = true ∧ n = (encode i).length ∧ encode i <+: bytes
  | .truncated _ _ => True

theorem decodeB_readFrom {op : Byte} {mk : Byte → Instr} (wf : ∀ a, (mk a).wellFormed = true)
    (enc : ∀ a, encode (mk a) = [op, a]) (r : List Byte) : (decodeB mk r).ReadFrom (op :: r) := by
  match r with
  | [] => trivial
  | a :: _ => exact ⟨wf a, by simp [enc], by simp [enc]⟩

theorem decodeBB_readFrom {op : Byte} {mk : Byte → Byte → Instr} (wf : ∀ a b, (mk a b).wellFormed = true)
    (enc : ∀ a b, encode (mk a b) = [op, a, b]) (r : List Byte) : (decodeBB mk r).ReadFrom (op :: r) := by
  match r with
  | [] | [_] => trivial
  | a :: b :: _ => exact ⟨wf a b, by simp [enc], by simp [enc]⟩

theorem decodeBBB_readFrom {op : Byte} {mk : Byte → Byte → Byte → Instr} (wf : ∀ a b c, (mk a b c).wellFormed = true)
    (enc : ∀ a b c, encode (mk a b c) = [op, a, b, c]) (r : List Byte) : (decodeBBB mk r).ReadFrom (op :: r) := by
  match r with
  | [] | [_] | [_, _] => trivial
  | a :: b :: c :: _ => exact ⟨wf a b c, by simp [enc], by simp [enc]⟩

theorem decodeW_readFrom {op : Byte} {mk : Word → Instr} (wf : ∀ w, (mk w).wellFormed = true)
    (enc : ∀ w, encode (mk w) = [op, highByte w, lowByte w]) (r : List Byte) : (decodeW mk r).ReadFrom (op :: r) := by
  match r with
  | [] | [_] => trivial
  | h :: l :: _ => exact ⟨wf _, by simp [enc], by simp [enc]⟩

theorem decodeBW_readFrom {op : Byte} {mk : Byte → Word → Instr} {before : Byte → Option Byte}
    (wf : ∀ a w, (mk a w).wellFormed = true) (enc : ∀ a w, encode (mk a w) = [op, a, highByte w, lowByte w])
    (r : List Byte) : (decodeBW mk before r).ReadFrom (op :: r) := by
  match r with
  | [] | [_] | [_, _] => trivial
  | a :: h :: l :: _ => exact ⟨wf a _, by simp [enc], by simp [enc]⟩

/-- The target word of `cond_jmp` behind the bytes `front`. -/
theorem decodeTarget_readFrom {front : List Byte} {mk : Word → Instr} {used : Nat} (hused : front.length = used)
    (wf : ∀ w, (mk w).wellFormed = true) (enc : ∀ w, encode (mk w) = front ++ [highByte w, lowByte w]) (r : List Byte) :
    (decodeTarget mk used r).ReadFrom (front ++ r) := by
  subst hused
  match r with
  | [] | [_] => trivial
  | h :: l :: _ => exact ⟨wf _, by simp [enc], by simp [enc]⟩

theorem decodeCond_readFrom (r : List Byte) : (decodeCond r).ReadFrom (0x0A :: r) := by
  match r with
  | [] | [_] | [_, _] => trivial
  | cc :: a :: opd :: r =>
    have imm16 {imm target} (h7 : ¬ cc.getLsbD 7 = true) (h6 : cc.getLsbD 6 = true) :
        (Instr.condJmpImm16 cc a imm target).wellFormed = true := by simp only [Instr.wellFormed, h7, h6]; rfl
    have imm8 {target} (h7 : ¬ cc.getLsbD 7 = true) (h6 : ¬ cc.getLsbD 6 = true) :
        (Instr.condJmpImm8 cc a opd target).wellFormed = true := by simp only [Instr.wellFormed, h7, h6]; rfl
    simp only [decodeCond]
    split
    next h7 =>
      exact decodeTarget_readFrom (front := [0x0A, cc, a, opd]) (mk := .condJmpVar cc a opd) rfl (fun _ => h7)
        (fun _ => rfl) r
    next h7 =>
      split
      next h6 =>
        match r with
        | [] => trivial
        | lo :: r' =>
          exact decodeTarget_readFrom (front := [0x0A, cc, a, opd, lo]) rfl (fun _ => imm16 h7 h6)
            (fun _ => by simp [encode]) r'
      next h6 =>
        exact decodeTarget_readFrom (front := [0x0A, cc, a, opd]) (mk := .condJmpImm8 cc a opd) rfl
          (fun _ => imm8 h7 h6) (fun _ => rfl) r

theorem decodeBpoly_readFrom {op : Byte} (h7 : op.getLsbD 7 = true) (r : List Byte) :
    (decodeBpoly op r).ReadFrom (op :: r) := by
  match r with
  | [] | [_] | [_, _] => trivial
  | lo :: x :: y :: _ => exact ⟨rfl, rfl, by simp [encode, bpolyOpcode_field op lo h7, bpolyField_low]⟩

/-- The four modes of a field of `spoly` (R99). -/
theorem mode_cases (mode : BitVec 2) : mode = 0 ∨ mode = 1 ∨ mode = 2 ∨ mode = 3 := by
  revert mode
  decide

/-- An x field decoded is the encoding of its mode and bytes. -/
theorem encode_of_decodeX {mode : BitVec 2} {used u : Nat} {r r' : List Byte} {x : XField}
    (h : decodeX mode used r = .ok (x, u, r')) :
    x.encode.1 = mode ∧ r = x.encode.2 ++ r' ∧ u = used + x.encode.2.length := by
  rcases mode_cases mode with rfl | rfl | rfl | rfl <;> rcases r with _ | ⟨b, _ | ⟨c, r⟩⟩ <;> cases h <;>
    simp [XField.encode]

/-- A y field decoded is the encoding of its mode and bytes. -/
theorem encode_of_decodeY {mode : BitVec 2} {used u : Nat} {r r' : List Byte} {y : YField}
    (h : decodeY mode used r = .ok (y, u, r')) :
    y.encode.1 = mode ∧ r = y.encode.2 ++ r' ∧ u = used + y.encode.2.length := by
  rcases mode_cases mode with rfl | rfl | rfl | rfl <;> rcases r with _ | ⟨b, _ | ⟨c, r⟩⟩ <;> cases h <;>
    simp [YField.encode]

/-- A zoom field decoded is the encoding of its mode and bytes. -/
theorem encode_of_decodeZoom {mode : BitVec 2} {used u : Nat} {r r' : List Byte} {z : ZoomField}
    (h : decodeZoom mode used r = .ok (z, u, r')) :
    z.encode.1 = mode ∧ r = z.encode.2 ++ r' ∧ u = used + z.encode.2.length := by
  rcases mode_cases mode with rfl | rfl | rfl | rfl <;> rcases r with _ | ⟨b, r⟩ <;> cases h <;>
    simp [ZoomField.encode]

theorem decodeSpoly_readFrom {op : Byte} (h7 : op.getLsbD 7 = false) (h6 : op.getLsbD 6 = true) (r : List Byte) :
    (decodeSpoly op r).ReadFrom (op :: r) := by
  unfold decodeSpoly
  split
  next h l r =>
    split
    next => trivial
    next x u r₁ hx =>
      split
      next => trivial
      next y u r₂ hy =>
        split
        next => trivial
        next z u r₃ hz =>
          obtain ⟨xMode, rfl, rfl⟩ := encode_of_decodeX hx
          obtain ⟨yMode, rfl, rfl⟩ := encode_of_decodeY hy
          obtain ⟨zMode, rfl, rfl⟩ := encode_of_decodeZoom hz
          refine ⟨rfl, by simp only [encode, List.length_cons, List.length_append]; omega, r₃, ?_⟩
          simp [encode, xMode, yMode, zMode, spolyOpcode_modes op h7 h6]
  next => trivial

/-- An opcode byte below 0x40 that no row of the table holds is illegal (R110). -/
theorem illegalOpcode_of_not_row : ∀ op : Byte, op.getLsbD 7 = false → op.getLsbD 6 = false →
    op.toNat ∉ [0, 1, 3, 4, 5, 6, 7, 8, 9, 10, 11, 12, 13, 14, 15, 16, 17, 0x15, 0x19] → illegalOpcode op = true := by
  decide

/-- The opcode byte of a row of the table. -/
theorem eq_of_row {op : Byte} {k : Nat} (h : op.toNat = k) : op = BitVec.ofNat 8 k :=
  h ▸ BitVec.eq_of_toNat_eq (by simp)

theorem decodeTable_readFrom {op : Byte} (h7 : op.getLsbD 7 = false) (h6 : op.getLsbD 6 = false) (r : List Byte) :
    (decodeTable op r).ReadFrom (op :: r) := by
  unfold decodeTable
  split
  case h_1 row | h_3 row | h_8 row | h_9 row | h_18 row =>
    obtain rfl := eq_of_row row
    exact decodeBW_readFrom (fun _ _ => rfl) (fun _ _ => rfl) r
  case h_2 row | h_14 row | h_15 row =>
    obtain rfl := eq_of_row row
    exact decodeBB_readFrom (fun _ _ => rfl) (fun _ _ => rfl) r
  case h_4 row | h_7 row | h_11 row | h_19 row =>
    obtain rfl := eq_of_row row
    exact decodeW_readFrom (fun _ => rfl) (fun _ => rfl) r
  case h_5 row | h_6 row | h_17 row =>
    obtain rfl := eq_of_row row
    exact ⟨rfl, rfl, List.prefix_append [_] r⟩
  case h_10 row =>
    obtain rfl := eq_of_row row
    exact decodeCond_readFrom r
  case h_12 row =>
    obtain rfl := eq_of_row row
    exact decodeBBB_readFrom (fun _ _ _ => rfl) (fun _ _ _ => rfl) r
  case h_13 row | h_16 row =>
    obtain rfl := eq_of_row row
    exact decodeB_readFrom (fun _ => rfl) (fun _ => rfl) r
  case h_20 =>
    refine ⟨illegalOpcode_of_not_row op h7 h6 ?_, rfl, List.prefix_append [op] r⟩
    simp_all

/-- Whatever decodes is read from its own encoding, by the format of its opcode byte. -/
theorem decode_readFrom (bytes : List Byte) : (decode bytes).ReadFrom bytes := by
  rcases bytes with _ | ⟨op, r⟩
  · trivial
  · cases h7 : op.getLsbD 7
    · cases h6 : op.getLsbD 6
      · rw [decode_of_bits_clear h7 h6]
        exact decodeTable_readFrom h7 h6 r
      · rw [decode_of_bit6 h7 h6]
        exact decodeSpoly_readFrom h7 h6 r
    · rw [decode_of_bit7 h7]
      exact decodeBpoly_readFrom h7 r

/-- The bytes that decode to an instruction are its encoding and what follows it. -/
theorem eq_encode_append_of_decode {bytes : List Byte} {i : Instr} {n : Nat} (h : decode bytes = .instr i n) :
    i.wellFormed = true ∧ n = (encode i).length ∧ ∃ rest, encode i ++ rest = bytes := by
  have read := decode_readFrom bytes
  rwa [h] at read

/-- Settles O2: each format reads its instruction from that instruction's encoding. -/
theorem decodedBytesAreTheEncoding : Obligations.DecodedBytesAreTheEncoding := by
  intro bytes i n h
  obtain ⟨wf, rfl, rest, rfl⟩ := eq_encode_append_of_decode h
  exact ⟨wf, by simp, by simp⟩

/-! The length from the first bytes. -/

theorem length_xField (x : XField) : x.encode.2.length = if x.encode.1 = 0 then 2 else 1 := by
  cases x <;> rfl

theorem length_yField (y : YField) : y.encode.2.length = if y.encode.1 = 0 then 2 else 1 := by
  cases y <;> rfl

theorem length_zoomField (z : ZoomField) :
    z.encode.2.length = if z.encode.1 = 1 ∨ z.encode.1 = 2 then 1 else 0 := by
  cases z <;> rfl

theorem encode_length_bounds (i : Instr) : 1 ≤ (encode i).length ∧ (encode i).length ≤ 8 := by
  cases i with
  | spoly off x y zoom =>
    simp only [encode, List.length_cons, List.length_append, length_xField, length_yField, length_zoomField]
    grind
  | _ => simp [encode]

/-- The length of every instruction with an opcode byte below 0x40, `cond_jmp` apart (R91, R95). -/
def tableLength (op : Byte) : Nat :=
  if op.toNat ∈ [0x0D, 0x10] then 2
  else if op.toNat ∈ [0x01, 0x04, 0x07, 0x0B, 0x0E, 0x0F, 0x19] then 3
  else if op.toNat ∈ [0x00, 0x03, 0x08, 0x09, 0x0C, 0x15] then 4
  else 1

theorem tableLength_illegal : ∀ op : Byte, illegalOpcode op = true → tableLength op = 1 := by
  decide

theorem bpolyOpcode_ge (off : BitVec 15) : 0x40 ≤ (bpolyOpcode off).toNat := by
  rw [bpolyOpcode_toNat]
  omega

theorem spolyOpcode_ge (x y z : BitVec 2) : 0x40 ≤ (spolyOpcode x y z).toNat := by
  rw [spolyOpcode_toNat]
  omega

theorem encode_length_of_table {op : Byte} {i : Instr} {r rest : List Byte} (wf : i.wellFormed = true)
    (h : encode i ++ rest = op :: r) (table : op.toNat < 0x40) (notCond : op ≠ 0x0A) :
    (encode i).length = tableLength op := by
  cases i with
  | condJmpVar | condJmpImm16 | condJmpImm8 =>
    cases h
    exact absurd rfl notCond
  | spoly =>
    cases h
    exact absurd (spolyOpcode_ge ..) (Nat.not_le.2 table)
  | bpoly =>
    cases h
    exact absurd (bpolyOpcode_ge ..) (Nat.not_le.2 table)
  | illegal op =>
    cases h
    exact (tableLength_illegal op wf).symm
  | _ =>
    cases h
    rfl

/-- `cond_jmp` has 7 bytes in the form with a 16-bit immediate and else 6 (R97, R100). -/
theorem encode_length_of_cond {i : Instr} {r rest : List Byte} (wf : i.wellFormed = true)
    (h : encode i ++ rest = 0x0A :: r) :
    ∃ cc r', r = cc :: r' ∧
      (encode i).length = if cc.getLsbD 7 = false ∧ cc.getLsbD 6 = true then 7 else 6 := by
  cases i with
  | condJmpVar cc a b target =>
    cases h
    exact ⟨cc, _, rfl, by simp_all [Instr.wellFormed, encode]⟩
  | condJmpImm16 cc a imm target =>
    cases h
    exact ⟨cc, _, rfl, by simp_all [Instr.wellFormed, encode]⟩
  | condJmpImm8 cc a imm target =>
    cases h
    exact ⟨cc, _, rfl, by simp_all [Instr.wellFormed, encode]⟩
  | spoly off x y zoom =>
    simp only [encode, List.cons_append, List.cons.injEq] at h
    exact absurd (spolyOpcode_ge x.encode.1 y.encode.1 zoom.encode.1) (by simp [h.1])
  | bpoly off x y =>
    simp only [encode, List.cons_append, List.cons.injEq] at h
    exact absurd (bpolyOpcode_ge off) (by simp [h.1])
  | illegal op =>
    cases h
    cases wf
  | _ => cases h

/-- Settles O5: a decoded instruction's length is that of its encoding, which begins with the opcode byte. -/
theorem lengthFromFirstBytes : Obligations.LengthFromFirstBytes := by
  intro op r i n h
  obtain ⟨wf, rfl, rest, bytes⟩ := eq_encode_append_of_decode h
  refine ⟨(encode_length_bounds i).1, (encode_length_bounds i).2, fun h7 => ?bpoly, fun h7 h6 => ?spoly, ?cond,
    fun table notCond r' i' n' h' => ?table⟩
  case bpoly =>
    rw [decode_of_bit7 h7] at h
    unfold decodeBpoly at h
    split at h <;> cases h
    rfl
  case spoly =>
    obtain ⟨off, x, y, z, rfl⟩ := decodeSpoly_instr (by rwa [decode_of_bit6 h7 h6] at h)
    cases bytes
    simp only [encode, List.length_cons, List.length_append, length_xField, length_yField, length_zoomField,
      modeBits_spolyOpcode_x, modeBits_spolyOpcode_y, modeBits_spolyOpcode_z]
    omega
  case cond =>
    rintro rfl
    exact encode_length_of_cond wf bytes
  case table =>
    obtain ⟨wf', rfl, rest', bytes'⟩ := eq_encode_append_of_decode h'
    rw [encode_length_of_table wf bytes table notCond, encode_length_of_table wf' bytes' table notCond]

/-- Settles O6: the decoder run on each of the eight byte strings. -/
theorem knownWordsDecode : Obligations.KnownWordsDecode := by
  refine ⟨?_, ?_, ?_, ?_, ?_, ?_, ?_, ?_⟩ <;> decide

end Sys2Proof

/-! Encodings cut short, and the step on the bytes at `pc` (30_encoding.md R93; 47_scheduler.md R255). -/

namespace Sys2Proof

open Sys2Proof.Machine

/-- The variable that has been counted down when the fetch fails of which the first `k` bytes are readable: that of `jnz`,
its variable byte read (41_control_transfer.md R137). -/
def countedDown (k : Nat) : Instr → Option Byte
  | .jnz d _ => if 2 ≤ k then some d else none
  | _ => none

theorem countedDown_of_not_jnz {i : Instr} (k : Nat) (h : ∀ d target, i ≠ .jnz d target) : countedDown k i = none := by
  cases i with
  | jnz d target => exact absurd rfl (h d target)
  | _ => rfl

/-- The failing fetch starts within the readable bytes. -/
theorem failingFetch_le {k start : Nat} (h : start ≤ k) (widths : List Nat) : failingFetch k start widths ≤ k := by
  induction widths generalizing start with
  | nil => exact h
  | cons w r ih =>
    rw [failingFetch]
    split
    · exact ih ‹_›
    · exact h

/-- Among fetches of single bytes the first byte that is not readable fails. -/
theorem failingFetch_bytes {k start n : Nat} (h : start ≤ k) (hk : k < start + n) :
    failingFetch k start (List.replicate n 1) = k := by
  induction n generalizing start with
  | zero => omega
  | succ n ih =>
    rw [List.replicate_succ, failingFetch]
    split
    · exact ih ‹_› (by omega)
    · omega

/-! The fields of `spoly`, each of byte fetches alone (45_polygon_draw.md R198). -/

theorem fetchWidths_spoly (off : Word) (x : XField) (y : YField) (z : ZoomField) :
    fetchWidths (.spoly off x y z) =
      1 :: 2 :: List.replicate (x.encode.2.length + y.encode.2.length + z.encode.2.length) 1 := by
  cases x <;> cases y <;> cases z <;> rfl

theorem decodeX_take {x : XField} {k : Nat} (h : k < x.encode.2.length) (used : Nat) :
    decodeX x.encode.1 used (x.encode.2.take k) = .error (used + k) := by
  cases x <;> simp only [XField.encode, List.length_cons, List.length_nil] at h <;> interval_cases k <;> rfl

theorem decodeY_take {y : YField} {k : Nat} (h : k < y.encode.2.length) (used : Nat) :
    decodeY y.encode.1 used (y.encode.2.take k) = .error (used + k) := by
  cases y <;> simp only [YField.encode, List.length_cons, List.length_nil] at h <;> interval_cases k <;> rfl

theorem decodeZoom_take {z : ZoomField} {k : Nat} (h : k < z.encode.2.length) (used : Nat) :
    decodeZoom z.encode.1 used (z.encode.2.take k) = .error (used + k) := by
  cases z <;> simp only [ZoomField.encode, List.length_cons, List.length_nil, not_lt_zero] at h <;> interval_cases k <;>
    rfl

theorem decodeSpoly_take (h l : Byte) {x : XField} {y : YField} {z : ZoomField} {j : Nat}
    (hj : j < x.encode.2.length + y.encode.2.length + z.encode.2.length) :
    decodeSpoly (spolyOpcode x.encode.1 y.encode.1 z.encode.1)
      (h :: l :: (x.encode.2 ++ (y.encode.2 ++ z.encode.2)).take j) = .truncated (3 + j) none := by
  simp only [decodeSpoly, modeBits_spolyOpcode_x, modeBits_spolyOpcode_y, modeBits_spolyOpcode_z]
  by_cases hx : j < x.encode.2.length
  · simp only [List.take_append_of_le_length hx.le, decodeX_take hx]
  · obtain ⟨j, rfl⟩ := Nat.exists_eq_add_of_le (not_lt.1 hx)
    simp only [List.take_length_add_append, decodeX_encode]
    by_cases hy : j < y.encode.2.length
    · simp only [List.take_append_of_le_length hy.le, decodeY_take hy, Nat.add_assoc]
    · obtain ⟨j, rfl⟩ := Nat.exists_eq_add_of_le (not_lt.1 hy)
      simp only [List.take_length_add_append, decodeY_encode, decodeZoom_take (show j < z.encode.2.length by omega),
        Nat.add_assoc]

theorem decode_spoly_take {off : Word} {x : XField} {y : YField} {z : ZoomField} {k : Nat}
    (hk : k < (encode (.spoly off x y z)).length) :
    decode ((encode (.spoly off x y z)).take k) =
      .truncated (failingFetch k 0 (fetchWidths (.spoly off x y z))) none := by
  simp only [encode, List.length_cons, List.length_append] at hk
  match k with
  | 0 => rfl
  | 1 | 2 =>
    rw [encode, List.take_succ_cons, decode_of_bit6 (spolyOpcode_bit7 ..) (spolyOpcode_bit6 ..)]
    rfl
  | j + 3 =>
    have fails : failingFetch (j + 3) 0 (fetchWidths (.spoly off x y z)) = 3 + j := by
      rw [fetchWidths_spoly, failingFetch, if_pos (by omega), failingFetch, if_pos (by omega),
        failingFetch_bytes (by omega) (by omega), Nat.add_comm]
    rw [fails, encode, List.take_succ_cons, List.take_succ_cons, List.take_succ_cons,
      decode_of_bit6 (spolyOpcode_bit7 ..) (spolyOpcode_bit6 ..), List.append_assoc, decodeSpoly_take _ _ (by omega)]

/-- An encoding cut short fails at the fetch it is cut in, with what the earlier fetches had done. -/
theorem decode_take_encode {i : Instr} {k : Nat} (wf : i.wellFormed = true) (hk : k < (encode i).length) :
    decode ((encode i).take k) = .truncated (failingFetch k 0 (fetchWidths i)) (countedDown k i) := by
  cases i with
  | spoly => exact decode_spoly_take hk
  | bpoly off x y =>
    simp only [encode, List.length_cons, List.length_nil] at hk
    interval_cases k
    · rfl
    all_goals
      rw [encode, List.take_succ_cons, decode_of_bit7 (bpolyOpcode_bit7 off)]
      rfl
  | condJmpVar cc a b target =>
    simp only [encode, List.length_cons, List.length_nil] at hk
    simp only [Instr.wellFormed] at wf
    rcases Nat.lt_or_ge k 4 with early | late
    · interval_cases k <;> rfl
    · interval_cases k <;>
      · simp only [encode, List.take_succ_cons, List.take_zero, decode_condJmp, decodeCond, wf, if_true]
        rfl
  | condJmpImm16 cc a imm target =>
    simp only [encode, List.length_cons, List.length_nil] at hk
    simp only [Instr.wellFormed, Bool.and_eq_true, Bool.not_eq_true'] at wf
    rcases Nat.lt_or_ge k 4 with early | late
    · interval_cases k <;> rfl
    · interval_cases k <;>
      · simp only [encode, List.take_succ_cons, List.take_zero, decode_condJmp, decodeCond, wf, Bool.false_eq_true, if_true,
          if_false]
        rfl
  | condJmpImm8 cc a imm target =>
    simp only [encode, List.length_cons, List.length_nil] at hk
    simp only [Instr.wellFormed, Bool.and_eq_true, Bool.not_eq_true'] at wf
    rcases Nat.lt_or_ge k 4 with early | late
    · interval_cases k <;> rfl
    · interval_cases k <;>
      · simp only [encode, List.take_succ_cons, List.take_zero, decode_condJmp, decodeCond, wf, Bool.false_eq_true,
          if_false]
        rfl
  | _ =>
    simp only [encode, List.length_cons, List.length_nil] at hk
    interval_cases k <;> rfl

/-- Settles O3: the bytes decoded are the encoding, which decodes whatever follows it, and cut short does not. -/
theorem decodeReadsOnlyItsBytes : Obligations.DecodeReadsOnlyItsBytes := by
  refine ⟨fun bytes rest i n h => ?whole, fun i k wf hk => ?cut⟩
  case whole =>
    obtain ⟨wf, rfl, after, rfl⟩ := eq_encode_append_of_decode h
    rw [List.take_left]
    exact decode_encode i rest wf
  case cut => exact ⟨_, _, decode_take_encode wf hk, failingFetch_le k.zero_le _⟩

end Sys2Proof

namespace Sys2Proof.Machine

/-- Settles O7: what decodes is well formed, and is what the step executes. -/
theorem stepRunsTheDecodedInstruction : Obligations.StepRunsTheDecodedInstruction := by
  intro s i n hfault hphase hyield hlen hdecode
  obtain ⟨wf, _⟩ := eq_encode_append_of_decode hdecode
  exact ⟨wf, by rw [step_slice hfault hphase hyield, executeOne_of_decode hlen hdecode, fetched]⟩

/-- Settles O8: what is readable at `pc` begins with the encoding, which decodes whatever follows it. -/
theorem stepRunsTheEncodedBytes : Obligations.StepRunsTheEncodedBytes := by
  intro s i hfault hphase hyield hlen wf hbytes
  rw [window_take s .bytecode s.pc.toNat (encode_length_bounds i).2] at hbytes
  have hdecode : decode (fetchWindow s) = .instr i (encode i).length := by
    rw [fetchWindow, maxLength, ← List.take_append_drop (encode i).length (window s .bytecode s.pc.toNat 8), hbytes]
    exact decode_encode i _ wf
  rw [step_slice hfault hphase hyield, executeOne_of_decode hlen hdecode, fetched]

/-- A fetch that runs off the bytecode segment is the whole step (R255; 60_exceptions.md R271). -/
theorem executeOne_of_truncated {s : State} {used : Nat} {decremented : Option Byte} (hlen : s.seg.bytecode.len ≤ 0xFFFF)
    (hdecode : decode (fetchWindow s) = .truncated used decremented) :
    executeOne s = .next (fetchFault s used decremented) := by
  have hshort : ¬ bytecodeTooLong s = true := by simpa only [bytecodeTooLong, decide_eq_true_eq, not_lt] using hlen
  simp only [executeOne, if_neg hshort, hdecode]

theorem fetchFault_state (s : State) (used : Nat) (decremented : Option Byte) :
    fetchFault s used decremented = { s with
      v := (fetchFault s used decremented).v
      insnPc := s.pc
      pc := s.pc + BitVec.ofNat 16 used
      fault := some (.segmentBounds .bytecode (s.pc.toNat + used))
      log := s.log ++ [⟨.fatal (.segmentBounds .bytecode (s.pc.toNat + used)), s.pc, s.curThr⟩] } := by
  cases decremented <;> rfl

/-- Settles O10: `decode_take_encode` says which fetch fails and what `jnz` has done by then. -/
theorem truncatedFetchFaults : Obligations.TruncatedFetchFaults := by
  rintro s i k _ hfault hphase hyield hlen wf hk hbytes rfl
  have hdecode := decode_take_encode wf hk
  rw [← hbytes] at hdecode
  refine ⟨_, (step_slice hfault hphase hyield).trans (executeOne_of_truncated hlen hdecode), fetchFault_state .., ?_, ?_⟩
  · rintro d target rfl hk2 j
    rw [countedDown, if_pos hk2]
    exact getVar_setVar (fetched s _) d j _
  · intro h
    have nothing : countedDown k i = none := by
      rcases h with h | h
      · exact countedDown_of_not_jnz k h
      · cases i with
        | jnz d target => exact if_neg (by omega)
        | _ => rfl
    rw [nothing]
    rfl

end Sys2Proof.Machine

/-! The instructions that only move data, transfer control or stage a request (40_data_alu.md, 41_control_transfer.md,
42_thread_control.md). -/

namespace Sys2Proof.Machine

/-- Settles O12: `getVar_setVar`. -/
theorem movesComplete : Obligations.MovesComplete :=
  ⟨fun d imm s => ⟨_, rfl, rfl, fun j => getVar_setVar s d j imm, fun _ => rfl⟩,
    fun d _ s => ⟨_, rfl, rfl, fun j => getVar_setVar s d j _, fun _ => rfl⟩⟩

/-- Settles O13: the sum modulo 65536 is that of the signed values. -/
theorem addiCompletes : Obligations.AddiCompletes := fun d imm s =>
  ⟨_, rfl, rfl, by rw [getVar_setVar_same, BitVec.toInt_add], fun _ other => getVar_setVar_other s _ other, fun _ => rfl⟩

/-- Settles O14: the bits of an or. -/
theorem oriCompletes : Obligations.OriCompletes := fun d mask s =>
  ⟨_, rfl, rfl, fun k => by rw [getVar_setVar_same, BitVec.getLsbD_or], fun _ other => getVar_setVar_other s _ other,
    fun _ => rfl⟩

/-- Settles O15: the two branches of `execCall`. -/
theorem callCompletes : Obligations.CallCompletes := by
  intro target s
  refine ⟨fun room => ⟨_, dif_pos room, rfl, ?sp, fun j => ?stack, fun _ => rfl⟩, fun full => dif_neg (by omega)⟩
  case sp =>
    dsimp only
    bv_omega
  case stack => simp only [Fin.getElem_fin, Vector.getElem_set, eq_comm]

/-- Settles O16: the two branches of `execRet`. -/
theorem retCompletes : Obligations.RetCompletes := by
  intro s
  refine ⟨fun j held => ⟨_, dif_neg (by omega), ?frame, ?sp, fun _ => rfl⟩, fun empty => dif_pos empty⟩
  case frame => simp only [Fin.getElem_fin, held, Nat.add_sub_cancel]
  case sp =>
    dsimp only
    have := j.isLt
    bv_omega

/-- `jnz` counts its variable down, and stays where the result is 0 (41_control_transfer.md R137). -/
theorem exec_jnz (d : Byte) (target : Word) (s : State) :
    exec (.jnz d target) s = .next { setVar s d (getVar s d - 1) with
      pc := if (getVar s d - 1).toInt = 0 then s.pc else target } := by
  have zero_iff : (getVar s d - 1).toInt = 0 ↔ getVar s d - 1 = 0 := by rw [← BitVec.toInt_inj]; rfl
  simp only [exec, execJnz]
  by_cases zero : getVar s d - 1 = 0
  · rw [if_neg (not_not.2 zero), if_pos (zero_iff.2 zero)]
    rfl
  · rw [if_pos zero, if_neg (mt zero_iff.1 zero)]
    rfl

/-- Settles O18: `exec_jnz`, the difference modulo 65536 being that of the signed values. -/
theorem jmpAndJnzComplete : Obligations.JmpAndJnzComplete := by
  refine ⟨fun target s => ⟨_, rfl, rfl, fun _ => rfl⟩, fun d target s => ⟨_, exec_jnz d target s, ?frame, ?value,
    fun _ other => getVar_setVar_other s _ other, fun _ => rfl⟩⟩
  all_goals have result : ∀ pc, getVar { setVar s d (getVar s d - 1) with pc := pc } d = getVar s d - 1 :=
    fun _ => getVar_setVar_same ..
  case frame =>
    rw [result]
    rfl
  case value =>
    rw [result]
    exact BitVec.toInt_sub

/-- Settles O21: the two branches of `execSetvec`. -/
theorem setvecCompletes : Obligations.SetvecCompletes := by
  intro id off s
  refine ⟨fun below => ⟨_, dif_pos below, rfl, fun j => ?_, fun _ => rfl⟩, fun above => dif_neg (by omega)⟩
  simp only [Fin.getElem_fin, Vector.getElem_set, eq_comm]

/-- Settles O22: both only write registers. -/
theorem pauseAndKillComplete : Obligations.PauseAndKillComplete := fun _ =>
  ⟨⟨_, rfl, rfl, fun _ => rfl⟩, ⟨_, rfl, rfl, fun _ => rfl⟩⟩

theorem setRows_getElem {α : Type} (r : Vector α 64) (first last : Nat) (x : α) {j : Nat} (hj : j < 64) :
    (setRows r first last x)[j] = if first ≤ j ∧ j ≤ last then x else r[j] := by
  simp [setRows]

theorem maskedLast_eq (last : Byte) : maskedLast last = BitVec.ofNat 8 (last.toNat % 64) := low6_eq last

/-- Settles O23: one case a mode. -/
theorem thrctlCompletes : Obligations.ThrctlCompletes := by
  intro first last mode s
  refine ⟨fun range => ?staged, fun above => ?fault⟩
  case staged =>
    rw [← maskedLast_toNat] at range ⊢
    simp only [exec, execThrctl, if_neg (not_lt.2 range)]
    split
    next mode0 => exact ⟨_, rfl, by simp only, fun j => by simp [setRows_getElem, mode0], by simp [mode0], fun _ => rfl⟩
    next mode1 => exact ⟨_, rfl, by simp only, fun j => by simp [setRows_getElem, mode1], by simp [mode1], fun _ => rfl⟩
    next mode2 => exact ⟨_, rfl, by simp only, by simp [mode2], fun j => by simp [setRows_getElem, mode2], fun _ => rfl⟩
    next not0 not1 not2 => exact ⟨_, rfl, rfl, fun j => by grind, fun j => by grind, fun _ => rfl⟩
  case fault =>
    rw [← maskedLast_toNat] at above
    rw [exec, execThrctl, if_pos above, ← maskedLast_eq]
    rfl

end Sys2Proof.Machine

/-! Video pages: `setpal`, `selpage`, `fillpage`, `copypage` and the aliases (43_video_page.md). -/

namespace Sys2Proof.Machine

/-- Settles O25: the two branches of `execSetpal`. -/
theorem setpalCompletes : Obligations.SetpalCompletes := by
  intro w id s hid
  obtain rfl : id = highByte w := BitVec.eq_of_toNat_eq (by rw [hid, highByte_toNat])
  by_cases valid : (highByte w).toNat < 32
  · exact ⟨_, if_pos valid, by simp only [if_pos valid], fun _ => rfl⟩
  · exact ⟨_, if_neg valid, by simp only [if_neg valid, logSoft], fun _ => rfl⟩

/-- Settles O26: resolving the id changes the log alone. -/
theorem selpageCompletes : Obligations.SelpageCompletes := by
  intro id s
  refine ⟨_, rfl, ?_, fun _ => by simp⟩
  dsimp only
  rw [resolvePage_state]

/-- The two nibbles of a fill (43_video_page.md R167). -/
theorem fillByte_toNat (c : Byte) : (fillByte c).toNat = (c.toNat * 16 ||| c.toNat) % 256 := by
  have hc := c.isLt
  rw [fillByte, BitVec.toNat_or, BitVec.toNat_shiftLeft, Nat.shiftLeft_eq, show 2 ^ 4 = 16 from rfl,
    show (256 : Nat) = 2 ^ 8 from rfl, Nat.or_mod_two_pow, Nat.mod_eq_of_lt (a := c.toNat) (by omega)]

theorem nibble_fillByte {c : Byte} (h : c.toNat < 16) (x : Nat) : (nibble (fillByte c) x).toNat = c.toNat := by
  have both : (fillByte c).toNat = c.toNat * 16 + c.toNat := by
    rw [fillByte_toNat, Nat.mul_comm, show (16 : Nat) = 2 ^ 4 from rfl, ← Nat.two_pow_add_eq_or_of_lt h]
    omega
  rw [nibble_toNat, both]
  split <;> omega

/-- Settles O27: the page resolved is `Page.filled`, the others are not set. -/
theorem fillpageCompletes : Obligations.FillpageCompletes := by
  intro id colour s
  refine ⟨_, rfl, ?frame, fun k hk => ?bytes, fun hc x y hx hy => ?pixels, fun p other => ?others, fun _ => by simp⟩
  case frame =>
    dsimp only
    rw [resolvePage_state]
  case bytes => simp [filled_byte _ k hk, fillByte_toNat]
  case pixels =>
    rw [pixel_eq_nibble _ _ _ hx hy]
    simp [filled_byte _ _ (show y * 160 + x / 2 < 32000 by omega), nibble_fillByte hc]
  case others =>
    have hv : ¬ (resolvePage s id).1.val = p.val := fun e => other (Fin.ext e.symm)
    simp [hv]

/-- Resolving one id changes neither the page of another nor the scroll (43_video_page.md R161, R172). -/
theorem resolvePage_page_after (s : State) (src dst : Byte) :
    (resolvePage (resolvePage s src).2 dst).1 = (resolvePage s dst).1 :=
  resolvePage_page s _ dst (resolvePage_ptr2 ..) (resolvePage_ptr3 ..)

theorem resolvePage_twice_state (s : State) (src dst : Byte) :
    (resolvePage (resolvePage s src).2 dst).2 = { s with log := (resolvePage (resolvePage s src).2 dst).2.log } := by
  conv_lhs => rw [resolvePage_state]
  simp

/-- `copypage` of two ids, from the pages they resolve to (43_video_page.md R172). -/
theorem exec_copypage_of_ne {src dst : Byte} (s : State) (ne : src ≠ dst) :
    exec (.copypage src dst) s = .next
      { s with
        pages :=
          if (resolvePage s src).1 = (resolvePage s dst).1 then s.pages
          else s.pages.set (resolvePage s dst).1.val
            (Page.scrolled s.pages[(resolvePage s src).1] s.pages[(resolvePage s dst).1] (getVar s 0xF9).toInt)
        log := (resolvePage (resolvePage s src).2 dst).2.log } := by
  simp only [exec, execCopypage, if_neg ne, resolvePage_page_after]
  split
  · rw [← resolvePage_twice_state]
  · rw [resolvePage_twice_state]
    rfl

/-- Settles O28: `exec_copypage_of_ne`, its bytes by `scrolled_byte`. -/
theorem copypageCompletes : Obligations.CopypageCompletes := by
  intro src dst s
  refine ⟨fun same => if_pos same, fun ne onePage => ?onePage, fun twoPages => ?twoPages⟩
  case onePage => exact ⟨_, exec_copypage_of_ne s ne, by simp only [if_pos onePage], fun _ => rfl⟩
  case twoPages =>
    have ne : src ≠ dst := fun e => twoPages (by rw [e])
    refine ⟨_, exec_copypage_of_ne s ne, rfl, fun y k hy hk => ?_, fun p other => ?_, fun _ => rfl⟩
    · simp only [if_neg twoPages, Fin.getElem_fin, Vector.getElem_set_self]
      exact scrolled_byte _ _ _ y k hy hk
    · have hv : ¬ (resolvePage s dst).1.val = p.val := fun e => other (Fin.ext e.symm)
      simp [if_neg twoPages, hv]

/-- Settles O30: the ranges of `resolvePage` below the aliases. -/
theorem updateAliasesTable : Obligations.UpdateAliasesTable := by
  intro s id
  refine ⟨fun alias2 => if_pos alias2, fun alias3 => by rw [alias3]; rfl, fun below => ?_⟩
  have not2 : id ≠ 0xFE := by rintro rfl; exact absurd below (by decide)
  have not3 : id ≠ 0xFF := by rintro rfl; exact absurd below (by decide)
  simp only [updateAliases, if_neg not2, if_neg not3]
  by_cases page : id.toNat < 4
  · rw [resolvePage_of_page s (p := ⟨id.toNat, page⟩) rfl]
    simp [page]
  · rw [resolvePage_of_invalid s (by omega) below]
    simp [page, logSoft]

end Sys2Proof.Machine

/-! The loader: `update` (44_resource_control.md) and the arena (20_memory.md). -/

namespace Sys2Proof.Machine

/-- Settles O46: a read of the address written, and of another. -/
theorem memoryReadAfterWrite : Obligations.MemoryReadAfterWrite := by
  intro m a b x wf
  refine ⟨Memory.wf_write wf, ?_⟩
  split
  next same => exact same ▸ Memory.read_write_same wf
  next other => exact Memory.read_write_other x m other

theorem loadMemoryEntry_state (a : LoadAnswer) (id : Word) (s : State) :
    loadMemoryEntry a id s = { s with
      mem := loaderWrites (outsideSegments s.arenaSize s.seg) a.writes s.mem
      hostTick := s.hostTick + 1
      calls := s.calls ++ [.loadMemoryEntry id]
      fault := if a.ok then s.fault else some (.loadFailed s.insnPc id)
      log := if a.ok then s.log else s.log ++ [⟨.fatal (.loadFailed s.insnPc id), s.insnPc, s.curThr⟩] } := by
  unfold loadMemoryEntry
  cases a.ok <;> rfl

/-- Settles O32: the three ranges of `execUpdate`; what the loader's writes do is `loaderWrites_wrote`. -/
theorem updateCompletes : Obligations.UpdateCompletes := by
  intro id s
  refine ⟨fun zero => if_pos zero, fun part => ⟨{ s with reqPart := id }, ?part, rfl, fun _ => rfl⟩,
    fun notZero entry => ?entry, fun ws => ⟨_, rfl, rfl, loaderWrites_wrote ..⟩,
    fun a => ⟨_, loadMemoryEntry_state a id s, rfl, loaderWrites_wrote ..⟩⟩
  case part =>
    have notZero : id ≠ 0 := by rintro rfl; exact absurd part (by decide)
    exact (if_neg notZero).trans (if_pos part)
  case entry => exact (if_neg notZero).trans (if_neg (not_le.2 entry))

end Sys2Proof.Machine

/-! The steps of the scheduler, and reset (47_scheduler.md; 70_reset_and_hazards.md section 1). -/

namespace Sys2Proof.Machine

/-- Settles O11, by induction on the number of steps. -/
theorem haltedMachineStays : Obligations.HaltedMachineStays := by
  intro s k halted
  induction k with
  | zero => rfl
  | succ k ih => rw [run_of_step k (step_halted halted), ih]

theorem switchPart_of_ok {a : SetupAnswer} {s : State} (ok : a.ok = true)
    (legal : legalMapping s.arenaSize a.segs = true) :
    switchPart a s = .next { threadReset (mapPart a s) with phase := .commit } := by
  simp only [switchPart, ok, legal, if_true]

theorem switchPart_of_failure {a : SetupAnswer} {s : State} (failed : a.ok = false) :
    switchPart a s = .next (raise (mapPart a s) (.setupFailed s.reqPart)) := by
  simp only [switchPart, failed, Bool.false_eq_true, if_false]

/-- After a commit with nothing staged and nobody held a thread gets a slice unless it is inactive (47_scheduler.md R251,
R252). -/
theorem getsSlice_commitStep_threadReset (s : State) (u : Fin 64) :
    getsSlice (commitStep (threadReset s)) u = decide (u = 0) := by
  obtain ⟨pc, redir, _, paused⟩ := threadReset_row s u
  obtain ⟨pc', _, paused'⟩ := applyPending_row (threadReset s) u
  rw [commitStep_getsSlice, Bool.eq_iff_iff, getsSlice_iff, pc', paused', pc, redir, paused]
  by_cases zero : u = 0 <;> simp [zero, commitPc]

/-- Settles O49: the branch of `switchPart` for an illegal mapping, and the length test before a fetch. -/
theorem hostOutsideContractStops : Obligations.HostOutsideContractStops := by
  refine ⟨fun s a ok illegal => ?_, fun s hfault hphase hyield long => ?_⟩
  · simp only [switchPart, ok, illegal, if_true, Bool.false_eq_true, if_false]
  · rw [step_slice hfault hphase hyield]
    exact if_pos (decide_eq_true long)

/-- Settles O52: `endSlice` writes one row of the thread table. -/
theorem sliceEndSavesPc : Obligations.SliceEndSavesPc := by
  intro s hfault hphase hyield
  refine ⟨_, step_slice_end hfault hphase hyield, rfl, fun u => ?_, fun _ => rfl⟩
  rw [endSlice_thrPc, Fin.getElem_fin, Vector.getElem_set]
  exact if_congr (by rw [Fin.ext_iff, eq_comm]) rfl rfl

/-! Reset. -/

/-- The thread table after reset is that of a part just set up (70_reset_and_hazards.md R300). -/
theorem resetWith_row (b : Boot) (u : Fin 64) :
    (State.resetWith b).thrPc[u] = (if u = 0 then 0 else 0xFFFF) ∧ (State.resetWith b).redir[u] = 0xFFFF ∧
      (State.resetWith b).pausedCur[u] = false ∧ (State.resetWith b).pausedReq[u] = false :=
  threadReset_row (State.resetWith b) u

theorem resetWith_getsSlice (b : Boot) (u : Fin 64) : getsSlice (State.resetWith b) u = decide (u = 0) := by
  obtain ⟨pc, _, paused, _⟩ := resetWith_row b u
  rw [Bool.eq_iff_iff, getsSlice_iff, pc, paused]
  by_cases zero : u = 0 <;> simp [zero]

/-- Settles O54: nothing is requested at reset, so the part switch and the commit change the phase alone. -/
theorem firstFrameStartsThreadZero : Obligations.FirstFrameStartsThreadZero := by
  intro b
  have top : step (State.resetWith b) = .next { State.resetWith b with phase := .commit } := rfl
  have commit : step { State.resetWith b with phase := .commit } =
      .next { State.resetWith b with phase := .select 0 } := by
    rw [step_commit rfl rfl, commitStep_phase_irrelevant, commitStep,
      applyPending_of_nothing_requested (fun t => (resetWith_row b t).2.1) rfl]
  have first : firstReady { State.resetWith b with phase := .select 0 } 0 = some 0 :=
    firstReady_eq_some (Nat.le_refl 0) ((resetWith_getsSlice b 0).trans rfl) (by intro _ _ h; cases h)
  have start : step { State.resetWith b with phase := .select 0 } =
      .next { State.resetWith b with curThr := 0, pc := 0, sp := 0, yield := false, phase := .slice } := by
    rw [step_select rfl rfl, selectStep_of_firstReady first]
    rfl
  refine ⟨resetWith_getsSlice b, ?_, ?_⟩
  · rw [run_of_step _ top, run_of_step _ commit]
    rfl
  · rw [run_of_step _ top, run_of_step _ commit, run_of_step _ start]
    rfl

/-- The variables with the pairs of a preset written in list order. -/
def presetVars (preset : List (Byte × Word)) (v : Vector Word 256) : Vector Word 256 :=
  preset.foldl (fun v p => v.set p.1.toNat p.2 p.1.isLt) v

theorem resetWith_v (b : Boot) :
    (State.resetWith b).v = (presetVars b.preset (Vector.replicate 256 0)).set 0x3C b.seed := rfl

theorem presetVars_other {preset : List (Byte × Word)} {i : Byte} (v : Vector Word 256) (h : ∀ p ∈ preset, p.1 ≠ i) :
    (presetVars preset v)[i.toNat]'i.isLt = v[i.toNat]'i.isLt := by
  induction preset generalizing v with
  | nil => rfl
  | cons p r ih =>
    have first : p.1.toNat ≠ i.toNat := fun e => h p (by simp) (BitVec.eq_of_toNat_eq e)
    refine (ih _ fun q hq => h q (by simp [hq])).trans ?_
    rw [Vector.getElem_set_ne _ _ first]

theorem presetVars_last {front back : List (Byte × Word)} {i : Byte} (x : Word) (v : Vector Word 256)
    (h : ∀ p ∈ back, p.1 ≠ i) : (presetVars (front ++ (i, x) :: back) v)[i.toNat]'i.isLt = x := by
  rw [presetVars, List.foldl_append, List.foldl_cons]
  refine (presetVars_other _ h).trans ?_
  rw [Vector.getElem_set_self]

theorem resetWith_getVar (b : Boot) {i : Byte} (h : i ≠ 0x3C) :
    getVar (State.resetWith b) i = (presetVars b.preset (Vector.replicate 256 0))[i.toNat]'i.isLt := by
  have slot : (0x3C : Nat) ≠ i.toNat := fun e => h (BitVec.eq_of_toNat_eq e.symm)
  simp only [getVar, resetWith_v]
  rw [Vector.getElem_set_ne _ _ slot]

/-- Settles O55: the seed is written last, the presets before it in list order. -/
theorem resetValues : Obligations.ResetValues := by
  rintro b _ rfl
  refine ⟨?seed, fun i notSeed unset => ?unset, fun front back i x notSeed preset last => ?preset, resetWith_row b, rfl,
    rfl, fun p k => ?page, rfl, rfl, rfl, rfl, rfl, rfl, rfl, rfl, rfl, rfl⟩
  case seed =>
    simp only [getVar, resetWith_v]
    exact Vector.getElem_set_self ..
  case unset =>
    rw [resetWith_getVar b notSeed, presetVars_other _ unset, Vector.getElem_replicate]
  case preset => rw [resetWith_getVar b notSeed, preset, presetVars_last x _ last]
  case page => simp [State.resetWith, Page.byte]

end Sys2Proof.Machine

namespace Sys2Proof

open Sys2Proof.Machine

/-- Settles O48: the branches of `switchPart`; the thread table is `threadReset_row`, the arena `loaderWrites_wrote`. -/
theorem partSwitchStep : Obligations.PartSwitchStep := by
  intro s hfault hphase
  rw [step_frameTop hfault hphase]
  refine ⟨fun nothing => if_pos nothing, fun requested => if_neg requested, fun a => ⟨fun ok legal => ?switched,
    fun failed => ?failed⟩⟩
  case switched =>
    refine ⟨_, switchPart_of_ok ok legal, rfl, fun u => ?_, loaderWrites_wrote ..⟩
    obtain ⟨pc, redir, cur, req⟩ := threadReset_row (mapPart a s) u
    refine ⟨pc, redir, cur, req, ?_⟩
    rw [commitStep_phase_irrelevant, getsSlice_commitStep_threadReset]
  case failed => exact ⟨_, switchPart_of_failure failed, rfl, loaderWrites_wrote ..⟩

end Sys2Proof

/-! What an instruction can write: that it answers a next state, the registers it may change, and the records it may
append (10_state.md; 60_exceptions.md R280). -/

namespace Sys2Proof.Machine

/-- No instruction stops the machine: a fault taken is a next state (60_exceptions.md R275). -/
theorem exec_next (i : Instr) (s : State) : ∃ t, exec i s = .next t := by
  have settled (r : Except State State) : ∃ t, settle r = .next t := by cases r <;> exact ⟨_, rfl⟩
  cases i with
  | call target =>
    simp only [exec, execCall]
    split <;> exact ⟨_, rfl⟩
  | ret =>
    simp only [exec, execRet]
    split <;> exact ⟨_, rfl⟩
  | setvec id off =>
    simp only [exec, execSetvec]
    split <;> exact ⟨_, rfl⟩
  | setpal w =>
    simp only [exec, execSetpal]
    split <;> exact ⟨_, rfl⟩
  | thrctl first last mode =>
    simp only [exec, execThrctl]
    split
    · exact ⟨_, rfl⟩
    · split <;> exact ⟨_, rfl⟩
  | copypage src dst =>
    simp only [exec, execCopypage]
    split
    · exact ⟨_, rfl⟩
    · split <;> exact ⟨_, rfl⟩
  | update id =>
    simp only [exec, execUpdate]
    split
    · exact ⟨_, rfl⟩
    · split <;> exact ⟨_, rfl⟩
  | blit | spoly | bpoly => exact settled _
  | _ => exact ⟨_, rfl⟩

/-- The state `s` with the registers that `i` may write taken from `t`. -/
def written (i : Instr) (s t : State) : State :=
  match i with
  | .movi _ _ | .mov _ _ | .addi _ _ | .ori _ _ => { s with v := t.v }
  | .jmp _ => { s with pc := t.pc }
  | .jnz _ _ => { s with v := t.v, pc := t.pc }
  | .condJmpVar _ _ _ _ | .condJmpImm16 _ _ _ _ | .condJmpImm8 _ _ _ _ => { s with pc := t.pc, log := t.log }
  | .call _ => { s with stack := t.stack, sp := t.sp, pc := t.pc, fault := t.fault, log := t.log }
  | .ret => { s with sp := t.sp, pc := t.pc, fault := t.fault, log := t.log }
  | .pause => { s with yield := t.yield }
  | .kill => { s with pc := t.pc, yield := t.yield }
  | .setvec _ _ => { s with redir := t.redir, fault := t.fault, log := t.log }
  | .thrctl _ _ _ => { s with redir := t.redir, pausedReq := t.pausedReq, fault := t.fault, log := t.log }
  | .setpal _ => { s with reqPal := t.reqPal, log := t.log }
  | .selpage _ => { s with ptr1 := t.ptr1, log := t.log }
  | .fillpage _ _ | .copypage _ _ => { s with pages := t.pages, log := t.log }
  | .blit _ =>
    { s with
      ptr2 := t.ptr2, ptr3 := t.ptr3, curPal := t.curPal, lastTs := t.lastTs, reqPal := t.reqPal, hostTick := t.hostTick
      calls := t.calls, fault := t.fault, log := t.log }
  | .update _ =>
    { s with
      reqPart := t.reqPart, mem := t.mem, hostTick := t.hostTick, calls := t.calls, fault := t.fault, log := t.log }
  | .spoly _ _ _ _ | .bpoly _ _ _ => { s with pages := t.pages, fault := t.fault, log := t.log }
  | .illegal _ => { s with fault := t.fault, log := t.log }

theorem blit_written {page : Byte} {s t : State} (h : exec (.blit page) s = .next t) : t = written (.blit page) s t := by
  have aliases := updateAliases_pace_state Config.timestamp page (s := s) rfl
  rcases blitWith_result Config.timestamp page s _ rfl with ⟨_, e⟩ | ⟨_, _, e⟩ | ⟨_, _, _, e⟩ <;>
    · simp only [exec, execBlit, e, settle] at h
      cases h
      rw [aliases]
      rfl

/-- Every instruction leaves the registers that are not its own as they were. -/
theorem exec_written {i : Instr} {s t : State} (h : exec i s = .next t) : t = written i s t := by
  cases i with
  | movi | mov | addi | ori | jmp | pause | kill | illegal =>
    cases h
    rfl
  | jnz =>
    rw [exec_jnz] at h
    cases h
    rfl
  | condJmpVar | condJmpImm16 | condJmpImm8 =>
    simp only [exec, execCondJmpVar, execCondJmpImm16, execCondJmpImm8, condJump_state] at h
    cases h
    rfl
  | call =>
    simp only [exec, execCall] at h
    split at h <;> cases h <;> rfl
  | ret =>
    simp only [exec, execRet] at h
    split at h <;> cases h <;> rfl
  | setvec =>
    simp only [exec, execSetvec] at h
    split at h <;> cases h <;> rfl
  | setpal =>
    simp only [exec, execSetpal] at h
    split at h <;> cases h <;> rfl
  | thrctl =>
    simp only [exec, execThrctl] at h
    split at h
    · cases h
      rfl
    · split at h <;> cases h <;> simp only [written]
  | selpage | fillpage =>
    cases h
    simp [written]
  | copypage src dst =>
    by_cases ne : src = dst
    · rw [exec, execCopypage, if_pos ne] at h
      cases h
      rfl
    · rw [exec_copypage_of_ne s ne] at h
      cases h
      rfl
  | blit => exact blit_written h
  | update =>
    simp only [exec, execUpdate, loadMemoryEntry_state] at h
    split at h
    · cases h
      rfl
    · split at h <;> cases h <;> rfl
  | spoly | bpoly => exact (settle_drawShape_frame h).1

/-- A record of a soft condition that `i` can log, made in `s`. -/
def SoftRecord (i : Instr) (s : State) (r : LogRecord) : Prop :=
  ∃ c : SoftCondition, c.code ∈ softCodes i ∧ r = ⟨.soft c, s.insnPc, s.curThr⟩

/-- What running `i` from `s` to `t` has appended to the log: soft conditions of its row of R280, and, where it took a
fatal fault of its row, that fault's record after them. A draw may log any number, another instruction at most two records
in all. -/
inductive Logged (i : Instr) (s t : State) : Prop where
  | completed (new : List LogRecord) (soft : ∀ r ∈ new, SoftRecord i s r)
      (short : (drawCall s i).isSome = true ∨ new.length ≤ 2) (fault : t.fault = s.fault) (log : t.log = s.log ++ new)
  | faulted (new : List LogRecord) (f : FatalFault) (soft : ∀ r ∈ new, SoftRecord i s r)
      (short : (drawCall s i).isSome = true ∨ new.length ≤ 1) (row : f.code ∈ fatalCodes i) (fault : t.fault = some f)
      (log : t.log = s.log ++ new ++ [⟨.fatal f, s.insnPc, s.curThr⟩])

theorem Logged.nothing {i : Instr} {s t : State} (fault : t.fault = s.fault) (log : t.log = s.log) : Logged i s t :=
  .completed [] (by simp) (.inr (by simp)) fault (by simpa using log)

theorem Logged.raise {i : Instr} (s : State) {f : FatalFault} (row : f.code ∈ fatalCodes i) : Logged i s (raise s f) :=
  .faulted [] f (by simp) (.inr (by simp)) row rfl (by simp)

theorem Logged.logSoft {i : Instr} (s : State) {c : SoftCondition} (row : c.code ∈ softCodes i) :
    Logged i s (logSoft s c) :=
  .completed [_] (fun r hr => ⟨c, row, by simpa using hr⟩) (.inr (by simp)) rfl rfl

/-- A page id resolved logs `BAD_PAGE_ID` or nothing, in a state with the same `insn_pc` and thread. -/
theorem resolveLog_soft {i : Instr} {s s' : State} {id : Byte} (row : 16 ∈ softCodes i) (hpc : s'.insnPc = s.insnPc)
    (hthr : s'.curThr = s.curThr) : ∀ r ∈ resolveLog s' id, SoftRecord i s r := fun r hr =>
  ⟨.badPageId s'.insnPc id, row, by rw [← hpc, ← hthr]; exact (resolveLog_bad_page s' id).2 r hr⟩

theorem drawShape_logged {i : Instr} {s t : State} {c : DrawCall} (draws : drawCall s i = some c)
    (h : exec i s = .next t) : Logged i s t := by
  have isDraw : (drawCall s i).isSome = true := by rw [draws]; rfl
  have rows : fatalCodes i = [3, 8, 6] ∧ softCodes i = [18] := by
    cases i with
    | spoly | bpoly => exact ⟨rfl, rfl⟩
    | _ => cases draws
  have soft {u : State} {new : List LogRecord} (p : Painted s u new) : ∀ r ∈ new, SoftRecord i s r := fun r hr => by
    obtain ⟨off, v, e⟩ := p.soft r hr
    exact ⟨_, by rw [rows.2]; exact List.mem_singleton.2 rfl, e⟩
  rw [exec_of_drawCall draws] at h
  have result := drawShape_result s c.seg c.off 0xFF c.zoom c.x c.y
  cases drawn : drawShape s c.seg c.off 0xFF c.zoom c.x c.y with
  | ok u =>
    rw [drawn] at h result
    cases h
    obtain ⟨new, p⟩ := result
    exact .completed new (soft p) (.inl isDraw) (by rw [p.rest]) (by rw [p.rest])
  | error u =>
    rw [drawn] at h result
    cases h
    obtain ⟨u, new, f, p, rfl, hf⟩ := result
    refine .faulted new f (soft p) (.inl isDraw) (by rw [rows.1]; exact hf) rfl ?_
    rw [raise_log, p.rest]

theorem exec_logged {i : Instr} {s t : State} (h : exec i s = .next t) : Logged i s t := by
  cases i with
  | movi | mov | addi | ori | jmp | pause | kill =>
    cases h
    exact .nothing rfl rfl
  | illegal =>
    cases h
    exact .raise s (List.mem_singleton.2 rfl)
  | jnz =>
    rw [exec_jnz] at h
    cases h
    exact .nothing rfl rfl
  | condJmpVar cc | condJmpImm16 cc | condJmpImm8 cc =>
    simp only [exec, execCondJmpVar, execCondJmpImm16, execCondJmpImm8, condJump_state] at h
    cases h
    by_cases legal : comparator cc < 6
    · exact .nothing rfl (if_pos legal)
    · exact .completed [_] (fun r hr => ⟨_, List.mem_singleton.2 rfl, List.mem_singleton.1 hr⟩) (.inr (by simp)) rfl
        (if_neg legal)
  | call =>
    simp only [exec, execCall] at h
    split at h <;> cases h
    · exact .nothing rfl rfl
    · exact .raise s (List.mem_singleton.2 rfl)
  | ret =>
    simp only [exec, execRet] at h
    split at h <;> cases h
    · exact .raise s (List.mem_singleton.2 rfl)
    · exact .nothing rfl rfl
  | setvec =>
    simp only [exec, execSetvec] at h
    split at h <;> cases h
    · exact .nothing rfl rfl
    · exact .raise s (List.mem_singleton.2 rfl)
  | thrctl =>
    simp only [exec, execThrctl] at h
    split at h
    · cases h
      exact .raise s (List.mem_singleton.2 rfl)
    · split at h <;> cases h <;> exact .nothing (by simp only) (by simp only)
  | setpal =>
    simp only [exec, execSetpal] at h
    split at h <;> cases h
    · exact .nothing rfl rfl
    · exact .logSoft s (List.mem_singleton.2 rfl)
  | selpage id | fillpage id =>
    cases h
    exact .completed (resolveLog s id) (resolveLog_soft (List.mem_singleton.2 rfl) rfl rfl)
      (.inr ((resolveLog_bad_page s id).1.trans (by decide))) (by simp) (by simp [resolvePage_log])
  | copypage src dst =>
    by_cases ne : src = dst
    · rw [exec, execCopypage, if_pos ne] at h
      cases h
      exact .nothing rfl rfl
    · rw [exec_copypage_of_ne s ne] at h
      cases h
      refine .completed (resolveLog s src ++ resolveLog (resolvePage s src).2 dst) (fun r hr => ?_) (.inr ?_) rfl ?_
      · rcases List.mem_append.1 hr with hr | hr
        · exact resolveLog_soft (List.mem_singleton.2 rfl) rfl rfl r hr
        · exact resolveLog_soft (List.mem_singleton.2 rfl) (resolvePage_insnPc ..) (resolvePage_curThr ..) r hr
      · have first := (resolveLog_bad_page s src).1
        have second := (resolveLog_bad_page (resolvePage s src).2 dst).1
        rw [List.length_append]
        omega
      · simp only [resolvePage_log, List.append_assoc]
  | blit id =>
    have soft : ∀ r ∈ resolveLog (pace Config.timestamp s) id, SoftRecord (.blit id) s r :=
      resolveLog_soft (List.mem_singleton.2 rfl) rfl rfl
    have short := (resolveLog_bad_page (pace Config.timestamp s) id).1
    rcases blitWith_result Config.timestamp id s _ rfl with ⟨_, e⟩ | ⟨_, _, e⟩ | ⟨_, _, _, e⟩ <;>
      simp only [exec, execBlit, e, settle] at h <;> cases h
    · exact .completed _ soft (.inr (by omega)) (by simp) (by simp [updateAliases_log])
    · exact .completed _ soft (.inr (by omega)) (by simp) (by simp [updateAliases_log])
    · exact .faulted _ _ soft (.inr short) (List.mem_singleton.2 rfl) rfl (by simp [updateAliases_log])
  | update id =>
    simp only [exec, execUpdate] at h
    split at h
    · cases h
      exact .nothing rfl rfl
    · split at h <;> cases h
      · exact .nothing rfl rfl
      · cases ok : (Config.loadEntry s.hostTick id).ok <;> simp only [loadMemoryEntry, ok]
        · exact .faulted [] _ (by simp) (.inr (by simp)) (List.mem_singleton.2 rfl) rfl (by simp)
        · exact .nothing rfl rfl
  | spoly => exact drawShape_logged (drawCall_spoly ..) h
  | bpoly => exact drawShape_logged (drawCall_bpoly ..) h

/-- The fault register and the log as the statement of O56 has them. -/
theorem Logged.of_row {i : Instr} {s t : State} (h : Logged i s t) :
    (t.fault = s.fault ∨ ∃ f, t.fault = some f ∧ f.code ∈ fatalCodes i) ∧
    ∃ new, t.log = s.log ++ new ∧ ((drawCall s i).isSome = true ∨ new.length ≤ 2) ∧
      ∀ r ∈ new, r.insnPc = s.insnPc ∧ r.thread = s.curThr ∧
        ((∃ f, r.what = .fatal f ∧ t.fault = some f ∧ f.code ∈ fatalCodes i) ∨
          ∃ c, r.what = .soft c ∧ c.code ∈ softCodes i) := by
  cases h with
  | completed new soft short fault log =>
    refine ⟨.inl fault, new, log, short, fun r hr => ?_⟩
    obtain ⟨c, row, rfl⟩ := soft r hr
    exact ⟨rfl, rfl, .inr ⟨c, rfl, row⟩⟩
  | faulted new f soft short row fault log =>
    refine ⟨.inr ⟨f, fault, row⟩, new ++ [_], by rw [log, List.append_assoc], short.imp id (by simp), fun r hr => ?_⟩
    rcases List.mem_append.1 hr with hr | hr
    · obtain ⟨c, row, rfl⟩ := soft r hr
      exact ⟨rfl, rfl, .inr ⟨c, rfl, row⟩⟩
    · obtain rfl := List.mem_singleton.1 hr
      exact ⟨rfl, rfl, .inl ⟨f, rfl, fault, row⟩⟩

/-- Settles O56: the registers of `written` and the records of `Logged`. -/
theorem eachRegisterHasItsWriters : Obligations.EachRegisterHasItsWriters := by
  intro i s
  obtain ⟨t, h⟩ := exec_next i s
  have registers := exec_written h
  have records := (exec_logged h).of_row
  refine ⟨t, h, ?_⟩
  simp only [← and_assoc] at records ⊢
  refine ⟨⟨?_, records.1⟩, records.2⟩
  clear records h
  cases i <;> rw [registers] <;> simp [written, writesPc, drawCall]

end Sys2Proof.Machine

/-! What every step keeps: who runs in a frame, the running part, and the invariant of the machine
(47_scheduler.md R252; 20_memory.md R82; 10_state.md). -/

namespace Sys2Proof.Machine

/-! What a step of a slice can be. -/

/-- One step of a slice that is not over: the instruction at `pc` runs, or its fetch runs off the bytecode segment. -/
theorem executeOne_cases {s t : State} (h : executeOne s = .next t) :
    (∃ i n, exec i (fetched s n) = .next t) ∨ ∃ used decremented, t = fetchFault s used decremented := by
  unfold executeOne at h
  split at h
  · cases h
  · split at h
    next i n _ => exact .inl ⟨i, n, h⟩
    next used decremented _ =>
      cases h
      exact .inr ⟨used, decremented, rfl⟩

/-- A step, by what it is: a halted machine's, or that of its phase (47_scheduler.md R246, R254). -/
theorem step_cases {s t : State} (h : step s = .next t) :
    (s.fault ≠ none ∧ t = s) ∨
      (s.fault = none ∧
        ((s.phase = .frameTop ∧ partSwitchStep s = .next t) ∨
          (s.phase = .commit ∧ t = commitStep s) ∨
          (∃ n, s.phase = .select n ∧ t = selectStep s n) ∨
          (s.phase = .slice ∧ s.yield = true ∧ t = endSlice s) ∨
          (s.phase = .slice ∧ s.yield = false ∧ executeOne s = .next t))) := by
  by_cases hfault : s.fault = none
  · refine .inr ⟨hfault, ?_⟩
    cases hphase : s.phase with
    | frameTop => exact .inl ⟨rfl, by rwa [step_frameTop hfault hphase] at h⟩
    | commit =>
      rw [step_commit hfault hphase] at h
      cases h
      exact .inr (.inl ⟨rfl, rfl⟩)
    | select n =>
      rw [step_select hfault hphase] at h
      cases h
      exact .inr (.inr (.inl ⟨n, rfl, rfl⟩))
    | slice =>
      cases hyield : s.yield with
      | true =>
        rw [step_slice_end hfault hphase hyield] at h
        cases h
        exact .inr (.inr (.inr (.inl ⟨rfl, rfl, rfl⟩)))
      | false =>
        rw [step_slice hfault hphase hyield] at h
        exact .inr (.inr (.inr (.inr ⟨rfl, rfl, h⟩)))
  · rw [step_halted hfault] at h
    cases h
    exact .inl ⟨hfault, rfl⟩

/-- Looking for the next thread starts a slice of one that gets one, or ends the frame (47_scheduler.md R246, R253). -/
theorem selectStep_cases (s : State) (n : Nat) :
    (∃ u, getsSlice s u = true ∧ selectStep s n = startSlice s u) ∨ selectStep s n = { s with phase := .frameTop } := by
  unfold selectStep
  cases ready : firstReady s n with
  | some u => exact .inl ⟨u, (firstReady_some ready).2.1, rfl⟩
  | none => exact .inr rfl

/-- Settles O58: of the steps inside a frame only the end of a slice writes the current half of the thread table, and it
writes the running thread's row. -/
theorem onlyTheCommitChangesWhoRuns : Obligations.OnlyTheCommitChangesWhoRuns := by
  intro s t inFrame h u
  rcases step_cases h with ⟨_, rfl⟩ | ⟨_, ⟨top, _⟩ | ⟨commit, _⟩ | ⟨n, _, rfl⟩ | ⟨slice, yield, rfl⟩ | ⟨_, _, run⟩⟩
  · exact ⟨rfl, fun _ => rfl⟩
  · simp [top] at inFrame
  · simp [commit] at inFrame
  · rcases selectStep_cases s n with ⟨_, _, e⟩ | e <;> rw [e] <;> exact ⟨rfl, fun _ => rfl⟩
  · refine ⟨rfl, fun other => ?_⟩
    have row : s.curThr.val ≠ u.val := fun e => other slice yield (Fin.ext e.symm)
    rw [endSlice_thrPc, Fin.getElem_fin, Vector.getElem_set_ne _ _ row]
    rfl
  · have same := executeOne_schedule run
    simp only [schedule, Prod.mk.injEq] at same
    obtain ⟨_, _, thrPc, pausedCur⟩ := same
    exact ⟨by rw [pausedCur], fun _ => by rw [thrPc]⟩

/-! The running part. -/

/-- An address inside a current segment, or outside the arena, reads in `t` as in `s`, and the mapping is the same. -/
def SamePart (s t : State) : Prop :=
  t.seg = s.seg ∧ ∀ addr, outsideSegments s.arenaSize s.seg addr = false → t.mem.read addr = s.mem.read addr

theorem SamePart.of_mem {s t : State} (seg : t.seg = s.seg) (mem : t.mem = s.mem) : SamePart s t :=
  ⟨seg, fun _ _ => by rw [mem]⟩

theorem exec_update_samePart {id : Word} {s t : State} (h : exec (.update id) s = .next t) : SamePart s t := by
  have writes (ws : List Host.Cell) : ∀ addr, outsideSegments s.arenaSize s.seg addr = false →
      (loaderWrites (outsideSegments s.arenaSize s.seg) ws s.mem).read addr = s.mem.read addr :=
    fun addr inside => loaderWrites_read _ _ _ _ fun _ _ _ => inside
  simp only [exec, execUpdate, loadMemoryEntry_state] at h
  split at h
  · cases h
    exact ⟨rfl, writes _⟩
  · split at h <;> cases h
    · exact .of_mem rfl rfl
    · exact ⟨rfl, writes _⟩

theorem exec_samePart {i : Instr} {s t : State} (h : exec i s = .next t) : SamePart s t := by
  cases i with
  | update => exact exec_update_samePart h
  | _ =>
    refine .of_mem ?_ ?_ <;>
      · rw [exec_written h]
        rfl

/-- Settles O57: of the steps that are no part switch only `update` writes the arena, outside the segments. -/
theorem runningPartIsConstant : Obligations.RunningPartIsConstant := by
  intro s t h noSwitch
  change SamePart s t
  rcases step_cases h with ⟨_, rfl⟩ | ⟨_, ⟨top, switch⟩ | ⟨_, rfl⟩ | ⟨n, _, rfl⟩ | ⟨_, _, rfl⟩ | ⟨_, _, run⟩⟩
  · exact .of_mem rfl rfl
  · rw [Machine.partSwitchStep, if_pos (noSwitch top)] at switch
    cases switch
    exact .of_mem rfl rfl
  · exact .of_mem (by simp [commitStep]) (by simp [commitStep])
  · rcases selectStep_cases s n with ⟨_, _, e⟩ | e <;> rw [e] <;> exact .of_mem rfl rfl
  · exact .of_mem rfl rfl
  · rcases executeOne_cases run with ⟨i, n, run⟩ | ⟨used, decremented, rfl⟩
    · exact exec_samePart (s := fetched s n) run
    · rw [fetchFault_state]
      exact .of_mem rfl rfl

end Sys2Proof.Machine

/-! The invariant (`LegalState`). -/

namespace Sys2Proof.Machine

section
variable {s t : State}

/-- A change of registers that the invariant says nothing of keeps it. -/
theorem LegalState.congr (legal : LegalState s) (mem : t.mem = s.mem) (arena : t.arenaSize = s.arenaSize)
    (seg : t.seg = s.seg) (fault : t.fault = s.fault) (log : t.log = s.log) (reqPal : t.reqPal = s.reqPal)
    (reqPart : t.reqPart = s.reqPart) (depth : t.hierDepthMax = s.hierDepthMax) (calls : t.calls = s.calls)
    (owner : t.phase = .slice → getsSlice t t.curThr = true) : LegalState t where
  memWf := mem ▸ legal.memWf
  memInArena := by rw [mem, arena]; exact legal.memInArena
  mapped := by rw [fault, arena, seg]; exact legal.mapped
  palette := by rw [reqPal]; exact legal.palette
  part := by rw [reqPart]; exact legal.part
  depth := by rw [depth]; exact legal.depth
  oneFault := by rw [log, fault]; exact legal.oneFault
  owner := owner
  callsLegal := by rw [calls]; exact legal.callsLegal

theorem getsSlice_of_schedule (h : schedule t = schedule s) : getsSlice t t.curThr = getsSlice s s.curThr := by
  simp only [schedule, Prod.mk.injEq] at h
  obtain ⟨_, curThr, thrPc, pausedCur⟩ := h
  rw [getsSlice_congr pausedCur thrPc, curThr]

theorem LegalState.fetched (legal : LegalState s) (n : Nat) : LegalState (fetched s n) :=
  legal.congr rfl rfl rfl rfl rfl rfl rfl rfl rfl legal.owner

/-- Taking a fatal fault where none is taken keeps the invariant: it is the first (60_exceptions.md R277). -/
theorem LegalState.raise (legal : LegalState s) (noFault : s.fault = none) (f : FatalFault) : LegalState (raise s f) where
  memWf := legal.memWf
  memInArena := legal.memInArena
  mapped := by intro h; cases h
  palette := legal.palette
  part := legal.part
  depth := legal.depth
  oneFault := by
    have noFatal := legal.oneFault
    rw [noFault] at noFatal
    rw [raise_log, List.countP_append, noFatal]
    rfl
  owner := legal.owner
  callsLegal := legal.callsLegal

theorem LegalState.fetchFault (legal : LegalState s) (noFault : s.fault = none) (used : Nat) (decremented : Option Byte) :
    LegalState (fetchFault s used decremented) := by
  have before (u : State) (h : u = { Machine.fetched s used with v := u.v }) : LegalState u := by
    rw [h]
    exact (legal.fetched used).congr rfl rfl rfl rfl rfl rfl rfl rfl rfl legal.owner
  cases decremented with
  | none => exact (legal.fetched used).raise noFault _
  | some d => exact (before (setVar (Machine.fetched s used) d _) rfl).raise noFault _

/-! One instruction. -/

/-- An instruction run with no fault taken counts its fault, if it takes one. -/
theorem Logged.oneFault {i : Instr} (h : Logged i s t) (noFault : s.fault = none)
    (before : s.log.countP LogRecord.isFatal = 0) :
    t.log.countP LogRecord.isFatal = if t.fault.isSome then 1 else 0 := by
  have soft {new : List LogRecord} (h : ∀ r ∈ new, SoftRecord i s r) : new.countP LogRecord.isFatal = 0 := by
    rw [List.countP_eq_zero]
    intro r hr
    obtain ⟨c, _, rfl⟩ := h r hr
    exact Bool.false_ne_true
  cases h with
  | completed new softs _ fault log =>
    rw [log, List.countP_append, before, soft softs, fault, noFault]
    rfl
  | faulted new f softs _ _ fault log =>
    rw [log, List.countP_append, List.countP_append, before, soft softs, fault]
    rfl

/-- The loader's writes stay in the arena (20_memory.md R61). -/
theorem loaderWrites_inArena {arenaSize : Nat} {allowed : Nat → Bool} {m : Memory} (ws : List Host.Cell)
    (inArena : ∀ a, allowed a = true → a < arenaSize) (before : ∀ c ∈ m, c.1 < arenaSize) :
    ∀ c ∈ loaderWrites allowed ws m, c.1 < arenaSize := fun c hc =>
  (loaderWrites_mem allowed ws m c hc).elim (inArena c.1) (before c)

theorem outsideSegments_inArena {arenaSize : Nat} {seg : SegTable} {a : Nat}
    (h : outsideSegments arenaSize seg a = true) : a < arenaSize := by
  simp only [outsideSegments, Bool.and_eq_true, decide_eq_true_eq] at h
  exact h.1.1.1.1

/-- What an instruction makes of the arena's contents (10_state.md R41). -/
theorem exec_mem_legal {i : Instr} (legal : LegalState s) (h : exec i s = .next t) :
    t.mem.wf = true ∧ ∀ c ∈ t.mem, c.1 < s.arenaSize := by
  have loaded (ws : List Host.Cell) : (loaderWrites (outsideSegments s.arenaSize s.seg) ws s.mem).wf = true ∧
      ∀ c ∈ loaderWrites (outsideSegments s.arenaSize s.seg) ws s.mem, c.1 < s.arenaSize :=
    ⟨loaderWrites_wf _ _ _ legal.memWf, loaderWrites_inArena ws (fun _ => outsideSegments_inArena) legal.memInArena⟩
  cases i with
  | update id =>
    simp only [exec, execUpdate, loadMemoryEntry_state] at h
    split at h
    · cases h
      exact loaded _
    · split at h <;> cases h
      · exact ⟨legal.memWf, legal.memInArena⟩
      · exact loaded _
  | _ =>
    have mem : t.mem = s.mem := by rw [exec_written h]; rfl
    exact mem ▸ ⟨legal.memWf, legal.memInArena⟩

/-- What an instruction makes of the pending palette (10_state.md R37). -/
theorem exec_palette_legal {i : Instr} (legal : LegalState s) (h : exec i s = .next t) :
    t.reqPal.toNat < 32 ∨ t.reqPal = Config.reqPalNone := by
  cases i with
  | setpal w =>
    simp only [exec, execSetpal] at h
    split at h <;> cases h
    next valid => exact .inl valid
    next => exact legal.palette
  | blit id =>
    rcases blitWith_result Config.timestamp id s _ rfl with ⟨_, e⟩ | ⟨_, _, e⟩ | ⟨_, _, _, e⟩ <;>
      simp only [exec, execBlit, e, settle] at h <;> cases h
    · simpa using legal.palette
    · exact .inr rfl
    · simpa using legal.palette
  | _ =>
    have reqPal : t.reqPal = s.reqPal := by rw [exec_written h]; rfl
    exact reqPal ▸ legal.palette

/-- What an instruction makes of the pending part (10_state.md R38). -/
theorem exec_part_legal {i : Instr} (legal : LegalState s) (h : exec i s = .next t) :
    t.reqPart = 0 ∨ Config.partIdFirst.toNat ≤ t.reqPart.toNat := by
  cases i with
  | update id =>
    simp only [exec, execUpdate, loadMemoryEntry_state] at h
    split at h
    · cases h
      exact legal.part
    · split at h <;> cases h
      next part => exact .inr part
      next => exact legal.part
  | _ =>
    have reqPart : t.reqPart = s.reqPart := by rw [exec_written h]; rfl
    exact reqPart ▸ legal.part

theorem paceCalls_legal (clock : Nat → Nat) (s : State) : ∀ c ∈ paceCalls clock s, c.legal := by
  rcases Nat.eq_zero_or_pos (sleepTime s (clock s.hostTick)) with none | early
  · rw [paceCalls_of_no_sleep none]
    simp [HostCall.legal]
  · rw [paceCalls_of_sleep early]
    simpa [HostCall.legal] using early

/-- What an instruction makes of the record of host calls (70_reset_and_hazards.md R317, R320). -/
theorem exec_calls_legal {i : Instr} (legal : LegalState s) (h : exec i s = .next t) : ∀ c ∈ t.calls, c.legal := by
  have appended {new : List HostCall} (hn : ∀ c ∈ new, c.legal) : ∀ c ∈ s.calls ++ new, c.legal := fun c hc =>
    (List.mem_append.1 hc).elim (legal.callsLegal c) (hn c)
  cases i with
  | blit id =>
    have paced := paceCalls_legal Config.timestamp s
    have calls : (updateAliases id (pace Config.timestamp s)).calls = s.calls ++ paceCalls Config.timestamp s := by
      rw [updateAliases_calls, pace_state]
    rcases blitWith_result Config.timestamp id s _ rfl with ⟨_, e⟩ | ⟨_, _, e⟩ | ⟨_, _, _, e⟩ <;>
      simp only [exec, execBlit, e, settle] at h <;> cases h <;>
      simp only [presentPage_calls, raise_calls, calls, List.append_assoc] <;> refine appended ?_
    · simpa [or_imp, forall_and, HostCall.legal] using paced
    · simpa [or_imp, forall_and, HostCall.legal] using paced
    · exact paced
  | update id =>
    simp only [exec, execUpdate, loadMemoryEntry_state] at h
    split at h
    · cases h
      exact appended (by simp [HostCall.legal])
    · split at h <;> cases h
      next => exact legal.callsLegal
      next notZero entry => exact appended (by simpa [HostCall.legal] using ⟨notZero, not_le.1 entry⟩)
  | _ =>
    have calls : t.calls = s.calls := by rw [exec_written h]; rfl
    exact calls ▸ legal.callsLegal

theorem exec_legal {i : Instr} (legal : LegalState s) (noFault : s.fault = none) (h : exec i s = .next t) :
    LegalState t := by
  obtain ⟨t', h', _, _, _, _, seg, arena, depth, _⟩ := eachRegisterHasItsWriters i s
  obtain rfl : t' = t := by rw [h] at h'; cases h'; rfl
  obtain ⟨memWf, memInArena⟩ := exec_mem_legal legal h
  have noFatal := legal.oneFault
  rw [noFault] at noFatal
  exact {
    memWf := memWf
    memInArena := arena ▸ memInArena
    mapped := fun _ => by rw [arena, seg]; exact legal.mapped noFault
    palette := exec_palette_legal legal h
    part := exec_part_legal legal h
    depth := depth ▸ legal.depth
    oneFault := (exec_logged h).oneFault noFault noFatal
    owner := fun slice => by
      rw [getsSlice_of_schedule (exec_schedule h)]
      exact legal.owner (phase_of_schedule (exec_schedule h) ▸ slice)
    callsLegal := exec_calls_legal legal h }

/-! The scheduler's steps. -/

/-- The state after a part switch was answered (47_scheduler.md R249, R250). -/
theorem LegalState.mapPart (legal : LegalState s) (a : SetupAnswer) (requested : s.reqPart ≠ 0) {u : State}
    (log : u.log.countP LogRecord.isFatal = if u.fault.isSome then 1 else 0)
    (mapped : u.fault = none → legalMapping s.arenaSize u.seg = true)
    (part : u.reqPart = 0 ∨ u.reqPart = s.reqPart) (owner : u.phase = .slice → getsSlice u u.curThr = true)
    (frame : u.mem = (mapPart a s).mem ∧ u.arenaSize = s.arenaSize ∧ u.reqPal = s.reqPal ∧
      u.hierDepthMax = s.hierDepthMax ∧ u.calls = (Machine.mapPart a s).calls) : LegalState u := by
  obtain ⟨mem, arena, reqPal, depth, calls⟩ := frame
  have id := legal.part.resolve_left requested
  exact {
    memWf := by
      rw [mem]
      exact loaderWrites_wf (fun addr => decide (addr < s.arenaSize)) a.writes _ legal.memWf
    memInArena := by
      rw [mem, arena]
      exact loaderWrites_inArena a.writes (fun _ => of_decide_eq_true) legal.memInArena
    mapped := arena ▸ mapped
    palette := reqPal ▸ legal.palette
    part := part.imp_right fun e => by rwa [e]
    depth := depth ▸ legal.depth
    oneFault := log
    owner := owner
    callsLegal := by
      rw [calls]
      intro c hc
      rcases List.mem_append.1 hc with hc | hc
      · exact legal.callsLegal c hc
      · obtain rfl := List.mem_singleton.1 hc
        exact id }

theorem partSwitchStep_legal (legal : LegalState s) (noFault : s.fault = none) (top : s.phase = .frameTop)
    (h : partSwitchStep s = .next t) : LegalState t := by
  have noFatal := legal.oneFault
  rw [noFault] at noFatal
  unfold Machine.partSwitchStep at h
  split at h
  next =>
    cases h
    exact legal.congr rfl rfl rfl rfl rfl rfl rfl rfl rfl (by intro h; cases h)
  next requested =>
    unfold switchPart at h
    split at h
    next ok =>
      split at h <;> cases h
      next mapped =>
        exact legal.mapPart _ requested legal.oneFault (fun _ => mapped) (.inl rfl) (by intro h; cases h)
          ⟨rfl, rfl, rfl, rfl, rfl⟩
    next failed =>
      cases h
      refine legal.mapPart _ requested ?_ (by intro h; cases h) (.inr rfl) (fun slice => ?_) ⟨rfl, rfl, rfl, rfl, rfl⟩
      · rw [raise_log, List.countP_append]
        exact congrArg (· + 1) noFatal
      · rw [raise_phase] at slice
        exact absurd (top.symm.trans slice) (by simp)

theorem step_legal (legal : LegalState s) (h : step s = .next t) : LegalState t := by
  rcases step_cases h with
    ⟨_, rfl⟩ | ⟨noFault, ⟨top, switch⟩ | ⟨_, rfl⟩ | ⟨n, _, rfl⟩ | ⟨_, _, rfl⟩ | ⟨slice, _, run⟩⟩
  · exact legal
  · exact partSwitchStep_legal legal noFault top switch
  · refine legal.congr ?_ ?_ ?_ ?_ ?_ ?_ ?_ ?_ ?_ ?_ <;> simp [commitStep]
  · rcases selectStep_cases s n with ⟨u, ready, e⟩ | e <;> rw [e]
    · exact legal.congr rfl rfl rfl rfl rfl rfl rfl rfl rfl fun _ => ready
    · exact legal.congr rfl rfl rfl rfl rfl rfl rfl rfl rfl (by intro h; cases h)
  · exact legal.congr rfl rfl rfl rfl rfl rfl rfl rfl rfl (by intro h; cases h)
  · rcases executeOne_cases run with ⟨i, n, run⟩ | ⟨used, decremented, rfl⟩
    · exact exec_legal (legal.fetched n) noFault run
    · exact legal.fetchFault noFault used decremented

/-- A part switch answers a next state or is refused (47_scheduler.md R249). -/
theorem partSwitchStep_ne_fault (s : State) (f : Fault) : partSwitchStep s ≠ .fault f := by
  unfold Machine.partSwitchStep switchPart
  repeat' split
  all_goals exact fun h => by cases h

/-- A legal mapping keeps the bytecode segment short enough for `pc` (10_state.md R28). -/
theorem executeOne_ne_fault (legal : LegalState s) (noFault : s.fault = none) (f : Fault) : executeOne s ≠ .fault f := by
  have mapped := legal.mapped noFault
  have short : ¬ bytecodeTooLong s = true := by
    simp only [legalMapping, Bool.and_eq_true, decide_eq_true_eq] at mapped
    simpa only [bytecodeTooLong, decide_eq_true_eq, not_lt] using mapped.2
  rw [executeOne, if_neg short]
  split
  next i n _ =>
    obtain ⟨t, h⟩ := exec_next i (fetched s n)
    rw [h]
    exact fun e => by cases e
  next => exact fun e => by cases e

theorem step_ne_fault (legal : LegalState s) (f : Fault) : step s ≠ .fault f := by
  by_cases noFault : s.fault = none
  · cases hphase : s.phase with
    | frameTop =>
      rw [step_frameTop noFault hphase]
      exact partSwitchStep_ne_fault s f
    | commit => simp [step_commit noFault hphase]
    | select n => simp [step_select noFault hphase]
    | slice =>
      cases hyield : s.yield with
      | true => simp [step_slice_end noFault hphase hyield]
      | false =>
        rw [step_slice noFault hphase hyield]
        exact executeOne_ne_fault legal noFault f
  · simp [step_halted noFault]

end

/-- Settles O59: `step_legal` goes through the kinds of steps, `exec_legal` through what an instruction makes of each part
of the invariant. -/
theorem invariantIsKept : Obligations.InvariantIsKept := fun _ legal =>
  ⟨fun _ => step_legal legal, step_ne_fault legal⟩

theorem resetWith_legal {b : Boot} (memWf : b.mem.wf = true) (inArena : ∀ c ∈ b.mem, c.1 < b.arenaSize)
    (mapped : legalMapping b.arenaSize b.seg = true) (depth : 1 ≤ b.hierDepthMax) : LegalState (State.resetWith b) where
  memWf := memWf
  memInArena := inArena
  mapped := fun _ => mapped
  palette := .inr rfl
  part := .inl rfl
  depth := depth
  oneFault := rfl
  owner := by intro h; cases h
  callsLegal := by intro c hc; cases hc

/-- Settles O60: nothing is pending or logged after reset, and the rest is what the boot guarantees. -/
theorem invariantHoldsAtReset : Obligations.InvariantHoldsAtReset :=
  ⟨fun _ => resetWith_legal, resetWith_legal rfl (by intro c hc; cases hc) rfl (by decide)⟩

end Sys2Proof.Machine

/-! Polygon records: what `ReadAndDraw` makes of each kind of record, and of one that runs off its segment
(46_polygon_rasterizer.md R211, R212, R215, R230 to R234). -/

namespace Sys2Proof.Machine

section
variable {s : State} {g : Segment}

/-! Reads up to the end of the readable bytes. -/

/-- The readable bytes from `dp` on are `bytes`, and no more. -/
def EndsAfter (s : State) (g : Segment) (dp : Nat) (bytes : List Byte) : Prop :=
  window s g dp (bytes.length + 1) = bytes

theorem EndsAfter.cons {dp : Nat} {b : Byte} {r : List Byte} (h : EndsAfter s g dp (b :: r)) :
    polyByte s g dp = .ok (b, dp + 1) ∧ EndsAfter s g (dp + 1) r :=
  polyByte_of_window h

theorem EndsAfter.word {dp : Nat} {hi lo : Byte} {r : List Byte} (h : EndsAfter s g dp (hi :: lo :: r)) :
    polyWord s g dp = .ok (bigEndian hi lo, dp + 2) ∧ EndsAfter s g (dp + 2) r :=
  polyWord_of_window h

theorem EndsAfter.nil {dp : Nat} (h : EndsAfter s g dp []) : polyByte s g dp = .error (raise s (.segmentBounds g dp)) :=
  polyByte_at_end h

/-- However many bytes are asked for, the window shows the readable ones. -/
theorem EndsAfter.window {dp n : Nat} {bytes : List Byte} (h : EndsAfter s g dp bytes) (hn : bytes.length < n) :
    window s g dp n = bytes := by
  have front : (Machine.window s g dp n).take (bytes.length + 1) = bytes := by rw [← window_take s g dp hn]; exact h
  have length := congrArg List.length front
  rw [List.length_take] at length
  rwa [List.take_of_length_le (by omega)] at front

theorem endsAfter_of_short {dp n : Nat} (h : (window s g dp n).length < n) : EndsAfter s g dp (window s g dp n) := by
  rw [EndsAfter, window_take s g dp (Nat.succ_le_of_lt h), List.take_of_length_le (Nat.le_succ _)]

/-- Points of which only the first bytes are readable: `SEGMENT_BOUNDS` after them (R215). -/
theorem readPoints_of_end (zoom : Word) {dp n : Nat} {bytes : List Byte} (h : EndsAfter s g dp bytes)
    (short : bytes.length < 2 * n) :
    readPoints s g zoom dp n = .error (raise s (.segmentBounds g (dp + bytes.length))) := by
  induction n generalizing dp bytes with
  | zero => omega
  | succ n ih =>
    match bytes, short with
    | [], _ => simp only [readPoints, h.nil, bind, Except.bind, List.length_nil, Nat.add_zero]
    | [bx], _ =>
      obtain ⟨first, h⟩ := h.cons
      simp only [readPoints, first, h.nil, bind, Except.bind, List.length_cons, List.length_nil]
    | bx :: yb :: r, short =>
      obtain ⟨first, h⟩ := h.cons
      obtain ⟨second, h⟩ := h.cons
      have rest := ih h (by simp only [List.length_cons] at short; omega)
      rw [show dp + (bx :: yb :: r).length = dp + 1 + 1 + r.length by simp only [List.length_cons]; omega]
      simp only [readPoints, first, second, bind, Except.bind, rest]

/-- The header of a direct record, and its points where its count is legal, of which only the first bytes are readable. -/
theorem readVertices_of_end (zoom : Word) {dp : Nat} {bytes : List Byte} (h : EndsAfter s g dp bytes)
    (short : bytes.length < 3 ∨
      ∃ n : Byte, bytes[2]? = some n ∧ n.toNat % 2 = 0 ∧ n.toNat < 50 ∧ bytes.length < 3 + 2 * n.toNat) :
    readVertices s g zoom dp = .error (raise s (.segmentBounds g (dp + bytes.length))) := by
  match bytes, short with
  | [], _ => simp only [readVertices, h.nil, bind, Except.bind, List.length_nil, Nat.add_zero]
  | [w], _ =>
    obtain ⟨first, h⟩ := h.cons
    simp only [readVertices, first, h.nil, bind, Except.bind, List.length_cons, List.length_nil]
  | [w, h'], _ =>
    obtain ⟨first, h⟩ := h.cons
    obtain ⟨second, h⟩ := h.cons
    simp only [readVertices, first, second, h.nil, bind, Except.bind, List.length_cons, List.length_nil, Nat.add_assoc,
      Nat.zero_add]
  | w :: h' :: n :: r, short =>
    obtain ⟨first, h⟩ := h.cons
    obtain ⟨second, h⟩ := h.cons
    obtain ⟨third, h⟩ := h.cons
    obtain ⟨n', hn, even, max, short⟩ := short.resolve_left (by simp)
    obtain rfl : n = n' := by simpa using hn
    have legal : ¬ (n.toNat % 2 = 1 ∨ Config.maxPoints ≤ n.toNat) := by
      simp only [Config.maxPoints]
      omega
    have points := readPoints_of_end (n := n.toNat) zoom h (by simp only [List.length_cons] at short; omega)
    rw [show dp + (w :: h' :: n :: r).length = dp + 1 + 1 + 1 + r.length by simp only [List.length_cons]; omega]
    simp only [readVertices, first, second, third, bind, Except.bind, if_neg legal, points]

/-- An illegal count takes `BAD_VERTEX_COUNT` at the count byte, before any point is read (R268). -/
theorem readVertices_of_bad_count (zoom : Word) {dp : Nat} {w h n : Byte} (hrec : window s g dp 3 = [w, h, n])
    (bad : n.toNat % 2 = 1 ∨ 50 ≤ n.toNat) :
    readVertices s g zoom dp = .error (raise s (.badVertexCount s.insnPc (dp + 2) n)) := by
  obtain ⟨first, afterWidth⟩ := polyByte_of_window hrec
  obtain ⟨second, afterHeight⟩ := polyByte_of_window afterWidth
  obtain ⟨third, _⟩ := polyByte_of_window afterHeight
  simp only [readVertices, first, second, third, bind, Except.bind, Config.maxPoints, if_pos bad]
  rfl

/-- The header of a hierarchy of which only the first bytes are readable. -/
theorem drawHierarchy_of_end (draw : DrawRecord) (zoom x y : Word) {dp : Nat} {bytes : List Byte}
    (h : EndsAfter s g dp bytes) (short : bytes.length < 3) :
    drawHierarchy draw g zoom s x y dp = .error (raise s (.segmentBounds g (dp + bytes.length))) := by
  match bytes, short with
  | [], _ => simp only [drawHierarchy, h.nil, bind, Except.bind, List.length_nil, Nat.add_zero]
  | [ax], _ =>
    obtain ⟨first, h⟩ := h.cons
    simp only [drawHierarchy, first, h.nil, bind, Except.bind, List.length_cons, List.length_nil]
  | [ax, ay], _ =>
    obtain ⟨first, h⟩ := h.cons
    obtain ⟨second, h⟩ := h.cons
    simp only [drawHierarchy, first, second, h.nil, bind, Except.bind, List.length_cons, List.length_nil, Nat.add_assoc,
      Nat.zero_add]

/-- A child record of which only the first bytes are readable: `SEGMENT_BOUNDS` at the first of its fetches, the word
fetched whole, that needs a byte past them (R230, R231). -/
theorem readChild_of_end (zoom x y : Word) {dp : Nat} {bytes : List Byte} (h : EndsAfter s g dp bytes)
    (short : bytes.length < if 128 ≤ (bytes.getD 0 0).toNat then 6 else 4) :
    readChild s g zoom x y dp =
      .error (raise s (.segmentBounds g (dp + failingFetch bytes.length 0 [2, 1, 1, 1, 1]))) := by
  match bytes, short with
  | [], _ | [_], _ =>
    have word : polyWord s g dp = .error (raise s (.segmentBounds g dp)) :=
      polyWord_at_end (n := 0) (by rw [h.window (by simp)]; simp)
    simp only [readChild, word, bind, Except.bind]
    rfl
  | hi :: lo :: r, short =>
    obtain ⟨word, h⟩ := EndsAfter.word h
    match r, short with
    | [], _ =>
      simp only [readChild, word, h.nil, bind, Except.bind]
      rfl
    | [dx], _ =>
      obtain ⟨byteX, h⟩ := h.cons
      simp only [readChild, word, byteX, h.nil, bind, Except.bind]
      rfl
    | dx :: dy :: r, short =>
      obtain ⟨byteX, h⟩ := h.cons
      obtain ⟨byteY, h⟩ := h.cons
      have coloured : 128 ≤ hi.toNat := by
        by_contra plain
        simp [plain] at short
        omega
      simp only [List.getD_cons_zero, if_pos coloured, List.length_cons] at short
      match r, short with
      | [], _ =>
        simp only [readChild, word, byteX, byteY, h.nil, bind, Except.bind, bigEndian_bit15,
          decide_eq_true coloured, if_true]
        rfl
      | [c], _ =>
        obtain ⟨colour, h⟩ := h.cons
        simp only [readChild, word, byteX, byteY, colour, h.nil, bind, Except.bind, bigEndian_bit15,
          decide_eq_true coloured, if_true]
        rfl
      | _ :: _ :: _, short => simp at short; omega

/-! Kinds of records. -/

/-- The low six bits of a discriminator that is a hierarchy's (R212). -/
theorem low6_eq_two_iff (disc : Byte) : disc &&& 0x3F = 2 ↔ disc.toNat % 64 = 2 := by
  rw [low6_eq, ← BitVec.toNat_inj, BitVec.toNat_ofNat, Nat.mod_eq_of_lt (a := disc.toNat % 64) (by omega)]
  rfl

theorem readAndDraw_of_unreadable (zoom x y : Word) (depth : Nat) (colour : Byte) {dp : Nat} (h : EndsAfter s g dp []) :
    readAndDraw g zoom depth s colour x y dp = .error (raise s (.segmentBounds g dp)) := by
  rw [readAndDraw_eq, h.nil]
  rfl

theorem readAndDraw_direct (zoom x y : Word) (depth : Nat) (colour : Byte) {dp : Nat} {disc : Byte}
    (hdisc : polyByte s g dp = .ok (disc, dp + 1)) (direct : 0xC0 ≤ disc.toNat) :
    readAndDraw g zoom depth s colour x y dp = readVertices s g zoom (dp + 1) >>= fun p =>
      .ok { s with pages := fillPolygon s.pages s.ptr1 p (recordColour colour disc) x y } := by
  rw [readAndDraw_eq, hdisc]
  exact if_pos direct

theorem readAndDraw_hierarchy (zoom x y : Word) (depth : Nat) (colour : Byte) {dp : Nat} {disc : Byte}
    (hdisc : polyByte s g dp = .ok (disc, dp + 1)) (low : disc.toNat < 0xC0) (hier : disc.toNat % 64 = 2) :
    readAndDraw g zoom depth s colour x y dp = openHierarchy g zoom depth s x y (dp + 1) := by
  rw [readAndDraw_eq, hdisc]
  exact (if_neg (not_le.2 low)).trans (if_pos ((low6_eq_two_iff disc).2 hier))

theorem readAndDraw_other (zoom x y : Word) (depth : Nat) (colour : Byte) {dp : Nat} {disc : Byte}
    (hdisc : window s g dp 1 = [disc]) (low : disc.toNat < 0xC0) (other : disc.toNat % 64 ≠ 2) :
    readAndDraw g zoom depth s colour x y dp =
      .ok (logSoft s (.badPolyDiscriminator s.insnPc dp (BitVec.ofNat 8 (disc.toNat % 64)))) := by
  rw [readAndDraw_eq, (polyByte_of_window hdisc).1]
  refine (if_neg (not_le.2 low)).trans ((if_neg (mt (low6_eq_two_iff disc).1 other)).trans ?_)
  rw [low6_eq, Nat.add_sub_cancel]

theorem readAndDraw_bad_count (zoom x y : Word) (depth : Nat) (colour : Byte) {dp : Nat} {disc w h n : Byte}
    (hrec : window s g dp 4 = [disc, w, h, n]) (direct : 0xC0 ≤ disc.toNat) (bad : n.toNat % 2 = 1 ∨ 50 ≤ n.toNat) :
    readAndDraw g zoom depth s colour x y dp = .error (raise s (.badVertexCount s.insnPc (dp + 3) n)) := by
  obtain ⟨hdisc, header⟩ := polyByte_of_window hrec
  rw [readAndDraw_direct zoom x y depth colour hdisc direct, readVertices_of_bad_count zoom header bad]
  rfl

/-- A record of which only the first bytes are readable, too few of them for what they announce (R211, R213). -/
theorem readAndDraw_of_end (zoom x y : Word) {depth : Nat} (colour : Byte) {dp : Nat} {bytes : List Byte} {disc n : Byte}
    (h : EndsAfter s g dp bytes)
    (short : bytes = [] ∨
      (bytes[0]? = some disc ∧ 0xC0 ≤ disc.toNat ∧ (bytes.length < 4 ∨
        (bytes[3]? = some n ∧ n.toNat % 2 = 0 ∧ n.toNat < 50 ∧ bytes.length < 4 + 2 * n.toNat))) ∨
      (bytes[0]? = some disc ∧ disc.toNat < 0xC0 ∧ disc.toNat % 64 = 2 ∧ 1 ≤ depth ∧ bytes.length < 4)) :
    readAndDraw g zoom depth s colour x y dp = .error (raise s (.segmentBounds g (dp + bytes.length))) := by
  rcases bytes with _ | ⟨b, r⟩
  · exact readAndDraw_of_unreadable zoom x y depth colour h
  · obtain ⟨hdisc, rest⟩ := h.cons
    rw [show dp + (b :: r).length = dp + 1 + r.length by simp only [List.length_cons]; omega]
    simp only [List.getElem?_cons_zero, Option.some.injEq, List.getElem?_cons_succ, List.length_cons, reduceCtorEq,
      false_or] at short
    rcases short with ⟨rfl, direct, short⟩ | ⟨rfl, low, hier, depth_pos, short⟩
    · rw [readAndDraw_direct zoom x y depth colour hdisc direct, readVertices_of_end zoom rest ?_]
      · rfl
      · rcases short with header | ⟨count, even, max, points⟩
        · exact .inl (by omega)
        · exact .inr ⟨n, count, even, max, by omega⟩
    · obtain ⟨d, rfl⟩ := Nat.exists_eq_add_of_le' depth_pos
      rw [readAndDraw_hierarchy zoom x y _ colour hdisc low hier]
      exact drawHierarchy_of_end _ zoom x y rest (by omega)

/-- The colour a direct record is drawn in, from bit 7 of the colour passed in (R212). -/
theorem recordColour_eq (colour disc : Byte) :
    recordColour colour disc = if 128 ≤ colour.toNat then BitVec.ofNat 8 (disc.toNat % 64) else colour := by
  rw [recordColour, low6_eq]
  exact if_congr (bit7_iff colour) rfl rfl

/-! Hierarchies. -/

/-- A hierarchy that may be opened, of whose children the first are stored as `children` and `m` are left: those are drawn
in stored order, then the rest (R230, R234). -/
theorem readAndDraw_children (zoom x y : Word) (depth m : Nat) (colour : Byte) {dp : Nat} {disc ax ay last : Byte}
    {children : List ChildBytes} (low : disc.toNat < 0xC0) (hier : disc.toNat % 64 = 2) (fits : ∀ c ∈ children, c.fits)
    (hrec : window s g dp (4 + (children.flatMap ChildBytes.stored).length) =
      disc :: ax :: ay :: last :: children.flatMap ChildBytes.stored)
    (count : children.length + m = last.toNat + 1) :
    readAndDraw g zoom (depth + 1) s colour x y dp =
      (children.foldlM (drawChild g zoom (x - scale ax zoom) (y - scale ay zoom) depth) s >>= fun t =>
        drawChildren (readAndDraw g zoom depth) g zoom (x - scale ax zoom) (y - scale ay zoom) m t
          (dp + 4 + (children.flatMap ChildBytes.stored).length)) := by
  obtain ⟨hdisc, header⟩ := polyByte_of_window hrec
  obtain ⟨first, header⟩ := polyByte_of_window header
  obtain ⟨second, header⟩ := polyByte_of_window header
  obtain ⟨third, body⟩ := polyByte_of_window header
  rw [readAndDraw_hierarchy zoom x y _ colour hdisc low hier, openHierarchy, drawHierarchy, first]
  simp only [second, third, bind, Except.bind, ← count]
  rw [show 4 + (children.flatMap ChildBytes.stored).length - 1 - 1 - 1 - 1 =
    (children.flatMap ChildBytes.stored).length by omega] at body
  exact drawChildren_of_window g zoom _ _ depth m children s (dp + 4) fits body

/-- Drawing children logs and paints; it leaves the registers that reads and faults use as they are. -/
theorem drawChild_fold_painted (zoom cx cy : Word) (depth : Nat) {children : List ChildBytes} {t : State}
    (h : children.foldlM (drawChild g zoom cx cy depth) s = .ok t) : ∃ new, Painted s t new := by
  induction children generalizing s with
  | nil =>
    cases h
    exact ⟨[], .refl _⟩
  | cons c r ih =>
    rw [List.foldlM_cons] at h
    have result := readAndDraw_result g zoom depth s
      (if 128 ≤ c.hi.toNat then BitVec.ofNat 8 ((c.extra.getD 0 0).toNat % 128) else 0xFF) (cx + scale c.dx zoom)
      (cy + scale c.dy zoom) c.target
    rw [← drawChild] at result
    cases drawn : drawChild g zoom cx cy depth s c with
    | error e =>
      rw [drawn] at h
      cases h
    | ok u =>
      rw [drawn] at h result
      obtain ⟨a, first⟩ := result
      obtain ⟨b, rest⟩ := ih h
      exact ⟨_, first.trans rest⟩

theorem Painted.insnPc {t : State} {new : List LogRecord} (h : Painted s t new) : t.insnPc = s.insnPc := by rw [h.rest]

/-- A fault after a draw is recorded with the instruction and thread the draw began with. -/
theorem Painted.raise_eq {t : State} {new : List LogRecord} (h : Painted s t new) (f : FatalFault) :
    raise t f = { t with fault := some f, log := t.log ++ [⟨.fatal f, s.insnPc, s.curThr⟩] } := by
  have thread : t.curThr = s.curThr := by rw [h.rest]
  rw [raise, h.insnPc, thread]

theorem Painted.window {t : State} {new : List LogRecord} (h : Painted s t new) (g : Segment) (off n : Nat) :
    window t g off n = window s g off n :=
  window_congr g (by rw [h.rest]) (by rw [h.rest]) (by rw [h.rest]) off n

end

/-- The colour a child is drawn in: its colour byte's low 7 bits, or its record's own (R230, R212). -/
theorem recordColour_of_child (c : ChildBytes) (d : Byte) :
    recordColour (if 128 ≤ c.hi.toNat then BitVec.ofNat 8 ((c.extra.getD 0 0).toNat % 128) else 0xFF) d =
      if 128 ≤ c.hi.toNat then BitVec.ofNat 8 ((c.extra.getD 0 0).toNat % 128) else BitVec.ofNat 8 (d.toNat % 64) := by
  rw [recordColour_eq]
  by_cases coloured : 128 ≤ c.hi.toNat
  · have low7 : ¬ 128 ≤ (BitVec.ofNat 8 ((c.extra.getD 0 0).toNat % 128)).toNat := by
      rw [BitVec.toNat_ofNat]
      omega
    rw [if_pos coloured, if_pos coloured, if_neg low7]
  · rw [if_neg coloured, if_neg coloured]
    rfl

theorem drawChild_bad_count {t : State} {g : Segment} (zoom cx cy : Word) (depth : Nat) {c : ChildBytes} {d w h n : Byte}
    (hrec : window t g c.target 4 = [d, w, h, n]) (direct : 0xC0 ≤ d.toNat) (bad : n.toNat % 2 = 1 ∨ 50 ≤ n.toNat) :
    drawChild g zoom cx cy depth t c = .error (raise t (.badVertexCount t.insnPc (c.target + 3) n)) :=
  readAndDraw_bad_count zoom _ _ depth _ hrec direct bad

/-- Where the next child record runs off the segment no more is drawn (R230, R234). -/
theorem drawChildren_of_end (draw : DrawRecord) {t : State} {g : Segment} (zoom x y : Word) (n : Nat) {dp : Nat}
    {bytes : List Byte} (h : EndsAfter t g dp bytes)
    (short : bytes.length < if 128 ≤ (bytes.getD 0 0).toNat then 6 else 4) :
    drawChildren draw g zoom x y (n + 1) t dp =
      .error (raise t (.segmentBounds g (dp + failingFetch bytes.length 0 [2, 1, 1, 1, 1]))) := by
  rw [drawChildren, readChild_of_end zoom x y h short]
  rfl

/-! The instructions that draw. -/

theorem exec_of_readAndDraw {i : Instr} {s : State} {c : DrawCall} (h : drawCall s i = some c) :
    exec i s = settle (readAndDraw c.seg c.zoom s.hierDepthMax s 0xFF c.x c.y c.off) :=
  exec_of_drawCall h

/-- Settles O34, by `readAndDraw_other`. -/
theorem badDiscriminatorDrawsNothing : Obligations.BadDiscriminatorDrawsNothing := by
  intro i s c disc draws hdisc low other
  rw [exec_of_readAndDraw draws, readAndDraw_other c.zoom c.x c.y _ _ hdisc low other]
  exact ⟨_, rfl, rfl, fun _ => rfl⟩

/-- Settles O35, by `readAndDraw_bad_count`: the count is tested before a point is read. -/
theorem badVertexCountFaults : Obligations.BadVertexCountFaults := by
  intro i s c disc w h n draws hrec direct bad
  rw [exec_of_readAndDraw draws, readAndDraw_bad_count c.zoom c.x c.y _ _ hrec direct bad]
  rfl

/-- Settles O33: `readAndDraw_of_direct` in the record's own colour, and `readAndDraw_of_end`. -/
theorem directRecordIsDrawn : Obligations.DirectRecordIsDrawn := by
  intro i s c draws
  rw [exec_of_readAndDraw draws]
  refine ⟨fun disc w h n body hrec hbody direct even max => ⟨_, ?_, rfl, fun _ => rfl⟩, fun bytes disc n cut short => ?_⟩
  · rw [readAndDraw_of_direct c.zoom c.x c.y _ _ hrec hbody direct even max, recordColour_eq]
    rfl
  · rw [readAndDraw_of_end c.zoom c.x c.y 0xFF cut short]
    rfl

/-- The record offset of a draw is 16 bits wide (45_polygon_draw.md R196, R198). -/
theorem drawCall_off_lt {i : Instr} {s : State} {c : DrawCall} (h : drawCall s i = some c) : c.off < 65536 := by
  cases i with
  | bpoly off x y =>
    rw [drawCall_bpoly] at h
    cases h
    have := off.isLt
    simp only [bpolyOffset]
    omega
  | spoly off x y zoom =>
    rw [drawCall_spoly] at h
    cases h
    exact Nat.mod_lt _ (by decide)
  | _ => cases h

/-- A hierarchy whose first child is itself opens one level after another until none is left (R232). -/
theorem readAndDraw_of_self_reference {s : State} {g : Segment} (zoom : Word) {off : Nat}
    {disc ax ay last hi lo dx dy : Byte} (hrec : window s g off 8 = [disc, ax, ay, last, hi, lo, dx, dy])
    (low : disc.toNat < 0xC0) (hier : disc.toNat % 64 = 2) (plain : hi.toNat < 128)
    (self : 2 * (hi.toNat * 256 + lo.toNat) = off) (depth : Nat) (colour : Byte) (x y : Word) :
    readAndDraw g zoom depth s colour x y off = .error (raise s (.hierDepth s.insnPc (off + 1))) := by
  induction depth generalizing colour x y with
  | zero => exact readAndDraw_hierarchy zoom x y 0 colour (polyByte_of_window hrec).1 low hier
  | succ depth ih =>
    have target : (ChildBytes.mk hi lo dx dy []).target = off := by
      rw [ChildBytes.target, Nat.mod_eq_of_lt plain, self]
    rw [readAndDraw_children (children := [⟨hi, lo, dx, dy, []⟩]) zoom x y depth last.toNat colour low hier
      (by simp [ChildBytes.fits, plain]) hrec (by simp [Nat.add_comm])]
    simp only [List.foldlM_cons, drawChild, target, ih]
    rfl

/-- Settles O37: `readAndDraw_children` splits the draws of the stored children off; what is left is none of them, a read
that runs off the segment, or not reached. -/
theorem hierarchyDrawsItsChildren : Obligations.HierarchyDrawsItsChildren := by
  refine ⟨fun i s c draws => ?instruction,
    fun s g zoom x y depth dp colour disc w h n body hrec hbody direct even max => ?direct,
    fun s g zoom x y dp colour disc hdisc low hier => ?depth, ?children⟩
  case instruction =>
    rw [exec_of_readAndDraw draws]
    cases readAndDraw c.seg c.zoom s.hierDepthMax s 0xFF c.x c.y c.off with
    | ok t => exact ⟨t, rfl, .inl rfl⟩
    | error t => exact ⟨t, rfl, .inr rfl⟩
  case direct => rw [readAndDraw_of_direct zoom x y depth colour hrec hbody direct even max, recordColour_eq]
  case depth => exact readAndDraw_hierarchy zoom x y 0 colour (polyByte_of_window hdisc).1 low hier
  case children =>
    rintro s g zoom x y _ _ depth dp _ colour disc ax ay last children low hier rfl rfl fits hrec rfl
    have drawn (m : Nat) := readAndDraw_children zoom x y depth m colour low hier fits hrec
    have faults (count : children.length ≤ last.toNat + 1) (e : State)
        (fault : children.foldlM (drawChild g zoom (x - scale ax zoom) (y - scale ay zoom) depth) s = .error e) :
        readAndDraw g zoom (depth + 1) s colour x y dp = .error e := by
      rw [drawn (last.toNat + 1 - children.length) (by omega), fault]
      rfl
    refine ⟨fun all => ?all, faults, fun count front c t d w h n split before hrec direct bad => ?badCount,
      fun more t rest off before window short hoff => ?runsOff, fun c t d w h n body hrec hbody direct even max => ?child,
      fun c t d hdisc low other => ?skipped⟩
    case all =>
      rw [drawn 0 (by omega)]
      exact bind_pure _
    case badCount =>
      obtain ⟨_, painted⟩ := drawChild_fold_painted _ _ _ _ before
      refine (faults count _ ?_).trans
        (congrArg Except.error (painted.raise_eq (.badVertexCount s.insnPc (c.target + 3) n)))
      rw [split, List.foldlM_append, before, ← painted.insnPc]
      simp only [bind, Except.bind, List.foldlM_cons, drawChild_bad_count zoom _ _ depth hrec direct bad]
    case runsOff =>
      obtain ⟨_, painted⟩ := drawChild_fold_painted _ _ _ _ before
      have cut : rest.length < 6 := short.trans_le (by split <;> decide)
      rw [← window, ← painted.window] at short cut hoff
      rw [drawn (last.toNat - children.length + 1) (by omega), before, hoff]
      exact (drawChildren_of_end _ zoom _ _ _ (endsAfter_of_short cut) short).trans
        (congrArg Except.error (painted.raise_eq _))
    case child =>
      rw [drawChild, readAndDraw_of_direct zoom _ _ depth _ hrec hbody direct even max, recordColour_of_child]
    case skipped => exact readAndDraw_other zoom _ _ depth _ hdisc low other

/-- Settles O36: the offset the child names is below 65536, so bit 15 of its word is clear. -/
theorem selfReferentialHierarchyFaults : Obligations.SelfReferentialHierarchyFaults := by
  intro i s c disc ax ay last hi lo dx dy draws hrec low hier self
  have bound := drawCall_off_lt draws
  rw [exec_of_readAndDraw draws, readAndDraw_of_self_reference c.zoom hrec low hier (by omega) self]
  rfl

end Sys2Proof.Machine

/-! Filling a polygon in whole numbers: the fixed-point accumulators as integers modulo 2^32, the rows of the edge walk as
`rowEnds`, and the points paired as `segmentPairs` (46_polygon_rasterizer.md R217 to R227). -/

namespace Sys2Proof.Machine

/-! Coordinates modulo 65536. -/

theorem half_toInt (w : Word) : (w >>> 1).toInt = ((w.toNat / 2 : Nat) : Int) := by
  have hw := w.isLt
  have half : (w >>> 1).toNat = w.toNat / 2 := by rw [BitVec.toNat_ushiftRight, Nat.shiftRight_eq_div_pow, pow_one]
  rw [BitVec.toInt_eq_toNat_of_lt (by rw [half]; omega), half]

theorem sub_half_toInt (a w : Word) : (a - w >>> 1).toInt = (a.toInt - ((w.toNat / 2 : Nat) : Int)).bmod 65536 := by
  rw [BitVec.toInt_sub, half_toInt]

theorem add_half_toInt (a w : Word) : (a + w >>> 1).toInt = (a.toInt + ((w.toNat / 2 : Nat) : Int)).bmod 65536 := by
  rw [BitVec.toInt_add, half_toInt]

/-- A coordinate that does not leave the 16-bit range is not wrapped. -/
theorem bmod_of_range {a : Int} (low : -32768 ≤ a) (high : a < 32768) : a.bmod 65536 = a :=
  Int.bmod_eq_of_le (by omega) (by omega)

/-- Settles O43: without wrapping, `fillPolygon_rectangle_paints`; a box off the page has no pixel to paint. -/
theorem rectangleIsPainted : Obligations.RectangleIsPainted := by
  intro pages dst q w h ax ay colour x y wPos wMax hPos hMax axLow axHigh ayLow ayHigh hx hy
  have left : (ax - w >>> 1).toInt = ax.toInt - ((w.toNat / 2 : Nat) : Int) := by
    rw [sub_half_toInt, bmod_of_range (by omega) (by omega)]
  have far : (ax + w >>> 1).toInt = ax.toInt + ((w.toNat / 2 : Nat) : Int) := by
    rw [add_half_toInt, bmod_of_range (by omega) (by omega)]
  have top : (ay - h >>> 1).toInt = ay.toInt - ((h.toNat / 2 : Nat) : Int) := by
    rw [sub_half_toInt, bmod_of_range (by omega) (by omega)]
  have bottom : (ay + h >>> 1).toInt = ay.toInt + ((h.toNat / 2 : Nat) : Int) := by
    rw [add_half_toInt, bmod_of_range (by omega) (by omega)]
  have right : (w + (ax - w >>> 1)).toInt = ax.toInt - ((w.toNat / 2 : Nat) : Int) + w.toNat := by
    rw [BitVec.toInt_add, left, BitVec.toInt_eq_toNat_of_lt (x := w) (by omega),
      show (2 ^ 16 : Nat) = 65536 from rfl, bmod_of_range (by omega) (by omega), add_comm]
  have wArea : w ≠ 0 := by
    rintro rfl
    exact absurd wPos (by decide)
  have hArea : h ≠ 0 := by
    rintro rfl
    exact absurd hPos (by decide)
  by_cases reaches : ¬ ((319 : Int) < (ax - w >>> 1).toInt ∨ (ax + w >>> 1).toInt < 0 ∨
      (199 : Int) < (ay - h >>> 1).toInt ∨ (ay + h >>> 1).toInt < 0)
  · refine (fillPolygon_rectangle_paints pages dst colour wArea hArea rfl right rfl reaches).pixel_eq q hx hy ?_
    rw [spanCovers]
    omega
  · rw [fillPolygon, if_neg (not_or.2 ⟨wArea, hArea⟩)]
    dsimp only
    rw [if_pos (not_not.1 reaches), if_neg (by omega)]

/-! Accumulators. -/

theorem accX_ofInt (c : Int) : accX (BitVec.ofInt 32 c) = (c / 65536).bmod 65536 := by
  have whole : (((BitVec.ofInt 32 c >>> 16).setWidth 16).toNat : Int) = c / 65536 % 65536 := by
    rw [BitVec.toNat_setWidth, BitVec.toNat_ushiftRight, BitVec.toNat_ofInt, Nat.shiftRight_eq_div_pow]
    omega
  rw [accX, BitVec.toInt_eq_toNat_bmod, whole]
  exact Int.emod_bmod ..

/-- The fraction reloaded below the whole part of an accumulator (R221). -/
theorem reload_ofInt (c : Int) {fraction : Nat} (h : fraction < 65536) :
    (BitVec.ofInt 32 c &&& 0xFFFF0000) ||| BitVec.ofNat 32 fraction = BitVec.ofInt 32 (c / 65536 * 65536 + fraction) := by
  have mask (a : Acc) : a &&& (0xFFFF0000 : Acc) = a >>> 16 <<< 16 := by
    ext i hi
    interval_cases i <;> simp
  apply BitVec.eq_of_toNat_eq
  rw [mask, BitVec.toNat_or, BitVec.toNat_shiftLeft, BitVec.toNat_ushiftRight, BitVec.toNat_ofInt, BitVec.toNat_ofInt,
    BitVec.toNat_ofNat, Nat.shiftRight_eq_div_pow, Nat.shiftLeft_eq, Nat.mod_eq_of_lt (a := fraction) (by omega),
    Nat.mod_eq_of_lt (by omega), Nat.mul_comm, ← Nat.two_pow_add_eq_or_of_lt h]
  omega

theorem accOf_eq_ofInt (x : Word) : accOf x = BitVec.ofInt 32 (x.toInt * 65536) := by
  have hx := x.isLt
  apply BitVec.eq_of_toNat_eq
  rw [accOf, BitVec.toNat_shiftLeft, BitVec.toNat_setWidth, BitVec.toNat_ofInt, Nat.shiftLeft_eq,
    BitVec.toInt_eq_toNat_bmod, Int.bmod_def]
  split <;> omega

/-- The row difference of two points (R223). -/
theorem sub_toNat (a b : Word) : ((b - a).toNat : Int) = (b.toInt - a.toInt) % 65536 := by
  rw [BitVec.toNat_sub, BitVec.toInt_eq_toNat_bmod, BitVec.toInt_eq_toNat_bmod, Int.bmod_def, Int.bmod_def]
  have ha := a.isLt
  have hb := b.isLt
  split <;> split <;> omega

theorem interp_eq (a b : Word) : (interp (b - a) : Int) = interpOf (b.toInt - a.toInt) := by
  rw [interp, interpOf, ← sub_toNat]
  split
  · rw [if_pos (by omega)]
    rfl
  · rw [if_neg (by omega)]
    push_cast
    rfl

/-! One segment pair. -/

/-- The segment pair from `here` to `next`, as `segmentPair` describes it (R221). -/
def stepBetween (here next : Point × Point) : SegmentPair where
  rows := ((next.1.2.toInt - here.1.2.toInt) % 65536).toNat
  left := (next.2.1.toInt - here.2.1.toInt) * interpOf (next.2.2.toInt - here.2.2.toInt) * 4
  right := (next.1.1.toInt - here.1.1.toInt) * interpOf (next.1.2.toInt - here.1.2.toInt) * 4

theorem edgeStep_eq_ofInt (p q : Point) :
    edgeStep p q = BitVec.ofInt 32 ((q.1.toInt - p.1.toInt) * interpOf (q.2.toInt - p.2.toInt) * 4) := by
  rw [edgeStep, interp_eq]

theorem stepBetween_rows (here next : Point × Point) : (stepBetween here next).rows = (next.1.2 - here.1.2).toNat := by
  rw [stepBetween, ← sub_toNat, Int.toNat_natCast]

/-- The walk stands at row `row`, its edges at `cl` and `cr` modulo 2^32. -/
structure Walk.At (w : Walk) (row cl cr : Int) : Prop where
  row : w.row = row
  cl : w.cl = BitVec.ofInt 32 cl
  cr : w.cr = BitVec.ofInt 32 cr

theorem Walk.At.advance {w : Walk} {row cl cr : Int} (h : w.At row cl cr) (dst : Fin 4) (colour : Byte)
    (left right : Int) :
    (w.advance dst colour (BitVec.ofInt 32 left) (BitVec.ofInt 32 right)).At (row + 1) (cl + left) (cr + right) :=
  ⟨by rw [advance_row, h.row], by rw [advance_cl, h.cl, BitVec.ofInt_add], by rw [advance_cr, h.cr, BitVec.ofInt_add]⟩

/-- The whole parts the two edges reload, with the fractions that round them outwards (R221). -/
theorem Walk.At.reload {w : Walk} {row cl cr : Int} (h : w.At row cl cr) :
    w.reload.At row (cl / 65536 * 65536 + 0x7FFF) (cr / 65536 * 65536 + 0x8000) :=
  ⟨h.row, by rw [Walk.reload, h.cl]; exact reload_ofInt cl (by decide),
    by rw [Walk.reload, h.cr]; exact reload_ofInt cr (by decide)⟩

/-- The pixels of the `r`-th of `n` rows between two edges that stand at `cl` and `cr` in row `row`. -/
def RowsCover (row cl cr left right : Int) (n : Nat) (x y : Nat) : Prop :=
  ∃ r < n, (y : Int) = row + r ∧
    spanCovers (((cl + r * left) / 65536).bmod 65536) (((cr + r * right) / 65536).bmod 65536) x

theorem rowsCover_succ {row cl cr left right : Int} {n x y : Nat} :
    RowsCover row cl cr left right (n + 1) x y ↔
      ((y : Int) = row ∧ spanCovers ((cl / 65536).bmod 65536) ((cr / 65536).bmod 65536) x) ∨
        RowsCover (row + 1) (cl + left) (cr + right) left right n x y := by
  have next (c d : Int) (r : Nat) : c + d + r * d = c + (r + 1 : Nat) * d := by push_cast; ring
  constructor
  · rintro ⟨_ | r, hr, hy, hx⟩
    · exact .inl ⟨by simpa using hy, by simpa using hx⟩
    · exact .inr ⟨r, by omega, by omega, by rwa [next, next]⟩
  · rintro (⟨hy, hx⟩ | ⟨r, hr, hy, hx⟩)
    · exact ⟨0, by omega, by simpa using hy, by simpa using hx⟩
    · exact ⟨r + 1, by omega, by omega, by rwa [next, next] at hx⟩

/-- The rows of one segment pair are painted; the walk then stands after them, or has passed the bottom of the page
(R221). -/
theorem walkRows_paints (dst : Fin 4) (colour : Byte) (left right : Int) (n : Nat) {w : Walk} {row cl cr : Int}
    (h : w.At row cl cr) (onPage : row ≤ 199) :
    Paints dst colour (RowsCover row cl cr left right n) w.pages
        (walkRows dst colour (BitVec.ofInt 32 left) (BitVec.ofInt 32 right) n w).1.pages ∧
      ((walkRows dst colour (BitVec.ofInt 32 left) (BitVec.ofInt 32 right) n w).2 = true → 199 < row + n) ∧
      ((walkRows dst colour (BitVec.ofInt 32 left) (BitVec.ofInt 32 right) n w).2 = false → row + n ≤ 199 ∧
        (walkRows dst colour (BitVec.ofInt 32 left) (BitVec.ofInt 32 right) n w).1.At (row + n) (cl + n * left)
          (cr + n * right)) := by
  induction n generalizing w row cl cr with
  | zero =>
    refine ⟨.none _ fun x y _ _ ⟨r, hr, _⟩ => by omega, fun stopped => ?_, fun _ => ⟨by simpa using onPage, ?_⟩⟩
    rotate_left
    · simp only [Nat.cast_zero, zero_mul, add_zero]
      exact h
    cases stopped
  | succ n ih =>
    have first := advance_paints dst colour (BitVec.ofInt 32 left) (BitVec.ofInt 32 right) (h.row ▸ onPage)
    rw [h.row, h.cl, h.cr, accX_ofInt, accX_ofInt] at first
    rw [walkRows_succ, h.row]
    split
    next bottom =>
      refine ⟨first.congr fun x y _ hy => ?_, fun _ => by omega, fun going => by cases going⟩
      rw [rowsCover_succ]
      exact (or_iff_left (fun ⟨r, _, below, _⟩ => by omega)).symm
    next more =>
      obtain ⟨rest, stopped, going⟩ := ih (h.advance dst colour left right) (by omega)
      refine ⟨(first.trans rest).congr fun x y _ _ => rowsCover_succ.symm, fun stop => ?_, fun go => ?_⟩
      · have := stopped stop
        omega
      · obtain ⟨above, at_⟩ := going go
        refine ⟨by omega, ?_⟩
        convert at_ using 1 <;> push_cast <;> ring

/-! The edge walk. -/

/-- The segment pairs of a walk from `here` along `rest`. -/
def segmentsFrom (here : Point × Point) : List (Point × Point) → List SegmentPair
  | [] => []
  | next :: rest => stepBetween here next :: segmentsFrom next rest

/-- The pixels of the edge walk from row `row` on. -/
def WalkCovers (gs : List SegmentPair) (row cl cr : Int) (x y : Nat) : Prop :=
  row ≤ (y : Int) ∧ ∃ l r, rowEnds gs cl cr ((y : Int) - row).toNat = some (l, r) ∧ spanCovers l r x

/-- The rows of the first segment pair, then those of the others (R221). -/
theorem walkCovers_cons {g : SegmentPair} {gs : List SegmentPair} {row cl cr : Int} {x y : Nat} (rows : g.rows ≠ 0) :
    WalkCovers (g :: gs) row cl cr x y ↔
      RowsCover row (cl / 65536 * 65536 + 0x7FFF) (cr / 65536 * 65536 + 0x8000) g.left g.right g.rows x y ∨
        WalkCovers gs (row + g.rows) (cl / 65536 * 65536 + 0x7FFF + g.rows * g.left)
          (cr / 65536 * 65536 + 0x8000 + g.rows * g.right) x y := by
  have step : rowEnds (g :: gs) cl cr ((y : Int) - row).toNat =
      if ((y : Int) - row).toNat < g.rows then
        some (((cl / 65536 * 65536 + 0x7FFF + ((y : Int) - row).toNat * g.left) / 65536).bmod 65536,
          ((cr / 65536 * 65536 + 0x8000 + ((y : Int) - row).toNat * g.right) / 65536).bmod 65536)
      else rowEnds gs (cl / 65536 * 65536 + 0x7FFF + g.rows * g.left) (cr / 65536 * 65536 + 0x8000 + g.rows * g.right)
        (((y : Int) - row).toNat - g.rows) := by
    rw [rowEnds, if_neg rows]
  constructor
  · rintro ⟨below, l, r, ends, covers⟩
    rw [step] at ends
    split at ends
    next inside =>
      cases ends
      exact .inl ⟨_, inside, by omega, covers⟩
    next beyond =>
      refine .inr ⟨by omega, l, r, ?_, covers⟩
      rwa [show ((y : Int) - (row + g.rows)).toNat = ((y : Int) - row).toNat - g.rows by omega]
  · rintro (⟨r, inside, hy, covers⟩ | ⟨below, l, r, ends, covers⟩)
    · obtain rfl : r = ((y : Int) - row).toNat := by omega
      exact ⟨by omega, _, _, by rw [step, if_pos inside], covers⟩
    · refine ⟨by omega, l, r, ?_, covers⟩
      rw [step, if_neg (by omega)]
      rwa [show ((y : Int) - (row + g.rows)).toNat = ((y : Int) - row).toNat - g.rows by omega] at ends

/-- A segment pair of no rows moves both edges by one step (R221). -/
theorem walkCovers_cons_empty {g : SegmentPair} {gs : List SegmentPair} {row cl cr : Int} {x y : Nat}
    (rows : g.rows = 0) :
    WalkCovers (g :: gs) row cl cr x y ↔
      WalkCovers gs row (cl / 65536 * 65536 + 0x7FFF + g.left) (cr / 65536 * 65536 + 0x8000 + g.right) x y := by
  unfold WalkCovers
  rw [rowEnds, if_pos rows]

theorem edgeWalk_paints (dst : Fin 4) (colour : Byte) (here : Point × Point) (rest : List (Point × Point)) {w : Walk}
    {row cl cr : Int} (h : w.At row cl cr) (onPage : row ≤ 199) :
    Paints dst colour (WalkCovers (segmentsFrom here rest) row cl cr) w.pages (edgeWalk dst colour here rest w) := by
  induction rest generalizing here w row cl cr with
  | nil => exact .none _ fun x y _ _ ⟨_, l, r, ends, _⟩ => by cases ends
  | cons next rest ih =>
    have rows := stepBetween_rows here next
    rw [edgeWalk_cons, segmentsFrom]
    split
    next empty =>
      have noRows : (stepBetween here next).rows = 0 := by rw [rows, empty]; rfl
      have moved := h.reload
      have left : w.reload.cl + edgeStep here.2 next.2 =
          BitVec.ofInt 32 (cl / 65536 * 65536 + 0x7FFF + (stepBetween here next).left) := by
        rw [moved.cl, edgeStep_eq_ofInt, ← BitVec.ofInt_add]
        rfl
      have right : w.reload.cr + edgeStep here.1 next.1 =
          BitVec.ofInt 32 (cr / 65536 * 65536 + 0x8000 + (stepBetween here next).right) := by
        rw [moved.cr, edgeStep_eq_ofInt, ← BitVec.ofInt_add]
        rfl
      have stepped : ({ w.reload with
          cl := w.reload.cl + edgeStep here.2 next.2, cr := w.reload.cr + edgeStep here.1 next.1 } : Walk).At row _ _ :=
        ⟨moved.row, left, right⟩
      exact (ih next stepped onPage).congr fun x y _ _ => (walkCovers_cons_empty noRows).symm
    next more =>
      have someRows : (stepBetween here next).rows ≠ 0 := by
        rw [rows]
        exact fun zero => more (BitVec.eq_of_toNat_eq zero)
      obtain ⟨painted, stopped, going⟩ := walkRows_paints dst colour (stepBetween here next).left
        (stepBetween here next).right (stepBetween here next).rows h.reload onPage
      have segment : walkRows dst colour (BitVec.ofInt 32 (stepBetween here next).left)
          (BitVec.ofInt 32 (stepBetween here next).right) (stepBetween here next).rows w.reload =
          walkSegment dst colour here next w := by
        rw [walkSegment, rows, edgeStep_eq_ofInt, edgeStep_eq_ofInt]
        rfl
      rw [segment] at painted stopped going
      split
      next stop =>
        refine painted.congr fun x y _ hy => ?_
        rw [walkCovers_cons someRows]
        exact (or_iff_left fun ⟨below, _⟩ => by have := stopped stop; omega).symm
      next go =>
        obtain ⟨above, after⟩ := going (Bool.eq_false_of_not_eq_true go)
        exact (painted.trans (ih next after above)).congr fun x y _ _ => (walkCovers_cons someRows).symm

/-! The points paired. -/

theorem edgePairs_length {pts : List Point} (even : pts.length % 2 = 0) : (edgePairs pts).length = pts.length / 2 := by
  simp only [edgePairs, List.length_zip, List.length_take, List.length_reverse, List.length_drop]
  omega

/-- Pair `k` is the `k`-th point and the `k`-th from the end (R217). -/
theorem edgePairs_getElem {pts : List Point} (even : pts.length % 2 = 0) {k : Nat} (hk : k < (edgePairs pts).length) :
    (edgePairs pts)[k] =
      (pts[k]'(by rw [edgePairs_length even] at hk; omega),
        pts[pts.length - 1 - k]'(by rw [edgePairs_length even] at hk; omega)) := by
  rw [edgePairs_length even] at hk
  simp only [edgePairs, List.getElem_zip, List.getElem_take, List.getElem_reverse, List.getElem_drop, List.length_drop]
  congr 2
  omega

theorem segmentsFrom_length (here : Point × Point) (rest : List (Point × Point)) :
    (segmentsFrom here rest).length = rest.length := by
  induction rest generalizing here with
  | nil => rfl
  | cons next rest ih => simp only [segmentsFrom, List.length_cons, ih]

theorem segmentsFrom_getElem (here : Point × Point) (rest : List (Point × Point)) {k : Nat}
    (hk : k < (segmentsFrom here rest).length) :
    (segmentsFrom here rest)[k] =
      stepBetween ((here :: rest)[k]'(by rw [segmentsFrom_length] at hk; simp; omega))
        ((here :: rest)[k + 1]'(by rw [segmentsFrom_length] at hk; simp; omega)) := by
  induction rest generalizing here k with
  | nil => simp [segmentsFrom] at hk
  | cons next rest ih =>
    cases k with
    | zero => rfl
    | succ k => exact ih next (by simpa [segmentsFrom] using hk)

/-- The segment pairs of the walk are those of the description (R217, R221). -/
theorem segmentsFrom_edgePairs {pts : List Point} {first : Point × Point} {rest : List (Point × Point)}
    (even : pts.length % 2 = 0) (pairs : edgePairs pts = first :: rest) : segmentsFrom first rest = segmentPairs pts := by
  have length := edgePairs_length even
  rw [pairs, List.length_cons] at length
  refine List.ext_getElem ?_ fun k hk _ => ?_
  · simp only [segmentsFrom_length, segmentPairs, List.length_map, List.length_range]
    omega
  · rw [segmentsFrom_length] at hk
    have pair {j : Nat} (hj : j < (first :: rest).length) : (first :: rest)[j] =
        (pts.getD j (0, 0), pts.getD (pts.length - 1 - j) (0, 0)) := by
      simp only [← pairs] at hj ⊢
      rw [edgePairs_getElem even hj]
      rw [edgePairs_length even] at hj
      rw [List.getD_eq_getElem _ _ (by omega), List.getD_eq_getElem _ _ (by omega)]
    rw [segmentsFrom_getElem, pair, pair]
    simp only [segmentPairs, List.getElem_map, List.getElem_range, segmentPair, stepBetween, pointX, pointY]
    rw [show pts.length - 1 - (k + 1) = pts.length - 1 - k - 1 by omega]

/-! The fill. -/

theorem drawPoint_paints (pages : Pages) (dst : Fin 4) (colour : Byte) (ax ay : Int) :
    Paints dst colour (fun x y => (x : Int) = ax ∧ (y : Int) = ay) pages (drawPoint pages dst ax ay colour) := by
  unfold drawPoint
  split
  next inside =>
    exact (putPixel_paints pages dst colour (by omega) (by omega)).congr fun x y _ _ => by omega
  next outside => exact .none _ fun x y _ _ _ => by omega

/-- For a box that has an area, `polygonCovers` in the model's own coordinates. -/
theorem polygonCovers_of_area {p : Polygon} {ax ay xOrg xFar yTop yBot xl xr : Word} (area : ¬ (p.bbw = 0 ∨ p.bbh = 0))
    (hOrg : xOrg = ax - p.bbw >>> 1) (hFar : xFar = ax + p.bbw >>> 1) (hTop : yTop = ay - p.bbh >>> 1)
    (hBot : yBot = ay + p.bbh >>> 1) (hl : xl = (p.pts.getD (p.pts.length - 1) (0, 0)).1 + xOrg)
    (hr : xr = (p.pts.getD 0 (0, 0)).1 + xOrg) (x y : Nat) :
    polygonCovers p ax.toInt ay.toInt x y ↔
      ¬ ((319 : Int) < xOrg.toInt ∨ xFar.toInt < 0 ∨ (199 : Int) < yTop.toInt ∨ yBot.toInt < 0) ∧
        ((p.pts.length = 2 ∧ (y : Int) = yTop.toInt ∧ spanCovers xl.toInt xr.toInt x) ∨
          (4 ≤ p.pts.length ∧ WalkCovers (segmentPairs p.pts) yTop.toInt (xl.toInt * 65536) (xr.toInt * 65536) x y)) := by
  have left : xl.toInt = (pointX p.pts (p.pts.length - 1) + xOrg.toInt).bmod 65536 := by
    rw [hl, BitVec.toInt_add]
    rfl
  have right : xr.toInt = (pointX p.pts 0 + xOrg.toInt).bmod 65536 := by
    rw [hr, BitVec.toInt_add]
    rfl
  subst hOrg hFar hTop hBot
  rw [left, right]
  simp only [polygonCovers, WalkCovers, ← sub_half_toInt, ← add_half_toInt]
  obtain ⟨w, h⟩ := not_or.1 area
  simp only [not_or, not_lt, w, h, or_self, false_and, false_or, ne_eq, not_false_eq_true, true_and, and_assoc]

theorem fillPolygon_paints (pages : Pages) (dst : Fin 4) (colour : Byte) {p : Polygon} (ax ay : Word)
    (even : p.pts.length % 2 = 0) :
    Paints dst colour (polygonCovers p ax.toInt ay.toInt) pages (fillPolygon pages dst p colour ax ay) := by
  unfold fillPolygon
  split
  next noArea =>
    refine (drawPoint_paints pages dst colour ax.toInt ay.toInt).congr fun x y _ _ => ?_
    have hasNoArea : ¬ (p.bbw ≠ 0 ∧ p.bbh ≠ 0) := fun h => noArea.elim h.1 h.2
    simp only [polygonCovers, noArea, true_and]
    exact (or_iff_left fun h => hasNoArea ⟨h.1, h.2.1⟩).symm
  next area =>
    have covers := polygonCovers_of_area (ax := ax) (ay := ay) area rfl rfl rfl rfl rfl rfl
    dsimp only
    split
    next off => exact .none _ fun x y _ _ inside => ((covers x y).1 inside).1 off
    next reaches =>
      have length := edgePairs_length even
      cases pairs : edgePairs p.pts with
      | nil =>
        rw [pairs, List.length_nil] at length
        refine .none _ fun x y _ _ inside => ?_
        rcases ((covers x y).1 inside).2 with ⟨two, _⟩ | ⟨four, _⟩ <;> omega
      | cons first rest =>
        have firstPair : first = (p.pts.getD 0 (0, 0), p.pts.getD (p.pts.length - 1) (0, 0)) := by
          have zero := edgePairs_getElem even (k := 0) (by rw [pairs]; simp)
          simp only [pairs, List.getElem_cons_zero] at zero
          rw [pairs, List.length_cons] at length
          rw [zero, List.getD_eq_getElem _ _ (by omega), List.getD_eq_getElem _ _ (by omega)]
          rfl
        rw [pairs, List.length_cons] at length
        cases rest with
        | nil =>
          have two : p.pts.length = 2 := by simp only [List.length_nil] at length; omega
          subst firstPair
          dsimp only
          split
          next onPage =>
            refine (span_paints pages dst colour _ _ (by omega)).congr fun x y _ _ => ?_
            rw [covers]
            constructor
            · rintro ⟨row, inside⟩
              exact ⟨reaches, .inl ⟨two, by omega, inside⟩⟩
            · rintro ⟨_, ⟨_, row, inside⟩ | ⟨four, _⟩⟩
              · exact ⟨by omega, inside⟩
              · omega
          next above =>
            refine .none _ fun x y _ _ inside => ?_
            rcases ((covers x y).1 inside).2 with ⟨_, row, _⟩ | ⟨four, _⟩ <;> omega
        | cons next rest =>
          have four : 4 ≤ p.pts.length := by simp only [List.length_cons] at length; omega
          have walked := edgeWalk_paints dst colour first (next :: rest) (w := ⟨pages, _, _, _⟩)
            ⟨rfl, accOf_eq_ofInt (first.2.1 + (ax - p.bbw >>> 1)), accOf_eq_ofInt (first.1.1 + (ax - p.bbw >>> 1))⟩
            (by omega : (ay - p.bbh >>> 1).toInt ≤ 199)
          rw [segmentsFrom_edgePairs even pairs] at walked
          subst firstPair
          refine walked.congr fun x y _ _ => ?_
          rw [covers]
          constructor
          · exact fun inside => ⟨reaches, .inr ⟨four, inside⟩⟩
          · rintro ⟨_, ⟨two, _⟩ | ⟨_, inside⟩⟩
            · omega
            · exact inside

/-- Settles O19, by `fillPolygon_paints`: the parts of `FillPolygon` each paint their set of pixels, and the edge walk's
accumulators are the description's integers modulo 2^32. -/
theorem fillPaintsThePolygon : Obligations.FillPaintsThePolygon := by
  intro pages dst q p ax ay colour x y even hx hy
  obtain ⟨covered, others⟩ := fillPolygon_paints pages dst colour ax ay even q x y hx hy
  exact ⟨fun target inside => covered ⟨target, inside⟩,
    fun outside => others fun ⟨target, inside⟩ => outside.elim (· target) (· inside)⟩

end Sys2Proof.Machine
